-- ==== Sys2Proof/Word.lean ====
section
/-! DEFINITION. The value types of 00_scope.md R8: bytes, 64-bit words, binary64 patterns and complex pairs. -/

namespace Sys2Proof

/-- A byte of the host's byte-addressed bus space (20_memory.md R60, R65). -/
abbrev Byte := BitVec 8

/-- A 64-bit register or bus word (00_scope.md R7, 20_memory.md R64). -/
abbrev Word := BitVec 64

/-- An `f64`: an IEEE 754 binary64 value, held as its bit pattern (00_scope.md R8, 20_memory.md R65). -/
abbrev F64 := BitVec 64

/-- A byte offset from BASE inside the window of 0x20000 bytes (20_memory.md R60). -/
abbrev Offset := BitVec 17

/-- A `cplx`: a pair of f64 (00_scope.md R8). -/
structure Cplx where
  re : F64
  im : F64
deriving DecidableEq, Repr

/-- CZERO = (+0.0, +0.0) (00_scope.md R9). -/
def czero : Cplx := ⟨0#64, 0#64⟩

end Sys2Proof
end

