-- ==== Sys2Proof/Syntax.lean ====
section
/-! DEFINITION. The instructions: one constructor for every row of spec/opcode_table.json, in the table's order. The four
CMD64 rows are what a host writes to CMD (30_encoding.md R80–R84); the INTERNAL rows are the operations the sequencer and
the bus port run (R86), each with the operands its own rule names. -/

namespace Sys2Proof

/-- An input of FIR_APPLY (41_fir_hilbert.md R100, R101): which FIR instance, and a sample of its payload type. The
instances are the Gaussian filter of a path (R120, cplx) and the noise shaper (45_noise.md R161, f64). -/
inductive FirInput where
  | gauss (p : Nat) (z : Cplx)
  | noise (v : F64)
deriving DecidableEq, Repr

/-- One constructor per row of the opcode table. -/
inductive Instr where
  /-- CMD word 0 (46_channel_commands.md R193). -/
  | nop
  /-- CMD word 1 (R194). -/
  | init
  /-- CMD word 2 (R195). -/
  | processBlock
  /-- Any other CMD word (60_exceptions.md R201). -/
  | illegal (word : Word)
  /-- FIR_APPLY(F, x) (41_fir_hilbert.md R101). -/
  | firApply (x : FirInput)
  /-- HILBERT_INIT (R102). -/
  | hilbertInit
  /-- HILBERT_FILTER_BLOCK(x) (R103). -/
  | hilbertFilterBlock (x : List F64)
  /-- DELAY_INIT (42_delay_line.md R110). -/
  | delayInit
  /-- DELAY_ADD(d) (R111). -/
  | delayAdd (d : F64)
  /-- DELAY_BLOCK(A) (R112). -/
  | delayBlock (a : List Cplx)
  /-- GAUSS_INIT(gf, fs, bw), gf the filter of path p (43_gauss_rayleigh.md R121). -/
  | gaussInit (p : Nat) (fs bw : F64)
  /-- GAUSS_APPLY(gf, z) (R123). -/
  | gaussApply (p : Nat) (z : Cplx)
  /-- CNORMAL(g) (R124). -/
  | cnormal (g : F64)
  /-- RAYLEIGH_INIT(path, spread_raw, gc) (R125). -/
  | rayleighInit (p : Nat) (spreadRaw gc : F64)
  /-- RAYLEIGH_SAMPLE(path) (R127). -/
  | rayleighSample (p : Nat)
  /-- UPS_INIT(u, R), u the stage s of path p (44_upsampler_path.md R140). -/
  | upsInit (p s rate : Nat)
  /-- UPS_INSERT_AT(u, m) (R141). -/
  | upsInsertAt (p s m : Nat)
  /-- UPS_INSERT(u, v) (R142). -/
  | upsInsert (p s : Nat) (v : Cplx)
  /-- UPS_UPSAMPLE(u) (R143). -/
  | upsUpsample (p s : Nat)
  /-- PATH_INIT(path, p) (R150). -/
  | pathInit (p : Nat)
  /-- NCO_STEP(path) (R151). -/
  | ncoStep (p : Nat)
  /-- PATH_CALC(path, X) (R152). -/
  | pathCalc (p : Nat) (x : List Cplx)
  /-- NOISE_INIT(BL) (45_noise.md R160). -/
  | noiseInit (bl : Bool)
  /-- NOISE_ADD(buf, sg, nr) (R162). -/
  | noiseAdd (buf : List F64) (sg nr : F64)
  /-- BLOCK_RMS_UPDATE(x) (46_channel_commands.md R173). -/
  | blockRmsUpdate (x : List F64)
  /-- AGC_GAINS (R174). -/
  | agcGains
  /-- PATH_ACCUMULATE(Y) (R176). -/
  | pathAccumulate (y : List (List Cplx))
  /-- CHAN_INIT, the work of RUN(INIT) (R181). -/
  | chanInit
  /-- CHAN_PROCESS, the work of RUN(PROCESS_BLOCK) (R182). -/
  | chanProcess
  /-- INIT_VALIDATE (R180). -/
  | initValidate
  /-- BUS_READ(off, w) (R190). -/
  | busRead (off : Offset) (w : Nat)
  /-- BUS_WRITE(off, w, v) (R191). -/
  | busWrite (off : Offset) (w : Nat) (v : Word)
  /-- ISSUE(word) (R192). -/
  | issue (word : Word)
  /-- COMPLETE (R196). -/
  | complete
deriving DecidableEq, Repr

end Sys2Proof
end

