-- ==== Sys2Proof/Decode.lean ====
section
/-! DEFINITION. Decoding a command word (30_encoding.md R80–R85), total on any bytes, and the encoder. -/

namespace Sys2Proof

/-- Why bytes written to CMD spell no command: an access of another width than 8 bytes issues nothing (R85). -/
inductive DecodeRefusal where
  | wrongWidth (bytes : Nat)
deriving DecidableEq, Repr

/-- The word of little-endian bytes: byte k holds bits [8k+7:8k] (20_memory.md R65). -/
def wordOfBytes (bs : List Byte) : Word :=
  BitVec.ofNat 64 (bs.foldr (fun b acc => b.toNat + 256 * acc) 0)

/-- Byte k of a word: bits [8k+7:8k] (R65). -/
def byteOfWord (v : Word) (k : Nat) : Byte := v.extractLsb' (8 * k) 8

/-- The eight bytes of a word, the lowest address first (R65). -/
def bytesOfWord (v : Word) : List Byte := (List.range 8).map (byteOfWord v)

/-- The opcode field [7:0] and the reserved field [63:8] (R80). -/
def opcOf (w : Word) : BitVec 8 := w.extractLsb' 0 8

def rsvOf (w : Word) : BitVec 56 := w.extractLsb' 8 56

/-- The opcode map (R82, R83): total on every 64-bit word. -/
def decode (w : Word) : Instr :=
  if rsvOf w ≠ 0#56 then .illegal w
  else if opcOf w = 0x00#8 then .nop
  else if opcOf w = 0x01#8 then .init
  else if opcOf w = 0x02#8 then .processBlock
  else .illegal w

/-- The command that bytes spell. -/
def decodeBytes (bs : List Byte) : Except DecodeRefusal Instr :=
  if bs.length = 8 then .ok (decode (wordOfBytes bs)) else .error (.wrongWidth bs.length)

/-- The word of a command. An INTERNAL row has none: the host cannot encode it (R86). -/
def encode : Instr → Option Word
  | .nop => some 0x0000000000000000#64
  | .init => some 0x0000000000000001#64
  | .processBlock => some 0x0000000000000002#64
  | .illegal w => some w
  | .firApply _ => none
  | .hilbertInit => none
  | .hilbertFilterBlock _ => none
  | .delayInit => none
  | .delayAdd _ => none
  | .delayBlock _ => none
  | .gaussInit _ _ _ => none
  | .gaussApply _ _ => none
  | .cnormal _ => none
  | .rayleighInit _ _ _ => none
  | .rayleighSample _ => none
  | .upsInit _ _ _ => none
  | .upsInsertAt _ _ _ => none
  | .upsInsert _ _ _ => none
  | .upsUpsample _ _ => none
  | .pathInit _ => none
  | .ncoStep _ => none
  | .pathCalc _ _ => none
  | .noiseInit _ => none
  | .noiseAdd _ _ _ => none
  | .blockRmsUpdate _ => none
  | .agcGains => none
  | .pathAccumulate _ => none
  | .chanInit => none
  | .chanProcess => none
  | .initValidate => none
  | .busRead _ _ => none
  | .busWrite _ _ _ => none
  | .issue _ => none
  | .complete => none

/-- The bytes of a command, as a 64-bit write carries them. -/
def encodeBytes (i : Instr) : Option (List Byte) := (encode i).map bytesOfWord

/-- The word whose low `nbits` bits are those of w, the bits above being 0. -/
def tableWord (nbits w : Nat) : Word := BitVec.ofNat 64 (w % 2 ^ nbits)

/-- The instruction the decoder reads from an instruction whose bits are w. -/
def decodeTableWord (nbits w : Nat) : Option Instr :=
  if nbits ≤ 64 then
    match decodeBytes (bytesOfWord (tableWord nbits w)) with
    | .ok i => some i
    | .error _ => none
  else none

end Sys2Proof
end

