-- ==== Sys2Proof/Config.lean ====
section
/-! DEFINITION. What an implementation fixes and the spec leaves open: the OPEN parameters of 00_scope.md R6 and the
free values. Every constant here is opaque and has no body, so no proof can see its value (log 16). The constraints R6
states are in the types: a `Signed` is a sign and the magnitude bits of a finite binary64, a `Positive` one less than the
bits of a finite binary64 greater than 0. Sys2Proof/Machine/Params.lean turns them into values. -/

namespace Sys2Proof

/-- A finite binary64: its sign and its magnitude bits, below those of infinity. -/
abbrev Config.Signed := Bool × Fin 0x7FF0000000000000

/-- A finite binary64 above 0: one less than its bits. -/
abbrev Config.Positive := Fin 0x7FEFFFFFFFFFFFFF

/-- HILBERT_RE[0..58] (R6, D8). -/
opaque Config.hilbertRe : Fin 59 → Config.Signed

/-- HILBERT_IM[0..58] (R6, D8). -/
opaque Config.hilbertIm : Fin 59 → Config.Signed

/-- INTERP[0..49] (R6, D8). -/
opaque Config.interp : Fin 50 → Config.Signed

/-- TARGET_RMS, finite and > 0 (R6, D9). -/
opaque Config.targetRms : Config.Positive

/-- SIGNAL_RMS_RESET, finite and > 0 (R6, D10). -/
opaque Config.signalRmsReset : Config.Positive

/-- MAX_PATHS − 1, so that 1 ≤ MAX_PATHS ≤ 32 (R6, D11). -/
opaque Config.maxPathsPred : Fin 32

/-- BASE / 0x20000: BASE is a multiple of 0x20000 in a 32-bit byte address space (R6, D50). -/
opaque Config.baseIndex : Fin 32768

/-- LN, open (R6, D3). -/
opaque Config.ln : F64 → F64

/-- EXP away from ±0.0, open (R6, D3); the property EXP(±0.0) = 1.0 is in Machine/Params.lean. -/
opaque Config.exp : F64 → F64

/-- COS away from +0.0, open (R6, D3). -/
opaque Config.cos : F64 → F64

/-- SIN away from +0.0, open (R6, D3). -/
opaque Config.sin : F64 → F64

/-- The f64 operations that can deliver a NaN. -/
inductive FOp where
  | add | sub | mul | div | sqrt | fmod
deriving DecidableEq, Repr

/-- Free value: the sign of a NaN result, which the spec does not state (93_implementation_defined.md A24; log 1). -/
opaque Config.nanSign : FOp → F64 → F64 → Bool

/-- Free value: the fraction field, less one, of a NaN result (A24; log 1). -/
opaque Config.nanFraction : FOp → F64 → F64 → Fin 0xFFFFFFFFFFFFF

/-- Free value: what the RAM behind an unwritten SAMPLE_BUF word holds after the `epoch`-th reset (A13; log 2). -/
opaque Config.ramWord : (epoch : Nat) → (index : Nat) → Word

/-- Free value: trunc or ceil of a NaN or an infinity, for which R8 states no integer (log 17). -/
opaque Config.intOfNonFinite : F64 → Int

end Sys2Proof
end

