-- ==== Sys2Proof/Machine/Float.lean ====
section
/-! DEFINITION. IEEE 754 binary64 arithmetic (00_scope.md R8, R9; 92_eei_decisions.md D2, D3): round to nearest, ties to
even, one rounding per operation, subnormals kept, no fused operation, no flags (10_state.md R46).

Every finite binary64 is an integer multiple of 2^−1074. The operations work on that exact integer (`units`), compute the
exact result and round once, in `roundMag`. The six operations are irreducible, so that no tactic evaluates them on symbols. -/

namespace Sys2Proof.Machine
open Sys2Proof

/-- The magnitude bits [62:0] (20_memory.md R65). -/
def fmag (x : F64) : Nat := x.toNat % 2 ^ 63

/-- The sign bit 63. -/
def fsign (x : F64) : Bool := decide (2 ^ 63 ≤ x.toNat)

/-- The magnitude bits of infinity. -/
def infMag : Nat := 0x7FF0000000000000

def isNaN (x : F64) : Bool := decide (infMag < fmag x)

def isInf (x : F64) : Bool := fmag x == infMag

/-- `finite(v)` of 46_channel_commands.md R180: false for NaN and ±infinity. -/
def isFinite (x : F64) : Bool := decide (fmag x < infMag)

/-- The pattern with a given sign and magnitude bits. -/
def ofSignMag (s : Bool) (m : Nat) : F64 := BitVec.ofNat 64 (m + if s then 2 ^ 63 else 0)

/-- 2^1074: one over the least positive binary64. -/
def unitsPerOne : Nat := 2 ^ 1074

/-- The magnitude of the finite number with magnitude bits `m`, in units of 2^−1074. -/
def unitsOfMag (m : Nat) : Nat :=
  let e := m / 2 ^ 52
  let f := m % 2 ^ 52
  if e = 0 then f else (2 ^ 52 + f) * 2 ^ (e - 1)

/-- |x| in units of 2^−1074, for finite x. -/
def funits (x : F64) : Nat := unitsOfMag (fmag x)

/-- x in units of 2^−1074, for finite x. -/
def fsigned (x : F64) : Int := if fsign x then -(funits x : Int) else funits x

/-- num/den rounded to an integer, ties to even. -/
def roundNat (num den : Nat) : Nat :=
  let q := num / den
  let r := num % den
  if den < 2 * r ∨ (2 * r = den ∧ q % 2 = 1) then q + 1 else q

/-- The magnitude bits of num/den units of 2^−1074, rounded to nearest, ties to even: the quotient is cut to 53 bits by a
shift, the mantissa is rounded, and a magnitude past the largest finite one is infinity. The shift is the exponent field
less one, so the bits are `shift · 2^52 + mantissa`, subnormals (shift 0) included. -/
def roundMag (num den : Nat) : Nat :=
  let shift := Nat.log2 (num / den) - 52
  min infMag (shift * 2 ^ 52 + roundNat num (den * 2 ^ shift))

/-- A NaN result: its sign and payload are free values (93_implementation_defined.md A24; log 1). -/
def freeNaN (op : FOp) (a b : F64) : F64 :=
  ofSignMag (Config.nanSign op a b) (infMag + 1 + (Config.nanFraction op a b).val)

/-- `−v` flips the sign bit (R9). -/
def fneg (x : F64) : F64 := x ^^^ 0x8000000000000000#64

/-- a + b, with the NaN to deliver where there is no number. An exact zero sum is +0.0 unless both operands are negative. -/
def faddCore (nan a b : F64) : F64 :=
  if isNaN a || isNaN b then nan
  else if isInf a then (if isInf b && fsign a != fsign b then nan else a)
  else if isInf b then b
  else
    let z := fsigned a + fsigned b
    if z = 0 then ofSignMag (fsign a && fsign b) 0 else ofSignMag (decide (z < 0)) (roundMag z.natAbs 1)

/-- `+` on f64 (R9). -/
@[irreducible] def fadd (a b : F64) : F64 := faddCore (freeNaN .add a b) a b

/-- `−` on f64 (R9). -/
@[irreducible] def fsub (a b : F64) : F64 := faddCore (freeNaN .sub a b) a (fneg b)

/-- `×` on f64 (R9). -/
@[irreducible] def fmul (a b : F64) : F64 :=
  let s := fsign a != fsign b
  if isNaN a || isNaN b then freeNaN .mul a b
  else if isInf a || isInf b then
    (if fmag a = 0 ∨ fmag b = 0 then freeNaN .mul a b else ofSignMag s infMag)
  else ofSignMag s (roundMag (funits a * funits b) unitsPerOne)

/-- `/` on f64 (R9). -/
@[irreducible] def fdiv (a b : F64) : F64 :=
  let s := fsign a != fsign b
  if isNaN a || isNaN b then freeNaN .div a b
  else if isInf a then (if isInf b then freeNaN .div a b else ofSignMag s infMag)
  else if isInf b then ofSignMag s 0
  else if fmag b = 0 then (if fmag a = 0 then freeNaN .div a b else ofSignMag s infMag)
  else ofSignMag s (roundMag (funits a * unitsPerOne) (funits b))

/-- The integer square root by bits: `r` is the root found so far, bit `k − 1` is tried next. -/
def isqrtFrom (n : Nat) : (k r : Nat) → Nat
  | 0, r => r
  | k + 1, r => if (r + 2 ^ k) * (r + 2 ^ k) ≤ n then isqrtFrom n k (r + 2 ^ k) else isqrtFrom n k r

/-- ⌊√n⌋. -/
def isqrt (n : Nat) : Nat := isqrtFrom n (Nat.log2 n / 2 + 1) 0

/-- `SQRT`, correctly rounded (R9, D3). The root of u units is √(u · 2^1074) units; where the integer root is not exact, half
a unit stands for the rest, which rounds the same way because a root of more than 500 bits is cut to 53. -/
@[irreducible] def fsqrt (a : F64) : F64 :=
  if isNaN a then freeNaN .sqrt a 0#64
  else if fmag a = 0 then a
  else if fsign a then freeNaN .sqrt a 0#64
  else if isInf a then a
  else
    let n := funits a * unitsPerOne
    let r := isqrt n
    ofSignMag false (roundMag (2 * r + if r * r = n then 0 else 1) 2)

/-- `FMOD(a, b)`: the exact remainder, with the sign of a (R9, D3). -/
@[irreducible] def ffmod (a b : F64) : F64 :=
  if isNaN a || isNaN b || isInf a || fmag b == 0 then freeNaN .fmod a b
  else if isInf b then a
  else ofSignMag (fsign a) (roundMag (funits a % funits b) 1)

/-- The order of the numbers as an order of integers: the magnitude bits, signed. Both zeros give 0. -/
def fkey (x : F64) : Int := if fsign x then -(fmag x : Int) else fmag x

/-- Comparisons follow IEEE 754 and are false when either operand is NaN (R9). -/
def flt (a b : F64) : Bool := !isNaN a && !isNaN b && decide (fkey a < fkey b)

def fle (a b : F64) : Bool := !isNaN a && !isNaN b && decide (fkey a ≤ fkey b)

def feq (a b : F64) : Bool := !isNaN a && !isNaN b && decide (fkey a = fkey b)

def fge (a b : F64) : Bool := fle b a

def fgt (a b : F64) : Bool := flt b a

/-- `trunc(v)`: toward zero (R8). -/
def ftrunc (x : F64) : Int :=
  if isFinite x then
    let n : Nat := funits x / unitsPerOne
    if fsign x then -(n : Int) else n
  else Config.intOfNonFinite x

/-- `ceil(v)`: the least integer ≥ v (R8). -/
def fceil (x : F64) : Int :=
  if isFinite x then
    if fsign x then -((funits x / unitsPerOne : Nat) : Int) else ((funits x + unitsPerOne - 1) / unitsPerOne : Nat)
  else Config.intOfNonFinite x

/-- `f64(n)`, the conversion of an integer (R8). -/
def fofNat (n : Nat) : F64 := ofSignMag false (roundMag (n * unitsPerOne) 1)

/-- The binary64 nearest to num/den: how a decimal literal is read (D47). -/
def fofRat (num den : Nat) : F64 := ofSignMag false (roundMag (num * unitsPerOne) den)

/-- `cadd` (R9, D42). -/
def cadd (z w : Cplx) : Cplx := ⟨fadd z.re w.re, fadd z.im w.im⟩

/-- `cscale(z, h)` (R9, D42). -/
def cscale (z : Cplx) (h : F64) : Cplx := ⟨fmul z.re h, fmul z.im h⟩

/-- `cmul(z, w)` (R9, D42). -/
def cmul (z w : Cplx) : Cplx :=
  ⟨fsub (fmul z.re w.re) (fmul z.im w.im), fadd (fmul z.re w.im) (fmul z.im w.re)⟩

end Sys2Proof.Machine
end

