-- ==== Sys2Proof/Machine/Params.lean ====
section
/-! DEFINITION. The parameters and constants of 00_scope.md R5, R6 and R9 as the machine uses them: the open ones read from
Sys2Proof/Config.lean with the constraints R6 states, the fixed literals as the nearest binary64 (D47). -/

namespace Sys2Proof.Machine
open Sys2Proof

/-- A finite f64 parameter. -/
def finiteParam (x : Config.Signed) : F64 := ofSignMag x.1 x.2.val

/-- A finite f64 parameter > 0. -/
def positiveParam (x : Config.Positive) : F64 := ofSignMag false (x.val + 1)

/-- MAX_PATHS, in 1..32. -/
def maxPaths : Nat := Config.maxPathsPred.val + 1

/-- BASE, a multiple of 0x20000. -/
def base : BitVec 32 := BitVec.ofNat 32 (Config.baseIndex.val * 0x20000)

def targetRms : F64 := positiveParam Config.targetRms

def signalRmsReset : F64 := positiveParam Config.signalRmsReset

/-- A duplicated coefficient table (R11): T2[i] = T[i] and T2[i + n] = T[i]. -/
def dupTable (t : List F64) : List F64 := t ++ t

/-- HRE2 (10_state.md R38). -/
def hre2 : List F64 := dupTable (List.ofFn fun i => finiteParam (Config.hilbertRe i))

/-- HIM2 (R38). -/
def him2 : List F64 := dupTable (List.ofFn fun i => finiteParam (Config.hilbertIm i))

/-- INTERP2 (R44). -/
def interp2 : List F64 := dupTable (List.ofFn fun i => finiteParam (Config.interp i))

/-- +0.0 -/
def fZero : F64 := 0#64
/-- 1.0 -/
def fOne : F64 := 0x3FF0000000000000#64
/-- 2.0 -/
def fTwo : F64 := 0x4000000000000000#64
/-- −2.0 -/
def fNegTwo : F64 := 0xC000000000000000#64
/-- 4.0 -/
def fFour : F64 := 0x4010000000000000#64
/-- 8.0 -/
def fEight : F64 := 0x4020000000000000#64
/-- 0.05 = IIR_NEW -/
def f0p05 : F64 := 0x3FA999999999999A#64
/-- 0.95 = IIR_OLD -/
def f0p95 : F64 := 0x3FEE666666666666#64
/-- 0.1 = NOSPREAD_TH -/
def f0p1 : F64 := 0x3FB999999999999A#64
/-- 0.4 -/
def f0p4 : F64 := 0x3FD999999999999A#64
/-- 0.6267 = K_ENB -/
def fKEnb : F64 := 0x3FE40DED288CE704#64
/-- 1.10 = NOISE_COMP -/
def fNoiseComp : F64 := 0x3FF199999999999A#64
/-- 1.4 = GAUSS_LEN_K -/
def fGaussLenK : F64 := 0x3FF6666666666666#64
/-- 12.8 -/
def f12p8 : F64 := 0x402999999999999A#64
/-- 64.0 -/
def f64p0 : F64 := 0x4050000000000000#64
/-- 320.0 -/
def f320 : F64 := 0x4074000000000000#64
/-- 30.0 = SPREAD_MAX -/
def f30 : F64 := 0x403E000000000000#64
/-- 50.0 = MAX_DELAY_MS -/
def f50 : F64 := 0x4049000000000000#64
/-- 2048.0 -/
def f2048 : F64 := 0x40A0000000000000#64
/-- 8000.0 = FS -/
def f8000 : F64 := 0x40BF400000000000#64
/-- PI (R9) -/
def fPi : F64 := 0x400921FB54442D18#64
/-- TWO_PI = 2.0 × PI (R9) -/
def fTwoPi : F64 := 0x401921FB54442D18#64

/-- BLOCK = 2048 samples (R5). -/
def blockLen : Nat := 2048
/-- L_DL = 2448 (R5). -/
def delayLen : Nat := 2448
/-- M_PERIOD = 1 280 000 (R5). -/
def mPeriod : Nat := 1280000
/-- PREROLL = 250 (R5). -/
def preroll : Nat := 250
/-- L_G_MAX = 225, the longest Gaussian FIR (R5; 43_gauss_rayleigh.md R122). -/
def gaussLenMax : Nat := 225
/-- 15, the shortest Gaussian FIR (10_state.md R41; 43_gauss_rayleigh.md R120, R122). -/
def gaussLenMin : Nat := 15
/-- STAGE_RATES: the rate multipliers of stages 0..3 (R5). -/
def stageRates : List Nat := [625, 125, 25, 5]

/-- LN (R6). -/
def fln (x : F64) : F64 := Config.ln x

/-- EXP, with EXP(±0.0) = 1.0 (R6). -/
def fexp (x : F64) : F64 := if fmag x = 0 then fOne else Config.exp x

/-- COS, with COS(0.0) = 1.0 (R6); at −0.0 the spec states nothing (log 18). -/
def fcos (x : F64) : F64 := if x = fZero then fOne else Config.cos x

/-- SIN, with SIN(0.0) = 0.0 (R6); at −0.0 the spec states nothing (log 18). -/
def fsin (x : F64) : F64 := if x = fZero then fZero else Config.sin x

end Sys2Proof.Machine
end

