-- ==== Sys2Proof/Machine/State.lean ====
section
/-! DEFINITION. The state of the block and of its two ports, as plain data (10_state.md), and hardware reset (R50). -/

namespace Sys2Proof.Machine
open Sys2Proof

/-- A model fault: the machine stops (60_exceptions.md R210). -/
inductive Fault where
  /-- UNWRITTEN_SAMPLE: PROCESS_BLOCK taken while a SAMPLE_BUF word is unwritten since reset (10_state.md R40). Raised by
  execProcessBlock. Safe: the hardware goes on with what the RAM holds, the model claims nothing (log 3). -/
  | unwrittenSample
  /-- BAD_RNG: an RNG_IN value that is not a finite f64 in [0.0, 1.0) (R210, D12). Raised when the value is supplied or
  drawn. Safe: the model refuses the stream (log 8). -/
  | badRng
deriving DecidableEq, Repr

/-- A refusal: the instruction is given no meaning here. -/
inductive Refusal where
  /-- The instruction of this mnemonic has no meaning yet. Raised by exec alone. Safe. -/
  | notModelled (mnemonic : String)
  /-- An internal operation was given an operand outside the domain its own rule states, where the rule gives no effect
  (log 12). Raised by the internal operations. Safe. -/
  | operandOutsideRule (mnemonic : String)
  /-- An internal operation names a path p that is not below lat.P (10_state.md R41, R150; log 12). Safe. -/
  | noSuchPath (p : Nat)
deriving DecidableEq, Repr

/-- STATUS.ERR_CODE, codes 0x00 to 0x06 in this order (10_state.md R22). -/
inductive ErrCode where
  | ok | illegalCmd | notConfigured | cfgPathCount | cfgNonfinite | cfgDelayRange | cfgSnrNegative
deriving DecidableEq, Repr

/-- The fields of STATUS (10_state.md R21). -/
structure Status where
  busy : Bool
  configured : Bool
  directMode : Bool
  noiseOn : Bool
  cmdDropped : Bool
  errCode : ErrCode
  activePaths : BitVec 8
deriving DecidableEq, Repr

/-- PATH_DELAY_MS[p], PATH_SPREAD_HZ[p], PATH_OFFSET_HZ[p] (R29–R31). -/
structure PathRegs where
  delayMs : F64
  spreadHz : F64
  offsetHz : F64
deriving DecidableEq, Repr

/-- SAMPLE_BUF: the bytes written since reset, by offset from BASE, strictly rising (R32, R40). -/
abbrev Memory := List Host.Cell

/-- A command that runs (R35). -/
inductive Command where
  | init | processBlock
deriving DecidableEq, Repr

/-- The sequencer state (R35). -/
inductive Seq where
  | idle
  | run (c : Command)
deriving DecidableEq, Repr

/-- The latched configuration `lat` (R37). The three lists have one entry per path p < lat.P. -/
structure Latched where
  P : Nat
  direct : Bool
  noiseOn : Bool
  snr : F64
  bl : Bool
  delayMs : List F64
  spreadRaw : List F64
  offsetHz : List F64
deriving DecidableEq, Repr

/-- The Hilbert filter state `hil` (R38). -/
structure Hilbert where
  hist : List Cplx
  wp : Nat
deriving DecidableEq, Repr

/-- The delay-line state `dl` (R39); dl.ntaps is the number of read pointers. -/
structure Delay where
  buf : List Cplx
  w : Nat
  r : List Nat
deriving DecidableEq, Repr

/-- A Gaussian filter `gf` (R41, 43_gauss_rayleigh.md R120). -/
structure Gauss where
  len : Nat
  c2 : List F64
  hist : List Cplx
  wp : Nat
deriving DecidableEq, Repr

/-- An up-sampler stage (R41, 44_upsampler_path.md R140). -/
structure Ups where
  rate : Nat
  queue : List Cplx
  ptr : Nat
deriving DecidableEq, Repr

/-- The per-path state `path[p]` (R41). -/
structure Path where
  nospread : Bool
  g : F64
  fsG : F64
  s0 : Nat
  gf : Gauss
  ups : List Ups
  theta : F64
  dtheta : F64
  mIndex : Nat
deriving DecidableEq, Repr

/-- The noise-generator state `nz` (R42). -/
structure Noise where
  hist : List F64
  wp : Nat
  bl : Bool
deriving DecidableEq, Repr

/-- What a finished work hands to COMPLETE (46_channel_commands.md R182, R196). -/
inductive Finished where
  | init
  | block (y : List F64) (nrd : F64)
deriving DecidableEq, Repr

/-- The value an internal operation returns to the sequencer (log 11). -/
inductive Value where
  | unit
  | bool (b : Bool)
  | f64 (v : F64)
  | cplx (z : Cplx)
  | gains (sg nr : F64)
  | samples (y : List F64)
  | block (a : List Cplx)
  | blocks (t : List (List Cplx))
  | code (e : ErrCode)
deriving DecidableEq, Repr

/-- A bus access the host makes (20_memory.md R64; 30_encoding.md R90, R91, R93). `poll` is the host loop of WAIT_IDLE: it
reads STATUS until BUSY is 0. -/
inductive BusAccess where
  | read (off : Offset) (w : Nat)
  | write (off : Offset) (w : Nat) (v : Word)
  | poll
deriving DecidableEq, Repr

/-- What the bus answers to an access: an error or not, and for a read the word returned (R64, R208). -/
inductive Response where
  | read (error : Bool) (v : Word)
  | write (error : Bool)
deriving DecidableEq, Repr

/-- Who moves next (log 6): the host on its bus, the sequencer to the end of its work or to a hold (`sequencer`) or up to its next
RngDraw alone (`draw`), the RNG source with one value, or hardware reset. -/
inductive Turn where
  | host
  | sequencer
  | draw
  | supply (v : F64)
  | reset
deriving DecidableEq, Repr

/-- The whole machine. -/
structure State where
  -- the host-visible register file (R20–R32)
  status : Status
  numPaths : Word
  noiseCtrl : Word
  snr : F64
  signalRms : F64
  noiseRms : F64
  blockCount : Word
  pathRegs : List PathRegs
  mem : Memory
  -- the sequencer and the latched configuration (R34–R37)
  seq : Seq
  lat : Latched
  -- the internal DSP state (R38–R43)
  hil : Hilbert
  dl : Delay
  paths : List Path
  nz : Noise
  sigAvg : F64
  -- the work in progress (the model's own; logs 7 and 11)
  drawn : List F64
  holding : Bool
  finished : Option Finished
  result : Value
  -- the ports (the model's own; logs 2, 6, 10, 15, 22)
  bus : List BusAccess
  resp : List Response
  rng : List F64
  turns : List Turn
  epoch : Nat
deriving DecidableEq, Repr

/-- STATUS = 0 (R50). -/
def Status.reset : Status := ⟨false, false, false, false, false, .ok, 0#8⟩

/-- The named value of a path's state after reset, which R50 leaves unspecified (log 4). -/
def Path.reset : Path where
  nospread := true
  g := fZero
  fsG := fZero
  s0 := 0
  gf := ⟨15, List.replicate 30 fZero, List.replicate 15 czero, 0⟩
  ups := stageRates.map fun rate => ⟨rate, List.replicate 10 czero, 0⟩
  theta := fZero
  dtheta := fZero
  mIndex := 0

/-- The machine after hardware reset (R50, R230). The items R50 calls unspecified have the values log 4 names; the ports are
empty. -/
def State.reset : State where
  status := Status.reset
  numPaths := 0#64
  noiseCtrl := 0#64
  snr := fZero
  signalRms := fZero
  noiseRms := fZero
  blockCount := 0#64
  pathRegs := List.replicate 32 ⟨fZero, fZero, fZero⟩
  mem := []
  seq := .idle
  lat := ⟨0, true, false, fZero, true, [], [], []⟩
  hil := ⟨List.replicate 59 czero, 0⟩
  dl := ⟨List.replicate delayLen czero, 0, []⟩
  paths := List.replicate 32 Path.reset
  nz := ⟨List.replicate 59 fZero, 0, true⟩
  sigAvg := fZero
  drawn := []
  holding := false
  finished := none
  result := .unit
  bus := []
  resp := []
  rng := []
  turns := []
  epoch := 0

end Sys2Proof.Machine
end

