-- ==== Sys2Proof/Machine/Flags.lean ====
section
/-! DEFINITION. The STATUS bits, the only flags of the block (10_state.md R21, R22, R46). -/

namespace Sys2Proof.Machine
open Sys2Proof

/-- The legal values of STATUS.ERR_CODE (R22). -/
def errBits : ErrCode → BitVec 8
  | .ok => 0x00#8
  | .illegalCmd => 0x01#8
  | .notConfigured => 0x02#8
  | .cfgPathCount => 0x03#8
  | .cfgNonfinite => 0x04#8
  | .cfgDelayRange => 0x05#8
  | .cfgSnrNegative => 0x06#8

/-- STATUS as the host reads it (R21): [23:16] ACTIVE_PATHS, [15:8] ERR_CODE, [4] CMD_DROPPED, [3] NOISE_ON, [2] DIRECT_MODE,
[1] CONFIGURED, [0] BUSY, the rest 0. -/
def statusWord (t : Status) : Word :=
  0#40 ++ t.activePaths ++ errBits t.errCode ++ 0#3 ++ BitVec.ofBool t.cmdDropped ++ BitVec.ofBool t.noiseOn ++
    BitVec.ofBool t.directMode ++ BitVec.ofBool t.configured ++ BitVec.ofBool t.busy

end Sys2Proof.Machine
end

