-- ==== Sys2Proof/Machine/Operands.lean ====
section
/-! DEFINITION. Operand forms: the domains the rules give the operands of the internal operations, the address map of
20_memory.md R62 that turns a bus offset into the register it names, and the rate table of 43_gauss_rayleigh.md R126. -/

namespace Sys2Proof.Machine
open Sys2Proof

/-- A block of 2048 samples (00_scope.md R5). -/
def isBlock {α : Type} (xs : List α) : Bool := xs.length == blockLen

/-- d in [0.0, 50.0] (42_delay_line.md R111); −0.0 passes (46_channel_commands.md R180). -/
def delayInRange (d : F64) : Bool := isFinite d && !flt d fZero && !fgt d f50

/-- s is a stage of the cascade and `rate` its multiplier (44_upsampler_path.md R140). -/
def isStageRate (s rate : Nat) : Bool := stageRates[s]? == some rate

/-- A value RNG_IN may carry: a finite f64 in [0.0, 1.0) (60_exceptions.md R210, D12; on −0.0 see log 8). -/
def rngGood (v : F64) : Bool := isFinite v && fle fZero v && flt v fOne

/-- RATE(s) and OUTER(fs_g) of 43_gauss_rayleigh.md R126, for a clamped spread s ≥ 0.1. -/
def rateOf (s : F64) : F64 × Nat :=
  if fle s f0p4 then (f12p8, 0) else if fle s fTwo then (f64p0, 1) else (f320, 2)

/-- The operands RAYLEIGH_INIT guarantees to GAUSS_INIT (43_gauss_rayleigh.md R121): a bandwidth in [0.1, 30.0] and the rate R126
pairs with it. These are the admitted operands of R122, whose filter lengths lie in [15, 225] (R120; log 12). -/
def gaussDomain (fs bw : F64) : Bool := fle f0p1 bw && fle bw f30 && fs == (rateOf bw).1

/-- A register or a SAMPLE_BUF word (20_memory.md R62). -/
inductive Reg where
  | cmd | status | numPaths | noiseCtrl | snr | signalRms | noiseRms | blockCount
  | pathDelay (p : Nat) | pathSpread (p : Nat) | pathOffset (p : Nat)
  | sample (i : Nat)
deriving DecidableEq, Repr

/-- The path registers of the map: the slot p, and the register at the place in its 0x20 bytes. -/
def decodePathOffset (o : Nat) : Option Reg :=
  let p := (o - 0x100) / 0x20
  if o % 0x20 = 0 then some (.pathDelay p)
  else if o % 0x20 = 8 then some (.pathSpread p)
  else if o % 0x20 = 16 then some (.pathOffset p)
  else none

/-- The address map (R62): what an aligned offset names; `none` is a reserved offset. -/
def decodeOffset (off : Offset) : Option Reg :=
  let o := off.toNat
  if o = 0x00 then some .cmd
  else if o = 0x08 then some .status
  else if o = 0x10 then some .numPaths
  else if o = 0x18 then some .noiseCtrl
  else if o = 0x20 then some .snr
  else if o = 0x28 then some .signalRms
  else if o = 0x30 then some .noiseRms
  else if o = 0x38 then some .blockCount
  else if 0x100 ≤ o ∧ o < 0x100 + 0x20 * maxPaths then decodePathOffset o
  else if 0x10000 ≤ o ∧ o < 0x14000 then some (.sample ((o - 0x10000) / 8))
  else none

/-- What an access of w bytes at `off` names: nothing, if its width is not 8 bytes, its offset is misaligned or the offset
is unmapped (R64), and the answer is then a bus error. -/
def admitted (off : Offset) (w : Nat) : Option Reg :=
  if w = 8 ∧ off.toNat % 8 = 0 then decodeOffset off else none

/-- The effective address BASE + offset of an access (46_channel_commands.md R199). -/
def busAddress (off : Offset) : BitVec 32 := base + off.setWidth 32

/-- The offset of a 32-bit byte address, if it lies in the block's window (20_memory.md R60, R63). -/
def offsetOfAddress (a : BitVec 32) : Option Offset :=
  if (a - base).toNat < 0x20000 then some ((a - base).setWidth 17) else none

end Sys2Proof.Machine
end

