-- ==== Sys2Proof/Machine/Ops.lean ====
section
/-! DEFINITION. The named operations the meanings share: bytes and words of SAMPLE_BUF, RNG_IN draws, circular pointers,
paths, the taking and the rejection of a command, answers on the bus. The block has no trap entry and no return
(60_exceptions.md R213–R215): an error is a rejected command, `rejectCommand`, and nothing returns from it. -/

namespace Sys2Proof.Machine
open Sys2Proof

/-- The outcome of an instruction or a step of this machine. -/
abbrev Outcome := Host.Outcome State Fault Refusal

/-! ### SAMPLE_BUF -/

/-- One byte, if it has been written since reset (10_state.md R40); what is not listed reads as no value (log 2). -/
def readByte : Memory → Nat → Option Byte
  | [], _ => none
  | (k, b) :: m, a => if a = k then some b else if a < k then none else readByte m a

/-- Write one byte; the list stays sorted by address. -/
def writeByte : Memory → Nat → Byte → Memory
  | [], a, b => [(a, b)]
  | (k, c) :: m, a, b =>
    if a = k then (a, b) :: m else if a < k then (a, b) :: (k, c) :: m else (k, c) :: writeByte m a b

/-- The canonical form: addresses strictly rising. (No listed byte can equal what an unlisted one reads as: no value.) -/
def Memory.wf : Memory → Bool
  | [] => true
  | [_] => true
  | (k, _) :: (l, c) :: m => decide (k < l) && Memory.wf ((l, c) :: m)

/-- The 64-bit word at a byte offset, little-endian (20_memory.md R65), if all eight bytes have been written. -/
def readWord (m : Memory) (a : Nat) : Option Word :=
  ((List.range 8).mapM fun k => readByte m (a + k)).map wordOfBytes

/-- Write the 64-bit word at a byte offset (R65). -/
def writeWord (m : Memory) (a : Nat) (v : Word) : Memory :=
  (List.range 8).foldl (fun m k => writeByte m (a + k) (byteOfWord v k)) m

/-- The offset of SAMPLE_BUF[i] (10_state.md R32). -/
def sampleOff (i : Nat) : Nat := 0x10000 + 8 * i

/-- The validity bit of SAMPLE_BUF[i] (R40). -/
def sampleValid (m : Memory) (i : Nat) : Bool := (readWord m (sampleOff i)).isSome

/-- Every validity bit is set. -/
def allValid (m : Memory) : Bool := (List.range blockLen).all (sampleValid m)

/-- SampleRead(i) (00_scope.md R10). A word not written since reset reads as what the RAM holds, a free value that stays the
same until the next reset (93_implementation_defined.md A13; log 2). -/
def sampleRead (s : State) (i : Nat) : F64 := (readWord s.mem (sampleOff i)).getD (Config.ramWord s.epoch i)

/-- The block in SAMPLE_BUF. -/
def readBlock (s : State) : List F64 := (List.range blockLen).map (sampleRead s)

/-- SampleWrite(i, y[i]) for every i from `i` on, ascending (46_channel_commands.md R196). -/
def writeBlockFrom : Memory → Nat → List F64 → Memory
  | m, _, [] => m
  | m, i, v :: y => writeBlockFrom (writeWord m (sampleOff i) v) (i + 1) y

def writeBlock (m : Memory) (y : List F64) : Memory := writeBlockFrom m 0 y

/-! ### Circular pointers (00_scope.md R11) -/

/-- Decrement with wrap. -/
def decWrap (n p : Nat) : Nat := if p = 0 then n - 1 else p - 1

/-- Increment with wrap. -/
def incWrap (n p : Nat) : Nat := if p = n - 1 then 0 else p + 1

/-! ### RNG_IN (00_scope.md R10, 10_state.md R36, R45) -/

/-- A computation that draws from RNG_IN: it ends with the values left, or waits for a value that is not there, or meets a
value the port must not carry. -/
inductive RngResult (α : Type) where
  | ok (a : α) (rest : List F64)
  | starved
  | bad
deriving DecidableEq, Repr

/-- Go on with the values left. -/
def RngResult.bind {α β : Type} (r : RngResult α) (f : α → List F64 → RngResult β) : RngResult β :=
  match r with
  | .ok a rest => f a rest
  | .starved => .starved
  | .bad => .bad

/-- Run an operation that draws on the values it drew before it last held, then those waiting. If they do not suffice it
holds, having drawn them all (R36; log 7); it starts again from its beginning, on the same values, when it is run again. -/
def runDraws {α : Type} (s : State) (f : List F64 → RngResult α) (k : α → State → State) : Outcome :=
  match f (s.drawn ++ s.rng) with
  | .ok a rest => .next (k a { s with drawn := [], holding := false, rng := rest })
  | .starved => .next { s with drawn := s.drawn ++ s.rng, holding := true, rng := [] }
  | .bad => .fault .badRng

/-- The next RngDraw of an operation alone (00_scope.md R10; 10_state.md R35, R36): it takes the first value waiting, or holds if
none waits. An operation that needs no further value draws none. `runDraws` goes on from the values drawn so (log 7). -/
def drawOne {α : Type} (s : State) (f : List F64 → RngResult α) : Outcome :=
  match f s.drawn with
  | .ok _ _ => .next s
  | .bad => .fault .badRng
  | .starved =>
    match s.rng with
    | [] => .next { s with holding := true }
    | v :: rest =>
      if rngGood v then .next { s with drawn := s.drawn ++ [v], holding := false, rng := rest } else .fault .badRng

/-- The host supplies one RNG_IN value (30_encoding.md R95; 60_exceptions.md R210). A hold ends (10_state.md R36). -/
def supplyRng (v : F64) (s : State) : Outcome :=
  if rngGood v then .next { s with rng := s.rng ++ [v], holding := false } else .fault .badRng

/-! ### Internal operations -/

/-- Keep the value an internal operation returns (log 11). -/
def State.returning (s : State) (v : Value) : State := { s with result := v }

/-- Run an internal operation if its operands are in its rule's domain (log 12). -/
def guarded (ok : Bool) (mnemonic : String) (o : Outcome) : Outcome :=
  if ok then o else .refused (.operandOutsideRule mnemonic)

/-- Run an operation on path p < lat.P (10_state.md R41; log 12). -/
def onPath (s : State) (p : Nat) (f : Path → Outcome) : Outcome :=
  if p < s.lat.P then
    match s.paths[p]? with
    | some q => f q
    | none => .refused (.noSuchPath p)
  else .refused (.noSuchPath p)

/-- Replace path p. -/
def State.setPath (s : State) (p : Nat) (q : Path) : State := { s with paths := s.paths.set p q }

/-- Run an operation on stage t of path p (44_upsampler_path.md R140). -/
def onStage (s : State) (p t : Nat) (mnemonic : String) (f : Path → Ups → Outcome) : Outcome :=
  onPath s p fun q =>
    match q.ups[t]? with
    | some u => f q u
    | none => .refused (.operandOutsideRule mnemonic)

/-- Replace stage t of a path. -/
def Path.setStage (q : Path) (t : Nat) (u : Ups) : Path := { q with ups := q.ups.set t u }

/-! ### Commands (46_channel_commands.md R192) -/

/-- Set STATUS.ERR_CODE. -/
def State.setErr (s : State) (e : ErrCode) : State := { s with status := { s.status with errCode := e } }

/-- A command written while seq ≠ IDLE is dropped: CMD_DROPPED ← 1 and nothing else (60_exceptions.md R209). Otherwise it is
taken: CMD_DROPPED ← 0, then the command's own effect. -/
def takeCommand (s : State) (effect : State → Outcome) : Outcome :=
  if s.seq = .idle then effect { s with status := { s.status with cmdDropped := false } }
  else .next { s with status := { s.status with cmdDropped := true } }

/-- `reject(code)` (00_scope.md R10): the command ends with ERR_CODE = code; a rejected INIT also clears CONFIGURED
(60_exceptions.md R214). This is the block's whole error entry. -/
def rejectCommand (c : Option Command) (e : ErrCode) (s : State) : State :=
  match c with
  | some .init => { s with status := { s.status with errCode := e, configured := false } }
  | some .processBlock => s.setErr e
  | none => s.setErr e

/-- A command starts: ERR_CODE ← 0x00, BUSY ← 1, seq ← RUN(c); its work has drawn nothing yet. -/
def startCommand (c : Command) (s : State) : State :=
  { s with status := { s.status with errCode := .ok, busy := true }, seq := .run c, drawn := [], holding := false, finished := none }

/-! ### The bus port -/

/-- Answer the host's access. -/
def State.respond (s : State) (r : Response) : State := { s with resp := s.resp ++ [r] }

/-- Hold the host's access (20_memory.md R66): it stays the first access still to be made. -/
def State.hold (s : State) (a : BusAccess) : State := { s with bus := a :: s.bus }

/-- Hardware reset (10_state.md R50; 70_reset_and_hazards.md R230, R231): a running command is abandoned, SAMPLE_BUF is
unknown again, the RNG_IN values already drawn stay consumed and those waiting stay, and a held access is made after it. -/
def hardwareReset (s : State) : State :=
  { State.reset with bus := s.bus, resp := s.resp, rng := s.rng, turns := s.turns, epoch := s.epoch + 1 }

end Sys2Proof.Machine
end

