-- ==== Sys2Proof/Machine/Fir.lean ====
section
/-! DEFINITION. The FIR primitive and the Hilbert analytic filter (41_fir_hilbert.md R100–R106). FIR_APPLY itself, which
runs on the filters of other units, is in Sys2Proof/Machine/Noise.lean. -/

namespace Sys2Proof.Machine
open Sys2Proof

/-- The window C2[N − wp .. ] of a duplicated table that meets hist[0..N − 1] (R100). -/
def firWindow (n wp : Nat) (c2 : List F64) : List F64 := c2.drop (n - wp)

/-- The dot product over f64 samples, in ascending k, from +0.0 (R101 (b)). -/
def dotReal (hist window : List F64) : F64 :=
  (hist.zip window).foldl (fun acc hc => fadd acc (fmul hc.1 hc.2)) fZero

/-- The dot product over cplx samples with real coefficients, in ascending k, from CZERO (R101 (b)). -/
def dotCplx (hist : List Cplx) (window : List F64) : Cplx :=
  (hist.zip window).foldl (fun acc hc => cadd acc (cscale hc.1 hc.2)) czero

/-- FIR_APPLY with an f64 payload (R101): the value returned, the history and the write pointer after. -/
def firReal (n : Nat) (c2 hist : List F64) (wp : Nat) (x : F64) : F64 × List F64 × Nat :=
  let h := hist.set wp x
  (dotReal h (firWindow n wp c2), h, decWrap n wp)

/-- FIR_APPLY with a cplx payload (R101). -/
def firCplx (n : Nat) (c2 : List F64) (hist : List Cplx) (wp : Nat) (x : Cplx) : Cplx × List Cplx × Nat :=
  let h := hist.set wp x
  (dotCplx h (firWindow n wp c2), h, decWrap n wp)

/-- A step function run over a block from left to right: the outputs and the state after. -/
def scanBlock {σ α β : Type} (f : σ → α → β × σ) : σ → List α → List β × σ
  | s, [] => ([], s)
  | s, x :: xs =>
    let o := f s x
    let t := scanBlock f o.2 xs
    (o.1 :: t.1, t.2)

/-- The Hilbert filter after HILBERT_INIT (R102). -/
def hilbertZero : Hilbert := ⟨List.replicate 59 czero, 58⟩

/-- One sample of HILBERT_FILTER_BLOCK with the tables HRE2, HIM2 (R103): the payload is (x, x), its real part weighted by the
real taps and its imaginary part by the imaginary taps (D48). -/
def hilbertSample (re2 im2 : List F64) (h : Hilbert) (x : F64) : Cplx × Hilbert :=
  let hist := h.hist.set h.wp ⟨x, x⟩
  (⟨dotReal (hist.map Cplx.re) (firWindow 59 h.wp re2), dotReal (hist.map Cplx.im) (firWindow 59 h.wp im2)⟩,
    ⟨hist, decWrap 59 h.wp⟩)

/-- HILBERT_FILTER_BLOCK (R103). -/
def hilbertBlock (re2 im2 : List F64) (h : Hilbert) (x : List F64) : List Cplx × Hilbert :=
  scanBlock (hilbertSample re2 im2) h x

/-- HILBERT_INIT (R102). -/
def execHilbertInit (s : State) : Outcome := .next { s with hil := hilbertZero }

/-- HILBERT_FILTER_BLOCK (R103). -/
def execHilbertFilterBlock (x : List F64) (s : State) : Outcome :=
  guarded (isBlock x) "HILBERT_FILTER_BLOCK" <|
    let o := hilbertBlock hre2 him2 s.hil x
    .next ({ s with hil := o.2 }.returning (.block o.1))

end Sys2Proof.Machine
end

