-- ==== Sys2Proof/Machine/DelayLine.lean ====
section
/-! DEFINITION. The delay-line tap bank (42_delay_line.md R110–R114). -/

namespace Sys2Proof.Machine
open Sys2Proof

/-- The delay line after DELAY_INIT (R110). -/
def delayZero : Delay := ⟨List.replicate delayLen czero, delayLen - 1, []⟩

/-- D = trunc(8.0 × d), the delay in samples (R111). -/
def delaySamples (d : F64) : Int := ftrunc (fmul fEight d)

/-- DELAY_ADD (R111): append the read pointer (dl.w − D) mod 2448. -/
def delayAdd (dl : Delay) (d : F64) : Delay :=
  { dl with r := dl.r ++ [(((dl.w : Int) - delaySamples d) % (delayLen : Int)).toNat] }

/-- One sample of DELAY_BLOCK (R112): write, advance, then read and advance every tap. It returns the taps' outputs. -/
def delaySample (dl : Delay) (a : Cplx) : List Cplx × Delay :=
  let buf := dl.buf.set dl.w a
  (dl.r.map fun r => buf.getD r czero, ⟨buf, incWrap delayLen dl.w, dl.r.map (incWrap delayLen)⟩)

/-- The rows of tap outputs, one per sample, as one block per tap. -/
def tapBlocks (ntaps : Nat) (rows : List (List Cplx)) : List (List Cplx) :=
  (List.range ntaps).map fun t => rows.map fun row => row.getD t czero

/-- DELAY_BLOCK (R112): one output block per tap. -/
def delayBlock (dl : Delay) (a : List Cplx) : List (List Cplx) × Delay :=
  let o := scanBlock delaySample dl a
  (tapBlocks dl.r.length o.1, o.2)

/-- DELAY_INIT (R110). -/
def execDelayInit (s : State) : Outcome := .next { s with dl := delayZero }

/-- DELAY_ADD (R111). Only CHAN_INIT's calls, MAX_PATHS − 1 at most (R114), reach a run. -/
def execDelayAdd (d : F64) (s : State) : Outcome :=
  guarded (delayInRange d) "DELAY_ADD" <| .next { s with dl := delayAdd s.dl d }

/-- DELAY_BLOCK (R112). -/
def execDelayBlock (a : List Cplx) (s : State) : Outcome :=
  guarded (isBlock a) "DELAY_BLOCK" <|
    let o := delayBlock s.dl a
    .next ({ s with dl := o.2 }.returning (.blocks o.1))

end Sys2Proof.Machine
end

