-- ==== Sys2Proof/Machine/Rayleigh.lean ====
section
/-! DEFINITION. The Gaussian low-pass FIR, the complex-normal draw and the Rayleigh fading generator
(43_gauss_rayleigh.md R120–R128). -/

namespace Sys2Proof.Machine
open Sys2Proof

/-- sigma of GAUSS_INIT (R121, D17). -/
def gaussSigma (fs bw : F64) : F64 := fdiv (fmul fs (fsqrt fTwo)) (fmul (fmul fTwo fPi) bw)

/-- L of GAUSS_INIT: the smallest odd integer ≥ (1.4 × fs) / bw (R121). -/
def gaussLen (fs bw : F64) : Nat :=
  let l := fceil (fdiv (fmul fGaussLenK fs) bw)
  (if l % 2 = 0 then l + 1 else l).toNat

/-- The coefficient h[k] of a table of length L (R121, D16). -/
def gaussCoeff (sigma : F64) (len k : Nat) : F64 :=
  let t := fsub (fofNat k) (fofNat ((len - 1) / 2))
  fexp (fneg (fdiv (fmul t t) (fmul (fmul fTwo sigma) sigma)))

/-- GAUSS_INIT (R121). -/
def gaussInit (fs bw : F64) : Gauss :=
  let len := gaussLen fs bw
  let sigma := gaussSigma fs bw
  ⟨len, dupTable ((List.range len).map (gaussCoeff sigma len)), List.replicate len czero, len - 1⟩

/-- GAUSS_APPLY (R123): FIR_APPLY with N = gf.L and C2 = gf.C2. -/
def gaussApply (gf : Gauss) (z : Cplx) : Cplx × Gauss :=
  let o := firCplx gf.len gf.c2 gf.hist gf.wp z
  (o.1, { gf with hist := o.2.1, wp := o.2.2 })

/-- One pair of CNORMAL (R124): the value of an accepted pair, `none` of a rejected one. -/
def cnormalPair (g U1 U2 : F64) : Option Cplx :=
  let u1 := fsub (fmul fTwo U1) fOne
  let u2 := fsub (fmul fTwo U2) fOne
  let r2 := fadd (fmul u1 u1) (fmul u2 u2)
  if fge r2 fOne || feq r2 fZero then none
  else
    let s := fmul g (fsqrt (fdiv (fmul fNegTwo (fln r2)) r2))
    some ⟨fmul u1 s, fmul u2 s⟩

/-- CNORMAL (R124): draw pairs until one is accepted. -/
def cnormal (g : F64) : List F64 → RngResult Cplx
  | U1 :: U2 :: rest =>
    if rngGood U1 then
      if rngGood U2 then
        match cnormalPair g U1 U2 with
        | some z => .ok z rest
        | none => cnormal g rest
      else .bad
    else .bad
  | [U1] => if rngGood U1 then .starved else .bad
  | [] => .starved

/-- RAYLEIGH_SAMPLE (R127). -/
def rayleighSample (q : Path) (rng : List F64) : RngResult (Cplx × Path) :=
  if q.nospread then .ok (⟨q.g, fZero⟩, q) rng
  else (cnormal q.g rng).bind fun v rest =>
    let o := gaussApply q.gf v
    .ok (o.1, { q with gf := o.2 }) rest

/-- Draw and discard n samples (R125, the pre-roll). -/
def discardSamples : Nat → Path → List F64 → RngResult Path
  | 0, q, rng => .ok q rng
  | n + 1, q, rng => (rayleighSample q rng).bind fun o rest => discardSamples n o.2 rest

/-- The clamp of a spread to [0, 30] (R125, D22). -/
def clampSpread (s : F64) : F64 :=
  let s := if flt s fZero then fZero else s
  if fgt s f30 then f30 else s

/-- RAYLEIGH_INIT up to its pre-roll (R125). -/
def rayleighConfigure (q : Path) (spreadRaw gc : F64) : Path :=
  let s := clampSpread spreadRaw
  if flt s f0p1 then { q with nospread := true, g := gc }
  else
    let fs := (rateOf s).1
    { q with
      nospread := false, fsG := fs, s0 := (rateOf s).2, gf := gaussInit fs s
      g := fmul gc (fsqrt (fdiv fs (fmul (fmul fFour s) fKEnb))) }

/-- RAYLEIGH_INIT (R125): a no-spread path is not pre-rolled (D46). -/
def rayleighInit (q : Path) (spreadRaw gc : F64) (rng : List F64) : RngResult Path :=
  let q := rayleighConfigure q spreadRaw gc
  if q.nospread then .ok q rng else discardSamples preroll q rng

/-- GAUSS_INIT on the filter of path p (R121). -/
def execGaussInit (p : Nat) (fs bw : F64) (s : State) : Outcome :=
  guarded (gaussDomain fs bw) "GAUSS_INIT" <|
    onPath s p fun q => .next (s.setPath p { q with gf := gaussInit fs bw })

/-- GAUSS_APPLY on the filter of path p (R123). -/
def execGaussApply (p : Nat) (z : Cplx) (s : State) : Outcome :=
  onPath s p fun q =>
    let o := gaussApply q.gf z
    .next ((s.setPath p { q with gf := o.2 }).returning (.cplx o.1))

/-- CNORMAL (R124). -/
def execCnormal (g : F64) (s : State) : Outcome :=
  runDraws s (cnormal g) fun z t => t.returning (.cplx z)

/-- RAYLEIGH_INIT on path p (R125). -/
def execRayleighInit (p : Nat) (spreadRaw gc : F64) (s : State) : Outcome :=
  guarded (isFinite spreadRaw) "RAYLEIGH_INIT" <|
    onPath s p fun q => runDraws s (rayleighInit q spreadRaw gc) fun q' t => t.setPath p q'

/-- RAYLEIGH_SAMPLE on path p (R127). -/
def execRayleighSample (p : Nat) (s : State) : Outcome :=
  onPath s p fun q => runDraws s (rayleighSample q) fun o t => (t.setPath p o.2).returning (.cplx o.1)

end Sys2Proof.Machine
end

