-- ==== Sys2Proof/Machine/Noise.lean ====
section
/-! DEFINITION. The noise injector (45_noise.md R160–R164), and FIR_APPLY on the state's FIR instances
(41_fir_hilbert.md R101). -/

namespace Sys2Proof.Machine
open Sys2Proof

/-- The noise generator after NOISE_INIT (R160). -/
def noiseInit (bl : Bool) : Noise := ⟨List.replicate 59 fZero, 58, bl⟩

/-- NOISE_FIR with the table HRE2 (R161). -/
def noiseFir (re2 : List F64) (nz : Noise) (v : F64) : F64 × Noise :=
  let o := firReal 59 re2 nz.hist nz.wp v
  (o.1, { nz with hist := o.2.1, wp := o.2.2 })

/-- The shaping of one component: through the FIR, or not when BL = 0 (R162, R163). -/
def noiseShape (re2 : List F64) (nz : Noise) (v : F64) : F64 × Noise :=
  if nz.bl then noiseFir re2 nz v else (v, nz)

/-- The pairs of NOISE_ADD (R162): the real part shapes sample 2k, then the imaginary part sample 2k + 1 (D27). -/
def noisePairs (re2 : List F64) (sg sigmaN : F64) : Noise → List F64 → List F64 → RngResult (List F64 × Noise)
  | nz, b0 :: b1 :: bs, rng =>
    (cnormal sigmaN rng).bind fun z rest =>
      let a := noiseShape re2 nz z.re
      let b := noiseShape re2 a.2 z.im
      (noisePairs re2 sg sigmaN b.2 bs rest).bind fun t rest' =>
        .ok (fadd (fmul sg b0) a.1 :: fadd (fmul sg b1) b.1 :: t.1, t.2) rest'
  | nz, bs, rng => .ok (bs, nz) rng

/-- NOISE_ADD (R162): σn = nr × 1.10. -/
def noiseAdd (re2 : List F64) (nz : Noise) (buf : List F64) (sg nr : F64) (rng : List F64) : RngResult (List F64 × Noise) :=
  noisePairs re2 sg (fmul nr fNoiseComp) nz buf rng

/-- NOISE_INIT (R160). -/
def execNoiseInit (bl : Bool) (s : State) : Outcome := .next { s with nz := noiseInit bl }

/-- NOISE_ADD (R162): the block is modified in place, so it is the value returned. -/
def execNoiseAdd (buf : List F64) (sg nr : F64) (s : State) : Outcome :=
  guarded (isBlock buf) "NOISE_ADD" <|
    runDraws s (noiseAdd hre2 s.nz buf sg nr) fun o t => { t with nz := o.2 }.returning (.samples o.1)

/-- FIR_APPLY (41_fir_hilbert.md R101) on the Gaussian filter of a path or on the noise shaper. -/
def execFirApply (x : FirInput) (s : State) : Outcome :=
  match x with
  | .gauss p z =>
    onPath s p fun q =>
      let o := firCplx q.gf.len q.gf.c2 q.gf.hist q.gf.wp z
      .next ((s.setPath p { q with gf := { q.gf with hist := o.2.1, wp := o.2.2 } }).returning (.cplx o.1))
  | .noise v =>
    let o := firReal 59 hre2 s.nz.hist s.nz.wp v
    .next ({ s with nz := { s.nz with hist := o.2.1, wp := o.2.2 } }.returning (.f64 o.1))

end Sys2Proof.Machine
end

