-- ==== Sys2Proof/Machine/PathUnit.lean ====
section
/-! DEFINITION. The polyphase up-sampler stages, the Doppler NCO and the path multiplier (44_upsampler_path.md R140–R153). -/

namespace Sys2Proof.Machine
open Sys2Proof

/-- UPS_INIT (R140). -/
def upsInit (rate : Nat) : Ups := ⟨rate, List.replicate 10 czero, 49⟩

/-- UPS_INSERT_AT (R141). -/
def upsInsertAt (u : Ups) (m : Nat) : Bool := m % u.rate == 0

/-- UPS_INSERT (R142). -/
def upsInsert (u : Ups) (v : Cplx) : Ups := { u with queue := u.queue.set (u.ptr / 5) v }

/-- UPS_UPSAMPLE with the table INTERP2 (R143): a polyphase slice of stride 5 from index 50 − p + 4. -/
def upsUpsample (table : List F64) (u : Ups) : Cplx × Ups :=
  ((List.range 10).foldl
      (fun acc j => cadd acc (cscale (u.queue.getD j czero) (table.getD (50 - u.ptr + 4 + 5 * j) fZero))) czero,
    { u with ptr := decWrap 50 u.ptr })

/-- gc = 1.0 / SQRT(f64(P)) (R150, D17). -/
def gainCoeff (P : Nat) : F64 := fdiv fOne (fsqrt (fofNat P))

/-- Δθ = ((2.0 × PI) × offset) / 8000.0 (R150, D17). -/
def phaseStep (offset : F64) : F64 := fdiv (fmul (fmul fTwo fPi) offset) f8000

/-- PATH_INIT (R150). -/
def pathInit (P : Nat) (spreadRaw offset : F64) (q : Path) (rng : List F64) : RngResult Path :=
  (rayleighInit { q with ups := stageRates.map upsInit } spreadRaw (gainCoeff P) rng).bind fun q rest =>
    .ok { q with theta := fZero, dtheta := phaseStep offset, mIndex := 0 } rest

/-- The phase after one NCO_STEP (R151, D18). -/
def phaseAdvance (theta dtheta : F64) : F64 :=
  let t := ffmod (fadd theta dtheta) fTwoPi
  let t := if flt t fZero then fadd t fTwoPi else t
  if fge t fTwoPi then fZero else t

/-- NCO_STEP (R151): the current phase is used, then advanced. -/
def ncoStep (q : Path) : Cplx × Path :=
  (⟨fcos q.theta, fsin q.theta⟩, { q with theta := phaseAdvance q.theta q.dtheta })

/-- The value a stage takes at an insert (R152): from the generator for the outermost stage, else by up-sampling the slower
stage. -/
def stageInput (table : List F64) (q : Path) (t : Nat) (rng : List F64) : RngResult (Cplx × Path) :=
  if t = q.s0 then rayleighSample q rng
  else
    match q.ups[t - 1]? with
    | some u => let o := upsUpsample table u; .ok (o.1, q.setStage (t - 1) o.2) rng
    | none => .ok (czero, q) rng

/-- One stage of the cascade at one sample (R152). -/
def stageStep (table : List F64) (q : Path) (t : Nat) (rng : List F64) : RngResult Path :=
  match q.ups[t]? with
  | some u =>
    if upsInsertAt u q.mIndex then
      (stageInput table q t rng).bind fun o rest => .ok (o.2.setStage t (upsInsert u o.1)) rest
    else .ok q rng
  | none => .ok q rng

/-- The stages of a list, in its order: s0..3, the slowest active stage first (R146, R152). -/
def cascade (table : List F64) : List Nat → Path → List F64 → RngResult Path
  | [], q, rng => .ok q rng
  | t :: ts, q, rng => (stageStep table q t rng).bind fun q' rest => cascade table ts q' rest

/-- The active stages s0..3 (R146). -/
def activeStages (q : Path) : List Nat := (List.range 4).drop q.s0

/-- One fresh fading value from the fastest stage (R152). -/
def fadingOut (table : List F64) (q : Path) : Cplx × Path :=
  match q.ups[3]? with
  | some u => let o := upsUpsample table u; (o.1, q.setStage 3 o.2)
  | none => (czero, q)

/-- The fading factor of one sample (R152): the constant gain without spread (D14), else the cascade's. -/
def fadingFactor (table : List F64) (q : Path) (rng : List F64) : RngResult (Cplx × Path) :=
  if q.nospread then .ok (⟨q.g, fZero⟩, q) rng
  else (cascade table (activeStages q) q rng).bind fun q' rest => .ok (fadingOut table q') rest

/-- m_index + 1, from 1 280 000 back to 0 (R152, D19). -/
def nextMIndex (m : Nat) : Nat := if m + 1 = mPeriod then 0 else m + 1

/-- One sample of PATH_CALC (R152). -/
def pathSample (table : List F64) (q : Path) (x : Cplx) (rng : List F64) : RngResult (Cplx × Path) :=
  (fadingFactor table q rng).bind fun o rest =>
    let n := ncoStep o.2
    .ok (cmul (cmul o.1 x) n.1, { n.2 with mIndex := nextMIndex n.2.mIndex }) rest

/-- PATH_CALC (R152). -/
def pathCalc (table : List F64) : Path → List Cplx → List F64 → RngResult (List Cplx × Path)
  | q, [], rng => .ok ([], q) rng
  | q, x :: xs, rng =>
    (pathSample table q x rng).bind fun o rest =>
      (pathCalc table o.2 xs rest).bind fun t rest' => .ok (o.1 :: t.1, t.2) rest'

/-- UPS_INIT on stage t of path p (R140). -/
def execUpsInit (p t rate : Nat) (s : State) : Outcome :=
  guarded (isStageRate t rate) "UPS_INIT" <|
    onStage s p t "UPS_INIT" fun q _ => .next (s.setPath p (q.setStage t (upsInit rate)))

/-- UPS_INSERT_AT on stage t of path p (R141). -/
def execUpsInsertAt (p t m : Nat) (s : State) : Outcome :=
  onStage s p t "UPS_INSERT_AT" fun _ u => .next (s.returning (.bool (upsInsertAt u m)))

/-- UPS_INSERT on stage t of path p (R142). -/
def execUpsInsert (p t : Nat) (v : Cplx) (s : State) : Outcome :=
  onStage s p t "UPS_INSERT" fun q u => .next (s.setPath p (q.setStage t (upsInsert u v)))

/-- UPS_UPSAMPLE on stage t of path p (R143). -/
def execUpsUpsample (p t : Nat) (s : State) : Outcome :=
  onStage s p t "UPS_UPSAMPLE" fun q u =>
    let o := upsUpsample interp2 u
    .next ((s.setPath p (q.setStage t o.2)).returning (.cplx o.1))

/-- The latched spread and offset of path p (10_state.md R37). -/
def Latched.spreadOf (l : Latched) (p : Nat) : F64 := l.spreadRaw.getD p fZero

def Latched.offsetOf (l : Latched) (p : Nat) : F64 := l.offsetHz.getD p fZero

/-- PATH_INIT on path p, with the latched configuration (R150). -/
def execPathInit (p : Nat) (s : State) : Outcome :=
  onPath s p fun q =>
    runDraws s (pathInit s.lat.P (s.lat.spreadOf p) (s.lat.offsetOf p) q) fun q' t => t.setPath p q'

/-- NCO_STEP on path p (R151). -/
def execNcoStep (p : Nat) (s : State) : Outcome :=
  onPath s p fun q =>
    let o := ncoStep q
    .next ((s.setPath p o.2).returning (.cplx o.1))

/-- PATH_CALC on path p (R152). -/
def execPathCalc (p : Nat) (x : List Cplx) (s : State) : Outcome :=
  guarded (isBlock x) "PATH_CALC" <|
    onPath s p fun q => runDraws s (pathCalc interp2 q x) fun o t => (t.setPath p o.2).returning (.block o.1)

end Sys2Proof.Machine
end

