-- ==== Sys2Proof/Machine/Channel.lean ====
section
/-! DEFINITION. The channel processor (46_channel_commands.md R170–R183): RMS tracking, AGC, path accumulation, and the work
of INIT and PROCESS_BLOCK. -/

namespace Sys2Proof.Machine
open Sys2Proof

/-- block_rms of BLOCK_RMS_UPDATE (R173). -/
def blockRms (x : List F64) : F64 :=
  fsqrt (fdiv (x.foldl (fun acc v => fadd acc (fmul v v)) fZero) f2048)

/-- st.signal_rms after BLOCK_RMS_UPDATE (R173). -/
def rmsUpdate (x : List F64) (prev : F64) : F64 := fadd (fmul f0p05 (blockRms x)) (fmul f0p95 prev)

/-- AGC_GAINS with TARGET_RMS = target (R174): (sg, nr). -/
def agcGains (target : F64) (noiseOn : Bool) (snr r : F64) : F64 × F64 :=
  if noiseOn then
    if fge snr fOne then
      let sg := fdiv target r
      (sg, fdiv (fmul sg r) snr)
    else (fdiv (fmul target snr) r, target)
  else (fOne, fZero)

/-- PATH_ACCUMULATE (R176): the real parts, from path 0 on. -/
def pathAccumulate : List (List Cplx) → List F64
  | [] => []
  | y0 :: ys => ys.foldl (fun acc y => List.zipWith fadd acc (y.map Cplx.re)) (y0.map Cplx.re)

/-- INIT_VALIDATE (R180): the checks in priority order. -/
def initValidate (s : State) : ErrCode :=
  let P := s.numPaths.toNat
  let on := s.noiseCtrl.getLsbD 0
  let regs := s.pathRegs.take P
  if maxPaths < P then .cfgPathCount
  else if regs.any (fun r => !isFinite r.delayMs || !isFinite r.spreadHz || !isFinite r.offsetHz) || (on && !isFinite s.snr) then
    .cfgNonfinite
  else if regs.any (fun r => flt r.delayMs fZero || fgt r.delayMs f50) then .cfgDelayRange
  else if on && flt s.snr fZero then .cfgSnrNegative
  else .ok

/-- CHAN_INIT part (a) (R181): the latch, at the CMD write. -/
def latchConfig (s : State) : Latched :=
  let P := s.numPaths.toNat
  let regs := s.pathRegs.take P
  { P := P, direct := P == 0, noiseOn := s.noiseCtrl.getLsbD 0, snr := s.snr, bl := true
    delayMs := regs.map PathRegs.delayMs
    spreadRaw := regs.map PathRegs.spreadHz
    offsetHz := regs.map PathRegs.offsetHz }

/-- PATH_INIT for the first P paths, from path p on, in path order (R181, D26). -/
def initPaths (l : Latched) : Nat → Nat → List Path → List F64 → RngResult (List Path)
  | _, 0, qs, rng => .ok qs rng
  | _, _ + 1, [], rng => .ok [] rng
  | p, n + 1, q :: qs, rng =>
    (pathInit l.P (l.spreadOf p) (l.offsetOf p) q rng).bind fun q' rest =>
      (initPaths l (p + 1) n qs rest).bind fun qs' rest' => .ok (q' :: qs') rest'

/-- CHAN_INIT part (b) (R181): the units the work of RUN(INIT) leaves behind. -/
def chanInitWork (s : State) (rng : List F64) : RngResult (Hilbert × Delay × List Path) :=
  if s.lat.P = 0 then .ok (s.hil, s.dl, s.paths) rng
  else (initPaths s.lat 0 s.lat.P s.paths rng).bind fun qs rest =>
    .ok (hilbertZero, (s.lat.delayMs.drop 1).foldl delayAdd delayZero, qs) rest

/-- PATH_CALC for each path with its input, in path order (R182, D26). A path without an input is left as it is. -/
def runPaths (table : List F64) : List Path → List (List Cplx) → List F64 → RngResult (List (List Cplx) × List Path)
  | q :: qs, x :: xs, rng =>
    (pathCalc table q x rng).bind fun o rest =>
      (runPaths table qs xs rest).bind fun t rest' => .ok (o.1 :: t.1, o.2 :: t.2) rest'
  | qs, _, rng => .ok ([], qs) rng

/-- The units after one block, and the block before the noise. -/
structure BankOut where
  hil : Hilbert
  dl : Delay
  paths : List Path
  y : List F64
deriving DecidableEq, Repr

/-- Step 2 of PROCESS_BLOCK (R170, R171, R172, R182): path 0 takes the undelayed analytic block, path p ≥ 1 takes tap p − 1;
in direct mode the block passes through. -/
def pathBank (s : State) (x : List F64) (rng : List F64) : RngResult BankOut :=
  if s.lat.direct then .ok ⟨s.hil, s.dl, s.paths, x⟩ rng
  else
    let a := hilbertBlock hre2 him2 s.hil x
    let t := delayBlock s.dl a.1
    (runPaths interp2 s.paths ((a.1 :: t.1).take s.lat.P) rng).bind fun o rest =>
      .ok ⟨a.2, t.2, o.2, pathAccumulate o.1⟩ rest

/-- The state of the noise generator and the output block after step 3 (R177). -/
def noiseStage (s : State) (sg nr : F64) (y : List F64) (rng : List F64) : RngResult (List F64 × Noise) :=
  if s.lat.noiseOn then noiseAdd hre2 s.nz y sg nr rng else .ok (y, s.nz) rng

/-- What CHAN_PROCESS leaves behind (R182). -/
structure ProcessOut where
  bank : BankOut
  nz : Noise
  sigAvg : F64
  y : List F64
  nrd : F64
deriving DecidableEq, Repr

/-- CHAN_PROCESS (R182). -/
def chanProcessWork (s : State) (rng : List F64) : RngResult ProcessOut :=
  let x := readBlock s
  let r := rmsUpdate x s.sigAvg
  let g := agcGains targetRms s.lat.noiseOn s.lat.snr r
  (pathBank s x rng).bind fun b rest =>
    (noiseStage s g.1 g.2 b.y rest).bind fun n rest' =>
      .ok ⟨b, n.2, r, n.1, if s.lat.noiseOn then g.2 else fZero⟩ rest'

/-- BLOCK_RMS_UPDATE (R173). -/
def execBlockRmsUpdate (x : List F64) (s : State) : Outcome :=
  guarded (isBlock x) "BLOCK_RMS_UPDATE" <| .next { s with sigAvg := rmsUpdate x s.sigAvg }

/-- AGC_GAINS (R174). -/
def execAgcGains (s : State) : Outcome :=
  let g := agcGains targetRms s.lat.noiseOn s.lat.snr s.sigAvg
  .next (s.returning (.gains g.1 g.2))

/-- PATH_ACCUMULATE (R176). -/
def execPathAccumulate (y : List (List Cplx)) (s : State) : Outcome :=
  guarded (!y.isEmpty && y.all isBlock) "PATH_ACCUMULATE" <|
    .next (s.returning (.samples (pathAccumulate y)))

/-- INIT_VALIDATE (R180). -/
def execInitValidate (s : State) : Outcome := .next (s.returning (.code (initValidate s)))

/-- CHAN_INIT (R181), part (b): the work of RUN(INIT). Part (a), the latch, is done at the CMD write by INIT (log 13). -/
def execChanInit (s : State) : Outcome :=
  runDraws s (chanInitWork s) fun o t =>
    { t with hil := o.1, dl := o.2.1, paths := o.2.2, nz := noiseInit true, sigAvg := signalRmsReset, finished := some .init }

/-- CHAN_PROCESS (R182): the work of RUN(PROCESS_BLOCK). -/
def execChanProcess (s : State) : Outcome :=
  runDraws s (chanProcessWork s) fun o t =>
    { t with
      hil := o.bank.hil, dl := o.bank.dl, paths := o.bank.paths, nz := o.nz, sigAvg := o.sigAvg
      finished := some (.block o.y o.nrd) }

end Sys2Proof.Machine
end

