-- ==== Sys2Proof/Machine/Commands.lean ====
section
/-! DEFINITION. The commands, their issue and their completion (46_channel_commands.md R192–R196; 60_exceptions.md
R200–R209). Each command is given whole: it is dropped while a command runs, and taken otherwise. -/

namespace Sys2Proof.Machine
open Sys2Proof

/-- NOP (R193): ERR_CODE ← 0x00. -/
def execNop (s : State) : Outcome := takeCommand s fun t => .next (t.setErr .ok)

/-- INIT (R194): validate; then reject (60_exceptions.md R203–R206), or latch and start. -/
def execInit (s : State) : Outcome :=
  takeCommand s fun t =>
    if initValidate t = .ok then .next (startCommand .init { t with lat := latchConfig t })
    else .next (rejectCommand (some .init) (initValidate t) t)

/-- PROCESS_BLOCK (R195): reject if not configured (R202); fault if a sample has never been written (10_state.md R40); else
start. -/
def execProcessBlock (s : State) : Outcome :=
  takeCommand s fun t =>
    if t.status.configured then
      if allValid t.mem then .next (startCommand .processBlock t) else .fault .unwrittenSample
    else .next (rejectCommand (some .processBlock) .notConfigured t)

/-- Any other word (R201): rejected with ERR_CODE 0x01; the word is not kept. -/
def execIllegal (_word : Word) (s : State) : Outcome :=
  takeCommand s fun t => .next (rejectCommand none .illegalCmd t)

/-- ISSUE (R192): the effect of a write to CMD is the command the word spells. -/
def execIssue (word : Word) (s : State) : Outcome :=
  if rsvOf word ≠ 0#56 then execIllegal word s
  else if opcOf word = 0x00#8 then execNop s
  else if opcOf word = 0x01#8 then execInit s
  else if opcOf word = 0x02#8 then execProcessBlock s
  else execIllegal word s

/-- The STATUS and diagnostics of a completed INIT (R196). -/
def completeInit (s : State) : State :=
  { s with
    status := { s.status with
      busy := false, configured := true, directMode := s.lat.direct, noiseOn := s.lat.noiseOn
      activePaths := BitVec.ofNat 8 s.lat.P }
    signalRms := signalRmsReset, noiseRms := fZero, blockCount := 0#64
    seq := .idle, finished := none }

/-- The outputs of a completed PROCESS_BLOCK (R178, R196). -/
def completeBlock (y : List F64) (nrd : F64) (s : State) : State :=
  { s with
    status := { s.status with busy := false }
    mem := writeBlock s.mem y
    signalRms := s.sigAvg, noiseRms := nrd, blockCount := s.blockCount + 1#64
    seq := .idle, finished := none }

/-- COMPLETE (R196): one event once the work of the running command has finished. Where it has not, the event does not take
place (log 14). -/
def execComplete (s : State) : Outcome :=
  match s.seq, s.finished with
  | .run .init, some .init => .next (completeInit s)
  | .run .processBlock, some (.block y nrd) => .next (completeBlock y nrd s)
  | _, _ => .next s

end Sys2Proof.Machine
end

