-- ==== Sys2Proof/Machine/Bus.lean ====
section
/-! DEFINITION. The host's bus reads and writes (46_channel_commands.md R190, R191; 20_memory.md R60–R68). -/

namespace Sys2Proof.Machine
open Sys2Proof

/-- The path registers of path p. -/
def State.pathReg (s : State) (p : Nat) : PathRegs := s.pathRegs.getD p ⟨fZero, fZero, fZero⟩

/-- Change the path registers of path p. -/
def State.setPathReg (s : State) (p : Nat) (f : PathRegs → PathRegs) : State :=
  { s with pathRegs := s.pathRegs.set p (f (s.pathReg p)) }

/-- The word a register or a SAMPLE_BUF word holds (10_state.md R20–R32). -/
def readReg (s : State) : Reg → Word
  | .cmd => 0#64
  | .status => statusWord s.status
  | .numPaths => s.numPaths
  | .noiseCtrl => s.noiseCtrl
  | .snr => s.snr
  | .signalRms => s.signalRms
  | .noiseRms => s.noiseRms
  | .blockCount => s.blockCount
  | .pathDelay p => (s.pathReg p).delayMs
  | .pathSpread p => (s.pathReg p).spreadHz
  | .pathOffset p => (s.pathReg p).offsetHz
  | .sample i => sampleRead s i

/-- BUS_READ (R190). A SAMPLE_BUF access is held while BUSY = 1 (20_memory.md R66). -/
def execBusRead (off : Offset) (w : Nat) (s : State) : Outcome :=
  match admitted off w with
  | none => .next (s.respond (.read true 0#64))
  | some (.sample i) =>
    if s.status.busy then .next (s.hold (.read off w)) else .next (s.respond (.read false (sampleRead s i)))
  | some r => .next (s.respond (.read false (readReg s r)))

/-- BUS_WRITE (R191). -/
def execBusWrite (off : Offset) (w : Nat) (v : Word) (s : State) : Outcome :=
  match admitted off w with
  | none => .next (s.respond (.write true))
  | some .cmd => execIssue v (s.respond (.write false))
  | some .status => .next (s.respond (.write false))
  | some .signalRms => .next (s.respond (.write false))
  | some .noiseRms => .next (s.respond (.write false))
  | some .blockCount => .next (s.respond (.write false))
  | some .noiseCtrl => .next ({ s with noiseCtrl := v &&& 0x1#64 }.respond (.write false))
  | some .numPaths => .next ({ s with numPaths := v }.respond (.write false))
  | some .snr => .next ({ s with snr := v }.respond (.write false))
  | some (.pathDelay p) => .next ((s.setPathReg p fun r => { r with delayMs := v }).respond (.write false))
  | some (.pathSpread p) => .next ((s.setPathReg p fun r => { r with spreadHz := v }).respond (.write false))
  | some (.pathOffset p) => .next ((s.setPathReg p fun r => { r with offsetHz := v }).respond (.write false))
  | some (.sample i) =>
    if s.status.busy then .next (s.hold (.write off w v))
    else .next ({ s with mem := writeWord s.mem (sampleOff i) v }.respond (.write false))

end Sys2Proof.Machine
end

