-- ==== Sys2Proof/Machine/Dispatch.lean ====
section
/-! DEFINITION. The meaning of every instruction, one arm per row of the opcode table. -/

namespace Sys2Proof.Machine
open Sys2Proof

def exec (i : Instr) (s : State) : Host.Outcome State Fault Refusal :=
  match i with
  | .nop => Sys2Proof.Machine.execNop s
  | .init => Sys2Proof.Machine.execInit s
  | .processBlock => Sys2Proof.Machine.execProcessBlock s
  | .illegal word => Sys2Proof.Machine.execIllegal word s
  | .firApply x => Sys2Proof.Machine.execFirApply x s
  | .hilbertInit => Sys2Proof.Machine.execHilbertInit s
  | .hilbertFilterBlock x => Sys2Proof.Machine.execHilbertFilterBlock x s
  | .delayInit => Sys2Proof.Machine.execDelayInit s
  | .delayAdd d => Sys2Proof.Machine.execDelayAdd d s
  | .delayBlock a => Sys2Proof.Machine.execDelayBlock a s
  | .gaussInit p fs bw => Sys2Proof.Machine.execGaussInit p fs bw s
  | .gaussApply p z => Sys2Proof.Machine.execGaussApply p z s
  | .cnormal g => Sys2Proof.Machine.execCnormal g s
  | .rayleighInit p spreadRaw gc => Sys2Proof.Machine.execRayleighInit p spreadRaw gc s
  | .rayleighSample p => Sys2Proof.Machine.execRayleighSample p s
  | .upsInit p t rate => Sys2Proof.Machine.execUpsInit p t rate s
  | .upsInsertAt p t m => Sys2Proof.Machine.execUpsInsertAt p t m s
  | .upsInsert p t v => Sys2Proof.Machine.execUpsInsert p t v s
  | .upsUpsample p t => Sys2Proof.Machine.execUpsUpsample p t s
  | .pathInit p => Sys2Proof.Machine.execPathInit p s
  | .ncoStep p => Sys2Proof.Machine.execNcoStep p s
  | .pathCalc p x => Sys2Proof.Machine.execPathCalc p x s
  | .noiseInit bl => Sys2Proof.Machine.execNoiseInit bl s
  | .noiseAdd buf sg nr => Sys2Proof.Machine.execNoiseAdd buf sg nr s
  | .blockRmsUpdate x => Sys2Proof.Machine.execBlockRmsUpdate x s
  | .agcGains => Sys2Proof.Machine.execAgcGains s
  | .pathAccumulate y => Sys2Proof.Machine.execPathAccumulate y s
  | .chanInit => Sys2Proof.Machine.execChanInit s
  | .chanProcess => Sys2Proof.Machine.execChanProcess s
  | .initValidate => Sys2Proof.Machine.execInitValidate s
  | .busRead off w => Sys2Proof.Machine.execBusRead off w s
  | .busWrite off w v => Sys2Proof.Machine.execBusWrite off w v s
  | .issue word => Sys2Proof.Machine.execIssue word s
  | .complete => Sys2Proof.Machine.execComplete s

end Sys2Proof.Machine
end

