-- ==== Sys2Proof/Machine/Sequencer.lean ====
section
/-! DEFINITION. What happens next: which agent moves, and the instruction it runs (10_state.md R34–R36; log 6). -/

namespace Sys2Proof.Machine
open Sys2Proof

/-- What the next step does. -/
inductive Action where
  | run (i : Instr) (s : State)
  | draw (s : State)
  | supply (v : F64) (s : State)
  | reset (s : State)
  | wait (s : State)
deriving DecidableEq, Repr

/-- The sequencer's turn (R35, R196): the work of the running command, then its completion; nothing while IDLE (60_exceptions.md
R221). -/
def sequencerTurn (s : State) : Action :=
  match s.seq, s.finished with
  | .idle, _ => .wait s
  | .run _, some _ => .run .complete s
  | .run .init, none => .run .chanInit s
  | .run .processBlock, none => .run .chanProcess s

/-- The next RngDraw of the running command (R35: draws are what the host can see of its progress). A reset or a host access can
then come between two draws (70_reset_and_hazards.md R231). -/
def drawTurn (s : State) : Outcome :=
  match s.seq, s.finished with
  | .run .init, none => drawOne s (chanInitWork s)
  | .run .processBlock, none => drawOne s (chanProcessWork s)
  | _, _ => .next s

/-- The host's turn (20_memory.md R68): the first access of its program. WAIT_IDLE's loop reads STATUS and stays first while
BUSY is 1 (30_encoding.md R93). -/
def hostTurn (s : State) : Action :=
  match s.bus with
  | [] => .wait s
  | .read off w :: rest => .run (.busRead off w) { s with bus := rest }
  | .write off w v :: rest => .run (.busWrite off w v) { s with bus := rest }
  | .poll :: rest => .run (.busRead 0x00008#17 8) { s with bus := if s.status.busy then .poll :: rest else rest }

/-- Who moves next: the turn the environment gives, or, where it gives none, the sequencer while it runs and is not waiting at
RngDraw, else the host (log 6). -/
def fetch (s : State) : Action :=
  match s.turns with
  | .host :: ts => hostTurn { s with turns := ts }
  | .sequencer :: ts => sequencerTurn { s with turns := ts }
  | .draw :: ts => .draw { s with turns := ts }
  | .supply v :: ts => .supply v { s with turns := ts }
  | .reset :: ts => .reset { s with turns := ts }
  | [] => if s.seq ≠ .idle ∧ s.holding = false then sequencerTurn s else hostTurn s

end Sys2Proof.Machine
end

