-- ==== Sys2Proof/Machine/Step.lean ====
section
/-! DEFINITION. One step of the machine. -/

namespace Sys2Proof.Machine
open Sys2Proof

/-- One step: an instruction of the host or of the sequencer, one RngDraw of a running command, a value supplied to RNG_IN,
hardware reset, or nothing. -/
def step (s : State) : Host.Outcome State Fault Refusal :=
  match fetch s with
  | .run i t => exec i t
  | .draw t => drawTurn t
  | .supply v t => supplyRng v t
  | .reset t => .next (hardwareReset t)
  | .wait t => .next t

/-- The block fetches no instruction (20_memory.md R61): a command reaches it as a 64-bit write to CMD (30_encoding.md R80). So
the word stands at the head of the host's program, and the next turn is the host's (log 10). -/
def State.withFetchWord (s : State) (nbits w : Nat) : State :=
  { s with bus := .write 0x00000#17 8 (tableWord nbits w) :: s.bus, turns := .host :: s.turns }

end Sys2Proof.Machine
end

