-- ==== Sys2Proof/Safety.lean ====
section
/-! DEFINITION. What a well-formed state is: the bounds 10_state.md states for every pointer, length and field, and the links
between STATUS, the sequencer and the latched configuration. -/

namespace Sys2Proof.Machine
open Sys2Proof

/-- hil: 59 samples, a pointer in [0, 59) (R38). -/
def Hilbert.wf (h : Hilbert) : Prop := h.hist.length = 59 ∧ h.wp < 59

/-- dl: 2448 samples, every pointer in [0, 2448), at most MAX_PATHS − 1 taps (R39). -/
def Delay.wf (d : Delay) : Prop :=
  d.buf.length = delayLen ∧ d.w < delayLen ∧ (∀ r ∈ d.r, r < delayLen) ∧ d.r.length < maxPaths

/-- gf: an odd length L in [15, 225], 2L coefficients, L samples, a pointer in [0, L) (R41, R120). -/
def Gauss.wf (g : Gauss) : Prop :=
  (g.len % 2 = 1 ∧ gaussLenMin ≤ g.len ∧ g.len ≤ gaussLenMax) ∧ g.c2.length = 2 * g.len ∧ g.hist.length = g.len ∧ g.wp < g.len

/-- ups[s]: the multiplier of stage s, 10 queue slots, a pointer in [0, 50) (R41). -/
def Ups.wf (rate : Nat) (u : Ups) : Prop := u.rate = rate ∧ u.queue.length = 10 ∧ u.ptr < 50

/-- path[p] (R41). -/
def Path.wf (q : Path) : Prop :=
  q.gf.wf ∧ q.s0 ≤ 2 ∧ q.mIndex < mPeriod ∧ List.Forall₂ Ups.wf stageRates q.ups

/-- nz: 59 samples, a pointer in [0, 59) (R42). -/
def Noise.wf (n : Noise) : Prop := n.hist.length = 59 ∧ n.wp < 59

/-- lat: P ≤ MAX_PATHS, direct mode exactly when P = 0, BL = 1, one entry per path (R37). -/
def Latched.wf (l : Latched) : Prop :=
  l.P ≤ maxPaths ∧ l.direct = (l.P == 0) ∧ l.bl = true ∧
    l.delayMs.length = l.P ∧ l.spreadRaw.length = l.P ∧ l.offsetHz.length = l.P

/-- lat holds what INIT_VALIDATE has passed (46_channel_commands.md R180): delays in [0.0, 50.0], finite spreads and offsets. -/
def Latched.valid (l : Latched) : Prop :=
  (∀ d ∈ l.delayMs, delayInRange d = true) ∧ (∀ v ∈ l.spreadRaw, isFinite v = true) ∧ ∀ v ∈ l.offsetHz, isFinite v = true

/-- A listed byte of SAMPLE_BUF lies in its window and its whole word is listed (20_memory.md R62, R64). -/
def Memory.wholeWords (m : Memory) : Prop :=
  ∀ a b, readByte m a = some b → ∃ i, i < blockLen ∧ sampleOff i ≤ a ∧ a < sampleOff i + 8 ∧ sampleValid m i = true

/-- The units of the DSP. -/
def State.unitsWf (s : State) : Prop :=
  s.hil.wf ∧ s.dl.wf ∧ s.paths.length = 32 ∧ (∀ q ∈ s.paths, q.wf) ∧ s.nz.wf ∧ s.lat.wf

/-- The register file: reserved bits of NOISE_CTRL are 0 (R24); room for 32 paths; SAMPLE_BUF in canonical form. -/
def State.regsWf (s : State) : Prop :=
  s.noiseCtrl &&& 0x1#64 = s.noiseCtrl ∧ s.pathRegs.length = 32 ∧ Memory.wf s.mem = true ∧ Memory.wholeWords s.mem

/-- BUSY = 1 exactly when seq ≠ IDLE (R35). -/
def State.busyWf (s : State) : Prop := s.status.busy = true ↔ s.seq ≠ .idle

/-- Only INIT's work finishes RUN(INIT), only a block of 2048 samples finishes RUN(PROCESS_BLOCK) (R196), and PROCESS_BLOCK
runs only when configured (R195). -/
def State.runWf (s : State) : Prop :=
  match s.seq, s.finished with
  | .idle, f => f = none
  | .run .init, f => f = none ∨ f = some .init
  | .run .processBlock, none => s.status.configured = true
  | .run .processBlock, some .init => False
  | .run .processBlock, some (.block y _) => s.status.configured = true ∧ y.length = blockLen

/-- STATUS shows the latched configuration (R21, 70_reset_and_hazards.md R244), unless an INIT is running. -/
def State.shownWf (s : State) : Prop :=
  s.status.configured = true → s.seq ≠ .run .init →
    s.status.directMode = s.lat.direct ∧ s.status.noiseOn = s.lat.noiseOn ∧ s.status.activePaths = BitVec.ofNat 8 s.lat.P

/-- A command holds only while it runs, unfinished, with no RNG_IN value waiting (R36). -/
def State.holdWf (s : State) : Prop := s.holding = true → s.rng = [] ∧ s.seq ≠ .idle ∧ s.finished = none

/-- Every value waiting at RNG_IN, and every value drawn, is in [0, 1) (60_exceptions.md R210). -/
def State.rngWf (s : State) : Prop := ∀ v ∈ s.drawn ++ s.rng, rngGood v = true

/-- A well-formed state. -/
structure State.Inv (s : State) : Prop where
  units : s.unitsWf
  valid : s.lat.valid
  regs : s.regsWf
  busy : s.busyWf
  run : s.runWf
  shown : s.shownWf
  hold : s.holdWf
  rng : s.rngWf

/-- The host-visible registers: everything a bus read can return, SAMPLE_BUF apart (10_state.md R33). -/
def State.sameRegisters (s t : State) : Prop :=
  t.status = s.status ∧ t.numPaths = s.numPaths ∧ t.noiseCtrl = s.noiseCtrl ∧ t.snr = s.snr ∧ t.signalRms = s.signalRms ∧
    t.noiseRms = s.noiseRms ∧ t.blockCount = s.blockCount ∧ t.pathRegs = s.pathRegs

/-- The two ports: the host's accesses and answers, the values waiting, the turns and the reset count. -/
def State.samePorts (s t : State) : Prop :=
  t.bus = s.bus ∧ t.resp = s.resp ∧ t.turns = s.turns ∧ t.epoch = s.epoch

/-- The sequencer and the latched configuration. -/
def State.sameControl (s t : State) : Prop := t.seq = s.seq ∧ t.lat = s.lat

/-- Every byte of SAMPLE_BUF reads as before. -/
def State.sameMemory (s t : State) : Prop := ∀ a, readByte t.mem a = readByte s.mem a

/-- The next state is one of which P holds. -/
def NextWith (o : Outcome) (P : State → Prop) : Prop := ∃ t, o = .next t ∧ P t

end Sys2Proof.Machine
end

