-- ==== Sys2Proof/WellFormed.lean ====
section
/-! DEFINITION. Which instructions are well-formed: the operands lie in the domain the instruction's own rule states. -/

namespace Sys2Proof
open Sys2Proof.Machine

/-- The operands of an instruction are in the domain of its rule. A path index is one a path can have (10_state.md R29). -/
def Instr.wf : Instr → Bool
  | .nop => true
  | .init => true
  | .processBlock => true
  | .illegal w => w != 0#64 && w != 1#64 && w != 2#64
  | .firApply (.gauss p _) => decide (p < maxPaths)
  | .firApply (.noise _) => true
  | .hilbertInit => true
  | .hilbertFilterBlock x => isBlock x
  | .delayInit => true
  | .delayAdd d => delayInRange d
  | .delayBlock a => isBlock a
  | .gaussInit p fs bw => decide (p < maxPaths) && gaussDomain fs bw
  | .gaussApply p _ => decide (p < maxPaths)
  | .cnormal _ => true
  | .rayleighInit p spread _ => decide (p < maxPaths) && isFinite spread
  | .rayleighSample p => decide (p < maxPaths)
  | .upsInit p s rate => decide (p < maxPaths) && isStageRate s rate
  | .upsInsertAt p s m => decide (p < maxPaths) && decide (s < 4) && decide (m < mPeriod)
  | .upsInsert p s _ => decide (p < maxPaths) && decide (s < 4)
  | .upsUpsample p s => decide (p < maxPaths) && decide (s < 4)
  | .pathInit p => decide (p < maxPaths)
  | .ncoStep p => decide (p < maxPaths)
  | .pathCalc p x => decide (p < maxPaths) && isBlock x
  | .noiseInit _ => true
  | .noiseAdd buf _ _ => isBlock buf
  | .blockRmsUpdate x => isBlock x
  | .agcGains => true
  | .pathAccumulate y => !y.isEmpty && y.all isBlock
  | .chanInit => true
  | .chanProcess => true
  | .initValidate => true
  | .busRead _ _ => true
  | .busWrite _ _ _ => true
  | .issue _ => true
  | .complete => true

end Sys2Proof
end

