-- ==== Sys2Proof/Certificates/Slice0/Obligations.lean ====
section
/-! DEFINITION. The statements for the provers, about the machine alone. The helper definitions of Sys2Proof.Claims are the
rules' own formulas in index form; an equation `exec i s = .next { s with … }` says both the result and the frame. -/

namespace Sys2Proof.Claims
open Sys2Proof Sys2Proof.Machine

/-! ### The formulas of the rules -/

/-- The values every item has after hardware reset, where 10_state.md R50 gives one. -/
def resetValues (t : State) : Prop :=
  t.seq = .idle ∧ statusWord t.status = 0#64 ∧ t.numPaths = 0#64 ∧ t.noiseCtrl = 0#64 ∧ t.snr = fZero ∧ t.signalRms = fZero ∧
    t.noiseRms = fZero ∧ t.blockCount = 0#64 ∧ (∀ p, p < 32 → t.pathReg p = ⟨fZero, fZero, fZero⟩) ∧
    ∀ i, sampleValid t.mem i = false

/-- NOISE_CTRL.ENABLED (R24). -/
def noiseEnabled (s : State) : Bool := s.noiseCtrl.getLsbD 0

/-- Some register of path p is a NaN or an infinity (60_exceptions.md R204). -/
def nonfinitePath (s : State) (p : Nat) : Prop :=
  isFinite (s.pathReg p).delayMs = false ∨ isFinite (s.pathReg p).spreadHz = false ∨ isFinite (s.pathReg p).offsetHz = false

/-- The cause of CFG_NONFINITE (R204). -/
def nonfinite (s : State) : Prop :=
  (∃ p, p < s.numPaths.toNat ∧ nonfinitePath s p) ∨ (noiseEnabled s = true ∧ isFinite s.snr = false)

/-- The cause of CFG_DELAY_RANGE (R205). -/
def delayOut (s : State) : Prop :=
  ∃ p, p < s.numPaths.toNat ∧ (flt (s.pathReg p).delayMs fZero = true ∨ fgt (s.pathReg p).delayMs f50 = true)

/-- The cause of CFG_SNR_NEGATIVE (R206). -/
def snrNegative (s : State) : Prop := noiseEnabled s = true ∧ flt s.snr fZero = true

/-- The latched configuration is the registers' (46_channel_commands.md R181 (a)). -/
def latched (s : State) (l : Latched) : Prop :=
  l.P = s.numPaths.toNat ∧ (l.direct = true ↔ s.numPaths.toNat = 0) ∧ l.noiseOn = noiseEnabled s ∧ l.snr = s.snr ∧ l.bl = true ∧
    l.delayMs.length = l.P ∧ l.spreadRaw.length = l.P ∧ l.offsetHz.length = l.P ∧
    ∀ p, p < l.P → l.delayMs[p]? = some (s.pathReg p).delayMs ∧ l.spreadRaw[p]? = some (s.pathReg p).spreadHz ∧
      l.offsetHz[p]? = some (s.pathReg p).offsetHz

/-- One over the square root of P (44_upsampler_path.md R150). -/
def equalPower (P : Nat) : F64 := fdiv fOne (fsqrt (fofNat P))

/-- The four stages after UPS_INIT (R140, R150). -/
def freshStages : List Ups :=
  [⟨625, List.replicate 10 czero, 49⟩, ⟨125, List.replicate 10 czero, 49⟩, ⟨25, List.replicate 10 czero, 49⟩,
    ⟨5, List.replicate 10 czero, 49⟩]

/-- A path after PATH_INIT without spread (R150, 43_gauss_rayleigh.md R125). -/
def freshPath (P : Nat) (offset : F64) (q : Path) : Path :=
  { q with
    nospread := true, g := equalPower P, ups := freshStages, theta := fZero, mIndex := 0
    dtheta := fdiv (fmul (fmul fTwo fPi) offset) f8000 }

/-- The dot product of FIR_APPLY over N cplx samples (41_fir_hilbert.md R101 (b)), by index. -/
def dotC (n wp : Nat) (c2 : List F64) (hist : List Cplx) : Cplx :=
  (List.range n).foldl (fun acc k => cadd acc (cscale (hist.getD k czero) (c2.getD (n - wp + k) fZero))) czero

/-- The dot product of FIR_APPLY over N f64 samples. -/
def dotR (n wp : Nat) (c2 hist : List F64) : F64 :=
  (List.range n).foldl (fun acc k => fadd acc (fmul (hist.getD k fZero) (c2.getD (n - wp + k) fZero))) fZero

/-- hil before sample i of HILBERT_FILTER_BLOCK (R103). -/
def hilAt (h : Hilbert) (x : List F64) : Nat → Hilbert
  | 0 => h
  | i + 1 =>
    ⟨(hilAt h x i).hist.set (hilAt h x i).wp ⟨x.getD i fZero, x.getD i fZero⟩,
      if (hilAt h x i).wp = 0 then 58 else (hilAt h x i).wp - 1⟩

/-- A[i] of HILBERT_FILTER_BLOCK (R103): the history is the one with sample i written. -/
def hilOut (h : Hilbert) (x : List F64) (i : Nat) : Cplx :=
  ⟨dotR 59 (hilAt h x i).wp hre2 ((hilAt h x (i + 1)).hist.map Cplx.re),
    dotR 59 (hilAt h x i).wp him2 ((hilAt h x (i + 1)).hist.map Cplx.im)⟩

/-- A coefficient as a sum that starts from +0.0 shows it (95_test_vectors.md V-H1). -/
def shown (c : F64) : F64 := if c = 0x8000000000000000#64 then fZero else c

/-- Tap r trails the write pointer by D samples (42_delay_line.md R113). -/
def trails (dl : Delay) (r D : Nat) : Prop := (dl.w + delayLen - r) % delayLen = D

/-- u of CNORMAL (43_gauss_rayleigh.md R124). -/
def centred (U : F64) : F64 := fsub (fmul fTwo U) fOne

/-- r2 of a pair (R124). -/
def radius2 (p : F64 × F64) : F64 :=
  fadd (fmul (centred p.1) (centred p.1)) (fmul (centred p.2) (centred p.2))

/-- Both values of a pair may stand on RNG_IN. -/
def goodPair (p : F64 × F64) : Bool := rngGood p.1 && rngGood p.2

/-- CNORMAL rejects the pair (R124). -/
def rejected (p : F64 × F64) : Bool := goodPair p && (fge (radius2 p) fOne || feq (radius2 p) fZero)

/-- CNORMAL accepts the pair (R124). -/
def accepted (p : F64 × F64) : Bool := goodPair p && !fge (radius2 p) fOne && !feq (radius2 p) fZero

/-- The value of an accepted pair (R124). -/
def normal (g : F64) (p : F64 × F64) : Cplx :=
  ⟨fmul (centred p.1) (fmul g (fsqrt (fdiv (fmul fNegTwo (fln (radius2 p))) (radius2 p)))),
    fmul (centred p.2) (fmul g (fsqrt (fdiv (fmul fNegTwo (fln (radius2 p))) (radius2 p))))⟩

/-- Pairs as a stream. -/
def flat (ps : List (F64 × F64)) : List F64 := ps.flatMap fun p => [p.1, p.2]

/-- A stream of accepted and rejected pairs that ends with an accepted one; `us` are its accepted pairs, in order (R124). -/
def accepts (ps us : List (F64 × F64)) : Prop :=
  (∀ p, p ∈ ps → accepted p = true ∨ rejected p = true) ∧ ps.filter accepted = us ∧ ∀ p, ps.getLast? = some p → accepted p = true

/-- The Gaussian filter after one more sample (R101, R123). -/
def gaussNext (f : Gauss) (z : Cplx) : Gauss :=
  { f with hist := f.hist.set f.wp z, wp := if f.wp = 0 then f.len - 1 else f.wp - 1 }

/-- The phase after one NCO_STEP (44_upsampler_path.md R151). -/
def nextPhase (theta dtheta : F64) : F64 :=
  let t := ffmod (fadd theta dtheta) fTwoPi
  let t := if flt t fZero then fadd t fTwoPi else t
  if fge t fTwoPi then fZero else t

/-- θ_n: the phase used at sample n (95_test_vectors.md V-D1). -/
def phaseAt (theta dtheta : F64) : Nat → F64
  | 0 => theta
  | n + 1 => nextPhase (phaseAt theta dtheta n) dtheta

/-- The components of the noise stream in the order NOISE_ADD feeds them (45_noise.md R162). -/
def component (sigma : F64) (us : List (F64 × F64)) (n : Nat) : F64 :=
  if n % 2 = 0 then (normal sigma (us.getD (n / 2) (fZero, fZero))).re
  else (normal sigma (us.getD (n / 2) (fZero, fZero))).im

/-- nz before the n-th component v n is shaped (R161). -/
def noiseAt (nz : Noise) (v : Nat → F64) : Nat → Noise
  | 0 => nz
  | n + 1 =>
    { noiseAt nz v n with
      hist := (noiseAt nz v n).hist.set (noiseAt nz v n).wp (v n)
      wp := if (noiseAt nz v n).wp = 0 then 58 else (noiseAt nz v n).wp - 1 }

/-- The n-th shaped component (R161). -/
def noiseOut (nz : Noise) (v : Nat → F64) (n : Nat) : F64 :=
  dotR 59 (noiseAt nz v n).wp hre2 (noiseAt nz v (n + 1)).hist

/-- r are the magnitude bits of a binary64 nearest to num/den units of 2^−1074, the even one where two are (00_scope.md R9). -/
def nearest (r : Nat) (num den : Int) : Prop :=
  ∀ m, m < infMag →
    |(unitsOfMag r : Int) * den - num| ≤ |(unitsOfMag m : Int) * den - num| ∧
    (|(unitsOfMag r : Int) * den - num| = |(unitsOfMag m : Int) * den - num| → m ≠ r → r % 2 = 0)

/-- r is the rounded sum of which z is the exact value; `neg` is the sign of an exact zero (R9; log 20). -/
def nearestSum (r : F64) (z : Int) (neg : Bool) : Prop :=
  (z < 0 → fsign r = true) ∧ (0 < z → fsign r = false) ∧ (z = 0 → fsign r = neg ∧ fmag r = 0) ∧
    (isFinite r = true → nearest (fmag r) |z| 1)

/-- An offset in none of the mapped rows of 20_memory.md R62, as the table lists the reserved ones. -/
def reservedOffset (off : Offset) : Prop :=
  (0x40 ≤ off.toNat ∧ off.toNat < 0x100) ∨
  (0x100 ≤ off.toNat ∧ off.toNat < 0x100 + 0x20 * maxPaths ∧ 0x18 ≤ off.toNat % 0x20) ∨
  (0x100 + 0x20 * maxPaths ≤ off.toNat ∧ off.toNat < 0x10000) ∨ 0x14000 ≤ off.toNat

/-- An offset as a bus offset. -/
def at17 (o : Nat) : Offset := BitVec.ofNat 17 o

/-- The operations of the DSP, the validation and the two works: every INTERNAL row but the bus accesses, ISSUE and COMPLETE
(30_encoding.md R86). -/
def isDspOperation : Instr → Bool
  | .nop => false
  | .init => false
  | .processBlock => false
  | .illegal _ => false
  | .busRead _ _ => false
  | .busWrite _ _ _ => false
  | .issue _ => false
  | .complete => false
  | .firApply _ => true
  | .hilbertInit => true
  | .hilbertFilterBlock _ => true
  | .delayInit => true
  | .delayAdd _ => true
  | .delayBlock _ => true
  | .gaussInit _ _ _ => true
  | .gaussApply _ _ => true
  | .cnormal _ => true
  | .rayleighInit _ _ _ => true
  | .rayleighSample _ => true
  | .upsInit _ _ _ => true
  | .upsInsertAt _ _ _ => true
  | .upsInsert _ _ _ => true
  | .upsUpsample _ _ => true
  | .pathInit _ => true
  | .ncoStep _ => true
  | .pathCalc _ _ => true
  | .noiseInit _ => true
  | .noiseAdd _ _ _ => true
  | .blockRmsUpdate _ => true
  | .agcGains => true
  | .pathAccumulate _ => true
  | .chanInit => true
  | .chanProcess => true
  | .initValidate => true

/-- The operations on path p whose other operands are in the domain of their rule. -/
def onPathNumber (p : Nat) (i : Instr) : Prop :=
  (∃ z, i = .firApply (.gauss p z)) ∨ (∃ z, i = .gaussApply p z) ∨ i = .rayleighSample p ∨ i = .pathInit p ∨ i = .ncoStep p ∨
    (∃ fs bw, i = .gaussInit p fs bw ∧ gaussDomain fs bw = true) ∨
    (∃ spread gc, i = .rayleighInit p spread gc ∧ isFinite spread = true) ∨
    (∃ t rate, i = .upsInit p t rate ∧ stageRates[t]? = some rate) ∨ (∃ t m, i = .upsInsertAt p t m) ∨
    (∃ t v, i = .upsInsert p t v) ∨ (∃ t, i = .upsUpsample p t) ∨ ∃ x, i = .pathCalc p x ∧ x.length = 2048

/-- The state with other configuration registers. -/
def withConfig (s : State) (np nc : Word) (snr : F64) (regs : List PathRegs) : State :=
  { s with numPaths := np, noiseCtrl := nc, snr := snr, pathRegs := regs }

/-- An outcome with its next state changed. -/
def mapNext (f : State → State) : Outcome → Outcome
  | .next t => .next (f t)
  | .fault e => .fault e
  | .refused r => .refused r

/-! ### The works as the operations they are made of -/

/-- The next state of an operation, if it has one and does not wait at RngDraw. -/
def done (o : Outcome) : Option State :=
  match o with
  | .next t => if t.holding then none else some t
  | .fault _ => none
  | .refused _ => none

/-- The block an operation returned. -/
def blockOf : Value → Option (List Cplx)
  | .block a => some a
  | _ => none

/-- The blocks an operation returned. -/
def blocksOf : Value → Option (List (List Cplx))
  | .blocks t => some t
  | _ => none

/-- The samples an operation returned. -/
def samplesOf : Value → Option (List F64)
  | .samples y => some y
  | _ => none

/-- The gains AGC_GAINS returned. -/
def gainsOf : Value → Option (F64 × F64)
  | .gains sg nr => some (sg, nr)
  | _ => none

/-- PATH_CALC of path p on, each on its input, in path order (46_channel_commands.md R182). -/
def pathsInOrder : List (List Cplx) → Nat → State → Option (List (List Cplx) × State)
  | [], _, s => some ([], s)
  | x :: xs, p, s =>
    (done (exec (.pathCalc p x) s)).bind fun t =>
      (blockOf t.result).bind fun y =>
        (pathsInOrder xs (p + 1) t).map fun o => (y :: o.1, o.2)

/-- Step 2 of PROCESS_BLOCK, operation by operation (R170, R182). -/
def bankInOrder (x : List F64) (s : State) : Option (List F64 × State) :=
  if s.lat.direct then some (x, s)
  else
    (done (exec (.hilbertFilterBlock x) s)).bind fun s2 =>
      (blockOf s2.result).bind fun a =>
        (done (exec (.delayBlock a) s2)).bind fun s3 =>
          (blocksOf s3.result).bind fun t =>
            (pathsInOrder ((a :: t).take s.lat.P) 0 s3).bind fun o =>
              (done (exec (.pathAccumulate o.1) o.2)).bind fun s5 =>
                (samplesOf s5.result).map fun y => (y, s5)

/-- Step 3, operation by operation (R174, R177). -/
def noiseInOrder (y : List F64) (s : State) : Option (List F64 × F64 × State) :=
  (done (exec .agcGains s)).bind fun s6 =>
    (gainsOf s6.result).bind fun g =>
      if s.lat.noiseOn then
        (done (exec (.noiseAdd y g.1 g.2) s6)).bind fun s7 =>
          (samplesOf s7.result).map fun y' => (y', g.2, s7)
      else some (y, fZero, s6)

/-- CHAN_PROCESS, operation by operation, in the order of R170 and R182. -/
def processInOrder (s : State) : Option State :=
  (done (exec (.blockRmsUpdate (readBlock s)) s)).bind fun s1 =>
    (bankInOrder (readBlock s) s1).bind fun b =>
      (noiseInOrder b.1 b.2).map fun n =>
        { n.2.2 with result := s.result, finished := some (.block n.1 n.2.1) }

/-- The bool an operation returned. -/
def boolOf : Value → Option Bool
  | .bool b => some b
  | _ => none

/-- The cplx an operation returned. -/
def cplxOf : Value → Option Cplx
  | .cplx z => some z
  | _ => none

/-- Stage t of path p at one sample, operation by operation (44_upsampler_path.md R152): at an insert, the outermost stage s0 takes
its value from the generator and another from UPS_UPSAMPLE of the stage below. -/
def stageInOrder (p s0 m t : Nat) (s : State) : Option State :=
  (done (exec (.upsInsertAt p t m) s)).bind fun a =>
    (boolOf a.result).bind fun insert =>
      if insert then
        (done (exec (if t = s0 then .rayleighSample p else .upsUpsample p (t - 1)) a)).bind fun b =>
          (cplxOf b.result).bind fun v => done (exec (.upsInsert p t v) b)
      else some a

/-- Stages t, t + 1, … up to n of them, the slowest first (R152). -/
def stagesInOrder (p s0 m : Nat) : (n t : Nat) → State → Option State
  | 0, _, s => some s
  | n + 1, t, s => (stageInOrder p s0 m t s).bind (stagesInOrder p s0 m n (t + 1))

/-- The fading factor of one sample (R152): the constant gain without spread, else a fresh value of stage 3 after stages s0..3. -/
def fadingInOrder (p : Nat) (q : Path) (s : State) : Option (Cplx × State) :=
  if q.nospread then some (⟨q.g, fZero⟩, s)
  else
    (stagesInOrder p q.s0 q.mIndex (4 - q.s0) q.s0 s).bind fun a =>
      (done (exec (.upsUpsample p 3) a)).bind fun b => (cplxOf b.result).map fun f => (f, b)

/-- One sample of PATH_CALC (R152): fading × input, then × the NCO's factor, then m_index. -/
def sampleInOrder (p : Nat) (x : Cplx) (s : State) : Option (Cplx × State) :=
  (s.paths[p]?).bind fun q =>
    (fadingInOrder p q s).bind fun f =>
      (done (exec (.ncoStep p) f.2)).bind fun a =>
        (cplxOf a.result).bind fun e =>
          (a.paths[p]?).map fun r =>
            (cmul (cmul f.1 x) e,
              { a with paths := a.paths.set p { r with mIndex := if r.mIndex + 1 = 1280000 then 0 else r.mIndex + 1 } })

/-- PATH_CALC, sample by sample. -/
def samplesInOrder (p : Nat) : List Cplx → State → Option (List Cplx × State)
  | [], s => some ([], s)
  | x :: xs, s =>
    (sampleInOrder p x s).bind fun o => (samplesInOrder p xs o.2).map fun r => (o.1 :: r.1, r.2)

/-- i is the unfinished work of the running command (10_state.md R35). -/
def isWork (s : State) (i : Instr) : Prop :=
  s.finished = none ∧ ((s.seq = .run .init ∧ i = .chanInit) ∨ (s.seq = .run .processBlock ∧ i = .chanProcess))

/-- A list of operations, one after the other. -/
def runInOrder : List Instr → State → Option State
  | [], s => some s
  | i :: is, s => (done (exec i s)).bind (runInOrder is)

/-- The operations of CHAN_INIT part (b), in the order of R181. -/
def initOperations (l : Latched) : List Instr :=
  (if l.P = 0 then []
    else [.hilbertInit, .delayInit] ++ (l.delayMs.drop 1).map .delayAdd ++ (List.range l.P).map .pathInit) ++ [.noiseInit true]

end Sys2Proof.Claims

open Sys2Proof Sys2Proof.Machine Sys2Proof.Claims

/-! ### Encoding -/

/-- Tier 3. Decode and encode agree, in both directions (30_encoding.md R83, R86; 20_memory.md R65). -/
def Obligations.DecodeAndEncodeAgree : Prop :=
  (∀ (i : Instr) (bs : List Byte), i.wf = true → encodeBytes i = some bs → bs.length = 8 ∧ decodeBytes bs = .ok i) ∧
  (∀ w : Word, (decode w).wf = true ∧ encode (decode w) = some w)

/-- Tier 1. The opcode map (R82). -/
def Obligations.OpcodeMap : Prop :=
  ∀ w : Word, decode w =
    if w = 0x0000000000000000#64 then .nop
    else if w = 0x0000000000000001#64 then .init
    else if w = 0x0000000000000002#64 then .processBlock
    else .illegal w

/-- Tier 1. Command words written out from the opcode map, byte by byte (R82, R65): NOP, INIT, PROCESS_BLOCK, an opcode past
the map, a reserved bit. -/
def Obligations.SampleWordsDecode : Prop :=
  decodeBytes [0x00#8, 0x00#8, 0x00#8, 0x00#8, 0x00#8, 0x00#8, 0x00#8, 0x00#8] = .ok .nop ∧
  decodeBytes [0x01#8, 0x00#8, 0x00#8, 0x00#8, 0x00#8, 0x00#8, 0x00#8, 0x00#8] = .ok .init ∧
  decodeBytes [0x02#8, 0x00#8, 0x00#8, 0x00#8, 0x00#8, 0x00#8, 0x00#8, 0x00#8] = .ok .processBlock ∧
  decodeBytes [0x03#8, 0x00#8, 0x00#8, 0x00#8, 0x00#8, 0x00#8, 0x00#8, 0x00#8] = .ok (.illegal 0x3#64) ∧
  decodeBytes [0x00#8, 0x01#8, 0x00#8, 0x00#8, 0x00#8, 0x00#8, 0x00#8, 0x00#8] = .ok (.illegal 0x100#64) ∧
  decodeBytes [0x01#8, 0xFF#8, 0xFF#8, 0xFF#8, 0xFF#8, 0xFF#8, 0xFF#8, 0xFF#8] = .ok (.illegal 0xFFFFFFFFFFFFFF01#64)

/-! ### One step -/

/-- Tier 1. On the host's turn, bytes written to CMD that decode to i run i, after the access is taken off the host's program
and answered (46_channel_commands.md R191, R192; 20_memory.md R68). -/
def Obligations.StepRunsTheDecodedCommand : Prop :=
  ∀ (s : State) (bs : List Byte) (i : Instr) (rest : List BusAccess) (ts : List Turn),
    decodeBytes bs = .ok i → s.turns = .host :: ts → s.bus = .write 0x00000#17 8 (wordOfBytes bs) :: rest →
      i.wf = true ∧ step s = exec i ({ s with turns := ts, bus := rest }.respond (.write false))

/-- Tier 1. On the host's turn the first access of its program is made; WAIT_IDLE's read of STATUS stays first while BUSY is 1
(20_memory.md R68; 30_encoding.md R93). That with no access left only the turn is taken is the model's choice (log 21). -/
def Obligations.StepServesTheHost : Prop :=
  ∀ (s : State) (ts : List Turn) (rest : List BusAccess), s.turns = .host :: ts →
    (s.bus = [] → step s = .next { s with turns := ts }) ∧
    (∀ off w, s.bus = .read off w :: rest → step s = exec (.busRead off w) { s with turns := ts, bus := rest }) ∧
    (∀ off w v, s.bus = .write off w v :: rest → step s = exec (.busWrite off w v) { s with turns := ts, bus := rest }) ∧
    (s.bus = .poll :: rest →
      step s = exec (.busRead 0x00008#17 8) { s with turns := ts, bus := if s.status.busy then .poll :: rest else rest })

/-- Tier 1. On the sequencer's turn the work of the running command runs, then its completion; nothing while IDLE
(10_state.md R35; 46_channel_commands.md R196; 60_exceptions.md R221). -/
def Obligations.StepRunsTheSequencer : Prop :=
  ∀ (s : State) (ts : List Turn), s.turns = .sequencer :: ts →
    (s.seq = .idle → step s = .next { s with turns := ts }) ∧
    (s.seq = .run .init → s.finished = none → step s = exec .chanInit { s with turns := ts }) ∧
    (s.seq = .run .processBlock → s.finished = none → step s = exec .chanProcess { s with turns := ts }) ∧
    (∀ c f, s.seq = .run c → s.finished = some f → step s = exec .complete { s with turns := ts })

/-- Tier 1. The model's choice (log 6): with no turn given, the sequencer moves if it runs and does not wait at RngDraw, else
the host. -/
def Obligations.StepWithoutATurn : Prop :=
  ∀ s : State, s.turns = [] →
    (s.seq ≠ .idle → s.holding = false → step s = step { s with turns := [.sequencer] }) ∧
    (s.seq = .idle ∨ s.holding = true → step s = step { s with turns := [.host] })

/-- Tier 1. A value supplied to RNG_IN waits behind the others and ends a hold; a value outside [0.0, 1.0) stops the model with
BAD_RNG (10_state.md R36; 60_exceptions.md R210). On a draw turn (log 6) a work that needs a value takes exactly the first one
waiting, or holds if none waits, and a draw made ahead leaves the work what it does (10_state.md R35, R45). -/
def Obligations.StepSuppliesTheStream : Prop :=
  (∀ (s : State) (v : F64) (ts : List Turn), s.turns = .supply v :: ts →
    (isFinite v = true → fle fZero v = true → flt v fOne = true →
      step s = .next { s with turns := ts, rng := s.rng ++ [v], holding := false }) ∧
    (isFinite v = false ∨ fle fZero v = false ∨ flt v fOne = false → step s = .fault .badRng)) ∧
  ∀ (s : State) (i : Instr) (ts : List Turn), s.turns = .draw :: ts → isWork s i →
    (NextWith (exec i { s with rng := [] }) fun t => t.holding = true) →
      (s.rng = [] → step s = .next { s with turns := ts, holding := true }) ∧
      ∀ v rest, s.rng = v :: rest → rngGood v = true →
        step s = .next { s with turns := ts, drawn := s.drawn ++ [v], holding := false, rng := rest } ∧
        exec i { s with drawn := s.drawn ++ [v], holding := false, rng := rest } = exec i s

/-- Tier 1. What hardware reset leaves, from power-on and from any state: the values of R50, the RNG_IN stream not rewound, a held
access still to be made (10_state.md R50, R45; 70_reset_and_hazards.md R230, R231). -/
def Obligations.ResetValues : Prop :=
  resetValues State.reset ∧
  ∀ (s : State) (ts : List Turn), s.turns = .reset :: ts →
    NextWith (step s) fun t => resetValues t ∧ t.rng = s.rng ∧ t.bus = s.bus ∧ t.resp = s.resp ∧ t.turns = ts

/-! ### Invariants and whole-machine rules -/

/-- Tier 1. The reset state is well-formed (with the values log 4 names). -/
def Obligations.ResetIsWellFormed : Prop := State.reset.Inv

/-- Tier 3. Every step keeps a state well-formed: the bounds of every pointer and length, BUSY = 1 exactly when a command runs,
SAMPLE_BUF in canonical form, STATUS showing the latched configuration, latched values that validation passes, a hold only where
a command runs and no value waits, RNG_IN values in [0, 1) (10_state.md R24, R35–R42; 20_memory.md R62; 43_gauss_rayleigh.md R120;
46_channel_commands.md R180; 60_exceptions.md R210). -/
def Obligations.StepKeepsWellFormed : Prop := ∀ s t : State, s.Inv → step s = .next t → t.Inv

/-- Tier 2. Only the completion of an INIT sets CONFIGURED (70_reset_and_hazards.md R232). -/
def Obligations.OnlyInitConfigures : Prop :=
  ∀ s t : State, step s = .next t → s.status.configured = false → t.status.configured = true →
    s.seq = .run .init ∧ s.finished = some .init ∧ t.seq = .idle

/-- Tier 2. A running command ends only by its completion, once its work has finished, or by hardware reset (10_state.md R36;
70_reset_and_hazards.md R231). -/
def Obligations.OnlyCompletionEndsACommand : Prop :=
  ∀ (s t : State) (c : Command), step s = .next t → s.seq = .run c →
    t.seq = .run c ∨ (t.seq = .idle ∧ s.finished ≠ none) ∨ ∃ ts, s.turns = .reset :: ts

/-- Tier 2. No DSP operation, and neither work, writes a host-visible register, SAMPLE_BUF, the sequencer, the latched
configuration or the host's port (10_state.md R46, R37; 20_memory.md R69). -/
def Obligations.DspOperationsLeaveTheHostSide : Prop :=
  ∀ (i : Instr) (s t : State), isDspOperation i = true → exec i s = .next t →
    s.sameRegisters t ∧ t.mem = s.mem ∧ s.sameControl t ∧ s.samePorts t

/-- Tier 2. The configuration registers take no part in processing: PROCESS_BLOCK, both works and the completion do the same
whatever those registers hold, and leave them (10_state.md R37; 20_memory.md R72; 70_reset_and_hazards.md R244). -/
def Obligations.ConfigurationNotSeenAfterInit : Prop :=
  ∀ (s : State) (np nc : Word) (snr : F64) (regs : List PathRegs) (i : Instr),
    i = .processBlock ∨ i = .chanInit ∨ i = .chanProcess ∨ i = .complete →
      exec i (withConfig s np nc snr regs) = mapNext (fun t => withConfig t np nc snr regs) (exec i s)

/-! ### Commands -/

/-- Tier 1. NOP (R193): taken, it clears ERR_CODE and CMD_DROPPED and nothing else changes; written while a command runs it is
dropped. -/
def Obligations.NopCommand : Prop :=
  ∀ s : State,
    (s.seq = .idle →
      exec .nop s = .next { s with status := { s.status with errCode := .ok, cmdDropped := false } } ∧
      exec (.issue 0x0#64) s = .next { s with status := { s.status with errCode := .ok, cmdDropped := false } }) ∧
    (s.seq ≠ .idle →
      exec .nop s = .next { s with status := { s.status with cmdDropped := true } } ∧
      exec (.issue 0x0#64) s = .next { s with status := { s.status with cmdDropped := true } })

/-- Tier 1. A command written while BUSY = 1 sets CMD_DROPPED and does nothing else; a taken one clears it (R209). -/
def Obligations.DroppedWhileBusy : Prop :=
  ∀ (s : State) (w : Word) (i : Instr), s.busyWf →
    i = .nop ∨ i = .init ∨ i = .processBlock ∨ i = .illegal w ∨ i = .issue w →
      (s.status.busy = true → exec i s = .next { s with status := { s.status with cmdDropped := true } }) ∧
      (s.status.busy = false → ∀ t, exec i s = .next t → t.status.cmdDropped = false)

/-- Tier 1. A reserved word taken is rejected with ERR_CODE 0x01 and changes nothing else (R201). -/
def Obligations.IllegalRejected : Prop :=
  ∀ (s : State) (w : Word), s.seq = .idle → (rsvOf w ≠ 0#56 ∨ 3 ≤ (opcOf w).toNat) →
    exec (.illegal w) s = .next { s with status := { s.status with errCode := .illegalCmd, cmdDropped := false } } ∧
    exec (.issue w) s = .next { s with status := { s.status with errCode := .illegalCmd, cmdDropped := false } }

/-- Tier 1. PROCESS_BLOCK taken while not configured is rejected with ERR_CODE 0x02 and changes nothing else (R202). -/
def Obligations.ProcessBlockNotConfigured : Prop :=
  ∀ s : State, s.seq = .idle → s.status.configured = false →
    exec .processBlock s = .next { s with status := { s.status with errCode := .notConfigured, cmdDropped := false } } ∧
    exec (.issue 0x2#64) s = .next { s with status := { s.status with errCode := .notConfigured, cmdDropped := false } }

/-- Tier 2. PROCESS_BLOCK taken while configured starts if every sample has been written since reset, and else is the model
fault UNWRITTEN_SAMPLE (46_channel_commands.md R195; 10_state.md R40). -/
def Obligations.ProcessBlockStarts : Prop :=
  ∀ s : State, s.seq = .idle → s.status.configured = true →
    ((∀ i, i < 2048 → sampleValid s.mem i = true) →
      exec .processBlock s = .next { s with
        status := { s.status with errCode := .ok, busy := true, cmdDropped := false }
        seq := .run .processBlock, drawn := [], holding := false, finished := none } ∧
      exec (.issue 0x2#64) s = exec .processBlock s) ∧
    ((∃ i, i < 2048 ∧ sampleValid s.mem i = false) → exec .processBlock s = .fault .unwrittenSample)

/-- Tier 2. INIT_VALIDATE returns the code of the first check that fails, in the order 0x03, 0x04, 0x05, 0x06 (R180). -/
def Obligations.InitValidateCodes : Prop :=
  ∀ s : State, s.pathRegs.length = 32 →
    (maxPaths < s.numPaths.toNat → exec .initValidate s = .next { s with result := .code .cfgPathCount }) ∧
    (s.numPaths.toNat ≤ maxPaths → nonfinite s → exec .initValidate s = .next { s with result := .code .cfgNonfinite }) ∧
    (s.numPaths.toNat ≤ maxPaths → ¬ nonfinite s → delayOut s →
      exec .initValidate s = .next { s with result := .code .cfgDelayRange }) ∧
    (s.numPaths.toNat ≤ maxPaths → ¬ nonfinite s → ¬ delayOut s → snrNegative s →
      exec .initValidate s = .next { s with result := .code .cfgSnrNegative }) ∧
    (s.numPaths.toNat ≤ maxPaths → ¬ nonfinite s → ¬ delayOut s → ¬ snrNegative s →
      exec .initValidate s = .next { s with result := .code .ok })

/-- Tier 1. An INIT whose validation fails writes the code, clears CONFIGURED and changes nothing else (R194, R203–R206,
R214). -/
def Obligations.InitRejected : Prop :=
  ∀ s : State, s.seq = .idle → initValidate s ≠ .ok →
    exec .init s = .next { s with
      status := { s.status with errCode := initValidate s, configured := false, cmdDropped := false } } ∧
    exec (.issue 0x1#64) s = exec .init s

/-- Tier 2. An INIT whose validation passes latches the registers and starts (R194, R181 (a)). -/
def Obligations.InitStarts : Prop :=
  ∀ s : State, s.seq = .idle → s.pathRegs.length = 32 → initValidate s = .ok →
    (NextWith (exec .init s) fun t => latched s t.lat ∧
      t = { s with
        status := { s.status with errCode := .ok, busy := true, cmdDropped := false }
        seq := .run .init, lat := t.lat, drawn := [], holding := false, finished := none }) ∧
    exec (.issue 0x1#64) s = exec .init s

/-- Tier 2. The completion of INIT and of PROCESS_BLOCK (R196): every word of SAMPLE_BUF reads back the output sample and every
byte outside it reads as before. -/
def Obligations.Completion : Prop :=
  ∀ s : State,
    (s.seq = .run .init → s.finished = some .init →
      exec .complete s = .next { s with
        status := { s.status with
          busy := false, configured := true, directMode := s.lat.direct, noiseOn := s.lat.noiseOn
          activePaths := BitVec.ofNat 8 s.lat.P }
        signalRms := signalRmsReset, noiseRms := fZero, blockCount := 0#64, seq := .idle, finished := none }) ∧
    (∀ y nrd, s.seq = .run .processBlock → s.finished = some (.block y nrd) → y.length = 2048 →
      NextWith (exec .complete s) fun t =>
        t = { s with
          status := { s.status with busy := false }
          mem := t.mem, signalRms := s.sigAvg, noiseRms := nrd, blockCount := s.blockCount + 1#64
          seq := .idle, finished := none } ∧
        (∀ i, i < 2048 → readWord t.mem (0x10000 + 8 * i) = y[i]? ∧ sampleValid t.mem i = true) ∧
        ∀ a, a < 0x10000 ∨ 0x14000 ≤ a → readByte t.mem a = readByte s.mem a)

/-! ### The channel processor -/

/-- Tier 1. The works in direct mode without noise draw nothing and touch no filter, delay line or path (R171, R177, R181,
R182). -/
def Obligations.DirectModeWorks : Prop :=
  (∀ s : State, s.lat.P = 0 →
    exec .chanInit s = .next { s with
      nz := ⟨List.replicate 59 fZero, 58, true⟩, sigAvg := signalRmsReset, finished := some .init
      drawn := [], holding := false, rng := s.drawn ++ s.rng }) ∧
  (∀ s : State, s.lat.direct = true → s.lat.noiseOn = false →
    exec .chanProcess s = .next { s with
      sigAvg := rmsUpdate (readBlock s) s.sigAvg, finished := some (.block (readBlock s) fZero)
      drawn := [], holding := false, rng := s.drawn ++ s.rng })

/-- Tier 2. Direct-path identity, from the write of CMD to the completion: every byte of SAMPLE_BUF reads as before (R183). -/
def Obligations.DirectPathIdentity : Prop :=
  ∀ (s : State) (rest : List BusAccess) (ts : List Turn), s.seq = .idle → s.status.busy = false → s.status.configured = true →
    s.lat.direct = true → s.lat.noiseOn = false → (∀ i, i < 2048 → sampleValid s.mem i = true) →
    s.bus = .write 0x00000#17 8 0x2#64 :: rest → s.turns = .host :: .sequencer :: .sequencer :: ts →
      NextWith (step s) fun a => a.status.busy = true ∧ NextWith (step a) fun b => b.status.busy = true ∧
        NextWith (step b) fun t =>
          (∀ x, readByte t.mem x = readByte s.mem x) ∧
          t = { s with
            status := { s.status with errCode := .ok, cmdDropped := false }
            mem := t.mem
            sigAvg := rmsUpdate (readBlock s) s.sigAvg, signalRms := rmsUpdate (readBlock s) s.sigAvg, noiseRms := fZero
            blockCount := s.blockCount + 1#64, drawn := [], holding := false, finished := none
            bus := rest, resp := s.resp ++ [.write false], turns := ts }

/-- Tier 2. CHAN_INIT when no path has spread: the filter, the delay line with one tap per path beyond the first, every path, the
noise generator, and no RNG value drawn (R181; 42_delay_line.md R110, R111; 44_upsampler_path.md R150). -/
def Obligations.ChanInitWithoutSpread : Prop :=
  ∀ s : State, 1 ≤ s.lat.P → s.lat.P ≤ 32 → s.lat.delayMs.length = s.lat.P → s.paths.length = 32 →
    (∀ p, p < s.lat.P → flt (s.lat.spreadRaw.getD p fZero) f0p1 = true) →
      NextWith (exec .chanInit s) fun t =>
        t = { s with
          hil := ⟨List.replicate 59 czero, 58⟩, dl := ⟨List.replicate 2448 czero, 2447, t.dl.r⟩, paths := t.paths
          nz := ⟨List.replicate 59 fZero, 58, true⟩, sigAvg := signalRmsReset, finished := some .init
          drawn := [], holding := false, rng := s.drawn ++ s.rng } ∧
        t.dl.r.length + 1 = s.lat.P ∧
        (∀ p, p + 1 < s.lat.P →
          t.dl.r[p]? = some ((2447 - ftrunc (fmul fEight (s.lat.delayMs.getD (p + 1) fZero))) % 2448).toNat) ∧
        ∀ p q, s.paths[p]? = some q →
          t.paths[p]? = some (if p < s.lat.P then freshPath s.lat.P (s.lat.offsetHz.getD p fZero) q else q)

/-- Tier 2. CHAN_INIT with a spread-mode path holds at RngDraw while fewer than 500 values have been supplied
(70_reset_and_hazards.md R243; 10_state.md R36; the form in which the state waits is log 7's). -/
def Obligations.ChanInitHolds : Prop :=
  ∀ s : State, s.lat.wf → s.paths.length = 32 → s.rngWf → (s.drawn ++ s.rng).length < 500 →
    (∃ p, p < s.lat.P ∧ fle f0p1 (s.lat.spreadRaw.getD p fZero) = true) →
      exec .chanInit s = .next { s with drawn := s.drawn ++ s.rng, holding := true, rng := [] }

/-- Tier 2. CHAN_INIT finishes exactly when its operations, run one after the other in the order of R181, do, and leaves what they
leave (70_reset_and_hazards.md R232). -/
def Obligations.ChanInitIsItsOperations : Prop :=
  ∀ s t : State, s.lat.wf → s.paths.length = 32 → (∀ d, d ∈ s.lat.delayMs → delayInRange d = true) →
    s.drawn = [] → s.holding = false → s.finished = none →
      ((exec .chanInit s = .next t ∧ t.finished ≠ none) ↔
        ∃ u, runInOrder (initOperations s.lat) s = some u ∧
          t = { u with sigAvg := signalRmsReset, finished := some .init })

/-- Tier 2. CHAN_PROCESS finishes exactly when its operations, run one after the other in the order of R170 and R182, do, and
leaves what they leave. -/
def Obligations.ChanProcessIsItsOperations : Prop :=
  ∀ s t : State, s.lat.wf → s.paths.length = 32 → s.drawn = [] → s.holding = false → s.finished = none →
    ((exec .chanProcess s = .next t ∧ t.finished ≠ none) ↔ processInOrder s = some t)

/-- Tier 2. BLOCK_RMS_UPDATE (R173), and the decay of the average over an all-zero block. -/
def Obligations.BlockRms : Prop :=
  (∀ (s : State) (x : List F64), x.length = 2048 →
    exec (.blockRmsUpdate x) s = .next { s with
      sigAvg := fadd (fmul f0p05 (fsqrt (fdiv (x.foldl (fun acc v => fadd acc (fmul v v)) fZero) f2048)))
        (fmul f0p95 s.sigAvg) }) ∧
  (∀ s : State, isFinite s.sigAvg = true → flt fZero s.sigAvg = true →
    exec (.blockRmsUpdate (List.replicate 2048 fZero)) s = .next { s with sigAvg := fmul f0p95 s.sigAvg })

/-- Tier 1. AGC_GAINS (R174). -/
def Obligations.AgcGains : Prop :=
  ∀ s : State,
    (s.lat.noiseOn = false → exec .agcGains s = .next { s with result := .gains fOne fZero }) ∧
    (s.lat.noiseOn = true → fge s.lat.snr fOne = true →
      exec .agcGains s = .next { s with
        result := .gains (fdiv targetRms s.sigAvg) (fdiv (fmul (fdiv targetRms s.sigAvg) s.sigAvg) s.lat.snr) }) ∧
    (s.lat.noiseOn = true → fge s.lat.snr fOne = false →
      exec .agcGains s = .next { s with result := .gains (fdiv (fmul targetRms s.lat.snr) s.sigAvg) targetRms })

/-- Tier 2. PATH_ACCUMULATE (R176): every sample is the sum of the real parts, from path 0 on. -/
def Obligations.PathAccumulate : Prop :=
  ∀ (s : State) (y0 : List Cplx) (ys : List (List Cplx)), y0.length = 2048 → (∀ y, y ∈ ys → y.length = 2048) →
    exec (.pathAccumulate (y0 :: ys)) s = .next { s with
      result := .samples ((List.range 2048).map fun i =>
        ys.foldl (fun acc y => fadd acc (y.getD i czero).re) (y0.getD i czero).re) }

/-! ### The FIR primitive and the Hilbert filter -/

/-- Tier 1. HILBERT_INIT, DELAY_INIT and NOISE_INIT (41_fir_hilbert.md R102; 42_delay_line.md R110; 45_noise.md R160). -/
def Obligations.UnitResets : Prop :=
  ∀ (s : State) (bl : Bool),
    exec .hilbertInit s = .next { s with hil := ⟨List.replicate 59 czero, 58⟩ } ∧
    exec .delayInit s = .next { s with dl := ⟨List.replicate 2448 czero, 2447, []⟩ } ∧
    exec (.noiseInit bl) s = .next { s with nz := ⟨List.replicate 59 fZero, 58, bl⟩ }

/-- Tier 2. FIR_APPLY on both kinds of instance, and GAUSS_APPLY, which is FIR_APPLY on a path's filter (41_fir_hilbert.md R101;
43_gauss_rayleigh.md R123; 45_noise.md R161); the table indices stay inside the table. -/
def Obligations.FirApply : Prop :=
  (∀ (s : State) (p : Nat) (q : Path) (z : Cplx), p < s.lat.P → s.paths[p]? = some q → q.gf.wf →
    exec (.firApply (.gauss p z)) s = .next { s with
      paths := s.paths.set p { q with gf := gaussNext q.gf z }
      result := .cplx (dotC q.gf.len q.gf.wp q.gf.c2 (gaussNext q.gf z).hist) } ∧
    exec (.gaussApply p z) s = exec (.firApply (.gauss p z)) s) ∧
  (∀ (s : State) (v : F64), s.nz.wf →
    exec (.firApply (.noise v)) s = .next { s with
      nz := { s.nz with hist := s.nz.hist.set s.nz.wp v, wp := if s.nz.wp = 0 then 58 else s.nz.wp - 1 }
      result := .f64 (dotR 59 s.nz.wp hre2 (s.nz.hist.set s.nz.wp v)) }) ∧
  (∀ n wp k : Nat, wp < n → k < n → 1 ≤ n - wp + k ∧ n - wp + k ≤ 2 * n - 1)

/-- Tier 2. HILBERT_FILTER_BLOCK (R103), sample by sample, and the pointer 2048 samples later. -/
def Obligations.HilbertFilterBlock : Prop :=
  ∀ (s : State) (x : List F64), x.length = 2048 → s.hil.wf →
    exec (.hilbertFilterBlock x) s = .next { s with
      hil := hilAt s.hil x 2048, result := .block ((List.range 2048).map (hilOut s.hil x)) } ∧
    (hilAt s.hil x 2048).wp = (s.hil.wp + 17) % 59

/-- Tier 2. The impulse response of the Hilbert filter is its coefficient tables (R103; 95_test_vectors.md V-H1). -/
def Obligations.HilbertImpulse : Prop :=
  ∀ s : State, s.hil = ⟨List.replicate 59 czero, 58⟩ →
    NextWith (exec (.hilbertFilterBlock (fOne :: List.replicate 2047 fZero)) s) fun t =>
      ∃ a, t.result = .block a ∧ a.length = 2048 ∧ t.hil.wp = 16 ∧
        (∀ n, n < 59 → a[n]? = some ⟨shown (hre2.getD n fZero), shown (him2.getD n fZero)⟩) ∧
        ∀ n, 59 ≤ n → n < 2048 → a[n]? = some czero

/-! ### The delay line -/

/-- Tier 2. DELAY_ADD appends the pointer floor(8·d) samples behind the write pointer, and that is 0 to 400 (42_delay_line.md
R111). |d| is `funits d` units of 2^−1074. -/
def Obligations.DelayAdd : Prop :=
  ∀ (s : State) (d : F64), delayInRange d = true → s.dl.w < 2448 →
    ∃ D, D ≤ 400 ∧ D * unitsPerOne ≤ 8 * funits d ∧ 8 * funits d < (D + 1) * unitsPerOne ∧
      exec (.delayAdd d) s = .next { s with dl := { s.dl with r := s.dl.r ++ [(s.dl.w + 2448 - D) % 2448] } }

/-- Tier 3. DELAY_BLOCK (R112, R113): a tap that trails by D ≤ 400 gives the input of D samples ago, from this block or from the
buffer, and trails by D afterwards; the buffer holds the block and, outside it, what it held. -/
def Obligations.DelayBlock : Prop :=
  ∀ (s : State) (a : List Cplx), a.length = 2048 → s.dl.buf.length = 2448 → s.dl.w < 2448 → (∀ r, r ∈ s.dl.r → r < 2448) →
    NextWith (exec (.delayBlock a) s) fun t =>
      ∃ blocks, t = { s with dl := t.dl, result := .blocks blocks } ∧
        t.dl.w = (s.dl.w + 2048) % 2448 ∧ t.dl.buf.length = 2448 ∧ t.dl.r.length = s.dl.r.length ∧
        blocks.length = s.dl.r.length ∧
        (∀ i, i < 2048 → t.dl.buf[(s.dl.w + i) % 2448]? = a[i]?) ∧
        (∀ j, 1 ≤ j → j ≤ 400 → t.dl.buf[(s.dl.w + 2448 - j) % 2448]? = s.dl.buf[(s.dl.w + 2448 - j) % 2448]?) ∧
        ∀ (k r D : Nat), s.dl.r[k]? = some r → trails s.dl r D → D ≤ 400 →
          (∃ r', t.dl.r[k]? = some r' ∧ trails t.dl r' D) ∧
          ∃ b : List Cplx, blocks[k]? = some b ∧ b.length = 2048 ∧
            (∀ i, i < D → b[i]? = s.dl.buf[(s.dl.w + 2448 + i - D) % 2448]?) ∧
            ∀ i, D ≤ i → i < 2048 → b[i]? = a[i - D]?

/-! ### The Gaussian filter and the generator -/

/-- Tier 2. GAUSS_INIT (43_gauss_rayleigh.md R121): L is the smallest odd integer ≥ (1.4 × fs) / bw, the table is duplicated and
each coefficient is the rule's; the history is zero and the pointer L − 1. -/
def Obligations.GaussInit : Prop :=
  ∀ (s : State) (p : Nat) (q : Path) (fs bw : F64), gaussDomain fs bw = true → p < s.lat.P → s.paths[p]? = some q →
    ∃ f : Gauss,
      exec (.gaussInit p fs bw) s = .next { s with paths := s.paths.set p { q with gf := f } } ∧
      f.len % 2 = 1 ∧ isFinite (fdiv (fmul fGaussLenK fs) bw) = true ∧
      funits (fdiv (fmul fGaussLenK fs) bw) ≤ f.len * unitsPerOne ∧
      f.len * unitsPerOne < funits (fdiv (fmul fGaussLenK fs) bw) + 2 * unitsPerOne ∧
      f.hist = List.replicate f.len czero ∧ f.wp + 1 = f.len ∧ f.c2.length = 2 * f.len ∧
      (∀ k, k < f.len → f.c2[k + f.len]? = f.c2[k]?) ∧
      ∀ k, k < f.len → f.c2[k]? = some
        (let t := fsub (fofNat k) (fofNat ((f.len - 1) / 2))
         let sigma := fdiv (fmul fs (fsqrt fTwo)) (fmul (fmul fTwo fPi) bw)
         fexp (fneg (fdiv (fmul t t) (fmul (fmul fTwo sigma) sigma))))

/-- Tier 2. The Gaussian table is symmetric about its centre, and its peak is 1.0 (R121). -/
def Obligations.GaussTable : Prop :=
  ∀ (fs bw : F64), gaussDomain fs bw = true →
    (gaussInit fs bw).c2[((gaussInit fs bw).len - 1) / 2]? = some fOne ∧
    ∀ j, j ≤ ((gaussInit fs bw).len - 1) / 2 →
      (gaussInit fs bw).c2[((gaussInit fs bw).len - 1) / 2 - j]? = (gaussInit fs bw).c2[((gaussInit fs bw).len - 1) / 2 + j]?

/-- Tier 2. The filter lengths over every admitted spread (R122, R126): the stage and the rate, and L in [45, 181], [45, 225] and
[15, 225]. -/
def Obligations.GaussLengths : Prop :=
  ∀ s : F64, fle f0p1 s = true → fle s f30 = true →
    (fle s f0p4 = true → rateOf s = (f12p8, 0) ∧ 45 ≤ gaussLen f12p8 s ∧ gaussLen f12p8 s ≤ 181) ∧
    (fgt s f0p4 = true → fle s fTwo = true → rateOf s = (f64p0, 1) ∧ 45 ≤ gaussLen f64p0 s ∧ gaussLen f64p0 s ≤ 225) ∧
    (fgt s fTwo = true → rateOf s = (f320, 2) ∧ 15 ≤ gaussLen f320 s ∧ gaussLen f320 s ≤ 225)

/-- Tier 2. CNORMAL (R124): it draws pairs, rejects those the rule rejects, and returns the value of the first accepted one. On a
stream in which no pair is accepted it holds, whatever was drawn (70_reset_and_hazards.md R243; the form in which the state
waits is log 7's). -/
def Obligations.Cnormal : Prop :=
  ∀ (s : State) (g : F64) (bad : List (F64 × F64)), (∀ q, q ∈ bad → rejected q = true) →
    (∀ (p : F64 × F64) (rest : List F64), accepted p = true → s.drawn ++ s.rng = flat bad ++ p.1 :: p.2 :: rest →
      exec (.cnormal g) s = .next { s with drawn := [], holding := false, rng := rest, result := .cplx (normal g p) }) ∧
    (∀ last : List F64, last.length ≤ 1 → (∀ v, v ∈ last → rngGood v = true) → s.drawn ++ s.rng = flat bad ++ last →
      exec (.cnormal g) s = .next { s with drawn := s.drawn ++ s.rng, holding := true, rng := [] })

/-- Tier 2. RAYLEIGH_INIT below 0.1 Hz (R125): a constant gain, no filter, no pre-roll and no draw. -/
def Obligations.RayleighInitWithoutSpread : Prop :=
  ∀ (s : State) (p : Nat) (q : Path) (spread gc : F64), isFinite spread = true → flt spread f0p1 = true →
    p < s.lat.P → s.paths[p]? = some q →
      exec (.rayleighInit p spread gc) s = .next { s with
        paths := s.paths.set p { q with nospread := true, g := gc }
        drawn := [], holding := false, rng := s.drawn ++ s.rng }

/-- Tier 2. RAYLEIGH_INIT from 0.1 Hz on (R125, R126): the rate, the stage, the gain and the filter of the clamped spread; the
pre-roll draws pairs until 250 have been accepted, and the filter is GAUSS_INIT's after their 250 values. -/
def Obligations.RayleighInitWithSpread : Prop :=
  ∀ (s : State) (p : Nat) (q : Path) (spread c gc : F64) (ps us : List (F64 × F64)) (rest : List F64),
    isFinite spread = true → fle f0p1 spread = true → c = (if fgt spread f30 then f30 else spread) →
    p < s.lat.P → s.paths[p]? = some q → accepts ps us → us.length = 250 → s.drawn ++ s.rng = flat ps ++ rest →
      ∃ q' : Path,
        exec (.rayleighInit p spread gc) s = .next { s with
          paths := s.paths.set p q', drawn := [], holding := false, rng := rest } ∧
        q' = { q with nospread := false, g := q'.g, fsG := q'.fsG, s0 := q'.s0, gf := q'.gf } ∧
        (fle c f0p4 = true → q'.fsG = f12p8 ∧ q'.s0 = 0) ∧
        (fle c f0p4 = false → fle c fTwo = true → q'.fsG = f64p0 ∧ q'.s0 = 1) ∧
        (fle c fTwo = false → q'.fsG = f320 ∧ q'.s0 = 2) ∧
        q'.g = fmul gc (fsqrt (fdiv q'.fsG (fmul (fmul fFour c) fKEnb))) ∧
        gaussDomain q'.fsG c = true ∧
        q'.gf = (us.map (normal q'.g)).foldl gaussNext (gaussInit q'.fsG c) ∧
        q'.gf.len = gaussLen q'.fsG c ∧ q'.gf.hist.length = q'.gf.len ∧ (q'.gf.wp + 250) % q'.gf.len = q'.gf.len - 1

/-- Tier 2. RAYLEIGH_SAMPLE (R127): the constant gain without spread, else the filtered value of the first pair accepted. -/
def Obligations.RayleighSample : Prop :=
  ∀ (s : State) (p : Nat) (q : Path), p < s.lat.P → s.paths[p]? = some q →
    (q.nospread = true →
      exec (.rayleighSample p) s = .next { s with
        paths := s.paths.set p q, result := .cplx ⟨q.g, fZero⟩, drawn := [], holding := false, rng := s.drawn ++ s.rng }) ∧
    (∀ ps u rest, q.nospread = false → q.gf.wf → accepts ps [u] → s.drawn ++ s.rng = flat ps ++ rest →
      exec (.rayleighSample p) s = .next { s with
        paths := s.paths.set p { q with gf := gaussNext q.gf (normal q.g u) }
        result := .cplx (dotC q.gf.len q.gf.wp q.gf.c2 (gaussNext q.gf (normal q.g u)).hist)
        drawn := [], holding := false, rng := rest })

/-! ### The path -/

/-- Tier 2. UPS_INIT, UPS_INSERT_AT, UPS_INSERT and UPS_UPSAMPLE (44_upsampler_path.md R140–R143), and the table indices stay
inside the table. -/
def Obligations.UpSampler : Prop :=
  ∀ (s : State) (p t : Nat) (q : Path) (u : Ups), p < s.lat.P → s.paths[p]? = some q → q.ups[t]? = some u →
    (∀ rate, stageRates[t]? = some rate →
      exec (.upsInit p t rate) s = .next { s with
        paths := s.paths.set p { q with ups := q.ups.set t ⟨rate, List.replicate 10 czero, 49⟩ } }) ∧
    (∀ m, exec (.upsInsertAt p t m) s = .next { s with result := .bool (decide (m % u.rate = 0)) }) ∧
    (∀ v, exec (.upsInsert p t v) s = .next { s with
      paths := s.paths.set p { q with ups := q.ups.set t { u with queue := u.queue.set (u.ptr / 5) v } } }) ∧
    (exec (.upsUpsample p t) s = .next { s with
      paths := s.paths.set p { q with ups := q.ups.set t { u with ptr := if u.ptr = 0 then 49 else u.ptr - 1 } }
      result := .cplx ((List.range 10).foldl
        (fun acc j => cadd acc (cscale (u.queue.getD j czero) (interp2.getD (50 - u.ptr + 4 + 5 * j) fZero))) czero) }) ∧
    (u.ptr < 50 → u.ptr / 5 < 10 ∧ ∀ j, j < 10 → 5 ≤ 50 - u.ptr + 4 + 5 * j ∧ 50 - u.ptr + 4 + 5 * j ≤ 99)

/-- Tier 2. PATH_INIT (R150; 43_gauss_rayleigh.md R125). Without spread: the constant gain, fresh stages, no draw. With spread:
what RAYLEIGH_INIT with the gain coefficient 1/√P leaves of the path with four fresh stages, then the phase +0.0, the phase step
and m_index 0. -/
def Obligations.PathInit : Prop :=
  ∀ (s : State) (p : Nat) (q : Path), p < s.lat.P → s.paths[p]? = some q →
    (flt (s.lat.spreadRaw.getD p fZero) f0p1 = true →
      exec (.pathInit p) s = .next { s with
        paths := s.paths.set p (freshPath s.lat.P (s.lat.offsetHz.getD p fZero) q)
        drawn := [], holding := false, rng := s.drawn ++ s.rng }) ∧
    (∀ (spread : F64) (ps us : List (F64 × F64)) (rest : List F64), spread = s.lat.spreadRaw.getD p fZero →
      isFinite spread = true → fle f0p1 spread = true → accepts ps us → us.length = 250 → s.drawn ++ s.rng = flat ps ++ rest →
        ∃ q' : Path,
          exec (.rayleighInit p spread (equalPower s.lat.P)) { s with paths := s.paths.set p { q with ups := freshStages } } =
            .next { s with paths := s.paths.set p q', drawn := [], holding := false, rng := rest } ∧
          q'.nospread = false ∧ q'.ups = freshStages ∧
          exec (.pathInit p) s = .next { s with
            paths := s.paths.set p { q' with
              theta := fZero, dtheta := fdiv (fmul (fmul fTwo fPi) (s.lat.offsetHz.getD p fZero)) f8000, mIndex := 0 }
            drawn := [], holding := false, rng := rest })

/-- Tier 1. NCO_STEP (R151): the phase is used, then advanced; at offset 0 it stays +0.0 and the factor is (1.0, 0.0). -/
def Obligations.NcoStep : Prop :=
  ∀ (s : State) (p : Nat) (q : Path), p < s.lat.P → s.paths[p]? = some q →
    exec (.ncoStep p) s = .next { s with
      paths := s.paths.set p { q with theta := nextPhase q.theta q.dtheta }
      result := .cplx ⟨fcos q.theta, fsin q.theta⟩ } ∧
    (q.theta = fZero → q.dtheta = fZero →
      nextPhase q.theta q.dtheta = fZero ∧ fcos q.theta = fOne ∧ fsin q.theta = fZero)

/-- Tier 3. The phase stays in [0, TWO_PI) (R151). -/
def Obligations.NcoPhaseInRange : Prop :=
  ∀ (s : State) (p : Nat) (q : Path), p < s.lat.P → s.paths[p]? = some q →
    isFinite q.dtheta = true → fle fZero q.theta = true → flt q.theta fTwoPi = true →
      NextWith (exec (.ncoStep p) s) fun t =>
        ∃ q', t.paths[p]? = some q' ∧ fle fZero q'.theta = true ∧ flt q'.theta fTwoPi = true

/-- Tier 2. PATH_CALC of a path without spread (R152): the constant gain, the input, then the phase of each sample; no draw;
m_index modulo 1 280 000. -/
def Obligations.PathCalcWithoutSpread : Prop :=
  ∀ (s : State) (p : Nat) (q : Path) (x : List Cplx), p < s.lat.P → s.paths[p]? = some q → x.length = 2048 →
    q.nospread = true → q.mIndex < 1280000 →
      exec (.pathCalc p x) s = .next { s with
        paths := s.paths.set p { q with theta := phaseAt q.theta q.dtheta 2048, mIndex := (q.mIndex + 2048) % 1280000 }
        result := .block ((List.range 2048).map fun i =>
          cmul (cmul ⟨q.g, fZero⟩ (x.getD i czero)) ⟨fcos (phaseAt q.theta q.dtheta i), fsin (phaseAt q.theta q.dtheta i)⟩)
        drawn := [], holding := false, rng := s.drawn ++ s.rng }

/-- Tier 2. PATH_CALC, and its draws in spread mode (R145, R152; 70_reset_and_hazards.md R243). Whatever the stream, it finishes
exactly when its operations, run sample by sample in the order of R152, do, and returns and leaves what they do. In spread mode it
draws pairs until one is accepted for every sample whose m_index is a multiple of the outermost stage's multiplier, and for no
other; with fewer than two values for each it holds (the form in which the state waits is log 7's). -/
def Obligations.PathCalcDraws : Prop :=
  (∀ (s t : State) (p : Nat) (q : Path) (x : List Cplx), p < s.lat.P → s.paths[p]? = some q → q.wf → x.length = 2048 →
    s.drawn = [] → s.holding = false →
      ((exec (.pathCalc p x) s = .next t ∧ t.holding = false) ↔
        ∃ y u, samplesInOrder p x s = some (y, u) ∧ t = { u with result := .block y })) ∧
  ∀ (s : State) (p n rate : Nat) (q : Path) (x : List Cplx), p < s.lat.P → s.paths[p]? = some q → q.wf → x.length = 2048 →
    q.nospread = false → stageRates[q.s0]? = some rate →
    n = ((List.range 2048).filter fun i => (q.mIndex + i) % rate == 0).length →
      (∀ ps us rest, accepts ps us → us.length = n → s.drawn ++ s.rng = flat ps ++ rest →
        ∃ (q' : Path) (y : List Cplx),
          exec (.pathCalc p x) s = .next { s with
            paths := s.paths.set p q', result := .block y, drawn := [], holding := false, rng := rest } ∧
          y.length = 2048 ∧
          q' = { q with
            gf := q'.gf, ups := q'.ups, theta := phaseAt q.theta q.dtheta 2048, mIndex := (q.mIndex + 2048) % 1280000 }) ∧
      (s.rngWf → (s.drawn ++ s.rng).length < 2 * n →
        exec (.pathCalc p x) s = .next { s with drawn := s.drawn ++ s.rng, holding := true, rng := [] })

/-! ### The noise injector -/

/-- Tier 2. NOISE_ADD (45_noise.md R161–R163): it draws pairs until 1024 have been accepted and adds to each scaled sample its
component, shaped when BL = 1 through the one history in the order re, im, re, im, and unshaped when BL = 0. -/
def Obligations.NoiseAdd : Prop :=
  ∀ (s : State) (buf : List F64) (sg nr : F64) (ps us : List (F64 × F64)) (rest : List F64), buf.length = 2048 → s.nz.wf →
    accepts ps us → us.length = 1024 → s.drawn ++ s.rng = flat ps ++ rest →
      (s.nz.bl = true →
        exec (.noiseAdd buf sg nr) s = .next { s with
          nz := noiseAt s.nz (component (fmul nr fNoiseComp) us) 2048
          result := .samples ((List.range 2048).map fun n =>
            fadd (fmul sg (buf.getD n fZero)) (noiseOut s.nz (component (fmul nr fNoiseComp) us) n))
          drawn := [], holding := false, rng := rest }) ∧
      (s.nz.bl = false →
        exec (.noiseAdd buf sg nr) s = .next { s with
          result := .samples ((List.range 2048).map fun n =>
            fadd (fmul sg (buf.getD n fZero)) (component (fmul nr fNoiseComp) us n))
          drawn := [], holding := false, rng := rest })

/-! ### The bus -/

/-- Tier 2. BUS_READ of every mapped offset (46_channel_commands.md R190; 20_memory.md R62, R66). -/
def Obligations.BusReads : Prop :=
  ∀ s : State,
    exec (.busRead 0x00000#17 8) s = .next (s.respond (.read false 0#64)) ∧
    exec (.busRead 0x00008#17 8) s = .next (s.respond (.read false (statusWord s.status))) ∧
    exec (.busRead 0x00010#17 8) s = .next (s.respond (.read false s.numPaths)) ∧
    exec (.busRead 0x00018#17 8) s = .next (s.respond (.read false s.noiseCtrl)) ∧
    exec (.busRead 0x00020#17 8) s = .next (s.respond (.read false s.snr)) ∧
    exec (.busRead 0x00028#17 8) s = .next (s.respond (.read false s.signalRms)) ∧
    exec (.busRead 0x00030#17 8) s = .next (s.respond (.read false s.noiseRms)) ∧
    exec (.busRead 0x00038#17 8) s = .next (s.respond (.read false s.blockCount)) ∧
    (∀ p, p < maxPaths →
      exec (.busRead (at17 (0x100 + 0x20 * p)) 8) s = .next (s.respond (.read false (s.pathReg p).delayMs)) ∧
      exec (.busRead (at17 (0x108 + 0x20 * p)) 8) s = .next (s.respond (.read false (s.pathReg p).spreadHz)) ∧
      exec (.busRead (at17 (0x110 + 0x20 * p)) 8) s = .next (s.respond (.read false (s.pathReg p).offsetHz))) ∧
    (∀ i v, i < 2048 → s.status.busy = false → readWord s.mem (0x10000 + 8 * i) = some v →
      exec (.busRead (at17 (0x10000 + 8 * i)) 8) s = .next (s.respond (.read false v))) ∧
    ∀ i, i < 2048 → s.status.busy = true →
      exec (.busRead (at17 (0x10000 + 8 * i)) 8) s = .next { s with bus := .read (at17 (0x10000 + 8 * i)) 8 :: s.bus }

/-- Tier 2. BUS_WRITE of every mapped offset but SAMPLE_BUF (R191; 20_memory.md R62). -/
def Obligations.BusWrites : Prop :=
  ∀ (s : State) (v : Word), s.pathRegs.length = 32 →
    exec (.busWrite 0x00000#17 8 v) s = exec (.issue v) (s.respond (.write false)) ∧
    exec (.busWrite 0x00008#17 8 v) s = .next (s.respond (.write false)) ∧
    exec (.busWrite 0x00010#17 8 v) s = .next ({ s with numPaths := v }.respond (.write false)) ∧
    exec (.busWrite 0x00018#17 8 v) s = .next ({ s with noiseCtrl := v &&& 0x1#64 }.respond (.write false)) ∧
    exec (.busWrite 0x00020#17 8 v) s = .next ({ s with snr := v }.respond (.write false)) ∧
    exec (.busWrite 0x00028#17 8 v) s = .next (s.respond (.write false)) ∧
    exec (.busWrite 0x00030#17 8 v) s = .next (s.respond (.write false)) ∧
    exec (.busWrite 0x00038#17 8 v) s = .next (s.respond (.write false)) ∧
    ∀ p, p < maxPaths →
      (∃ regs, exec (.busWrite (at17 (0x100 + 0x20 * p)) 8 v) s = .next ({ s with pathRegs := regs }.respond (.write false)) ∧
        regs[p]? = some { s.pathReg p with delayMs := v } ∧ ∀ k, k ≠ p → regs[k]? = s.pathRegs[k]?) ∧
      (∃ regs, exec (.busWrite (at17 (0x108 + 0x20 * p)) 8 v) s = .next ({ s with pathRegs := regs }.respond (.write false)) ∧
        regs[p]? = some { s.pathReg p with spreadHz := v } ∧ ∀ k, k ≠ p → regs[k]? = s.pathRegs[k]?) ∧
      (∃ regs, exec (.busWrite (at17 (0x110 + 0x20 * p)) 8 v) s = .next ({ s with pathRegs := regs }.respond (.write false)) ∧
        regs[p]? = some { s.pathReg p with offsetHz := v } ∧ ∀ k, k ≠ p → regs[k]? = s.pathRegs[k]?)

/-- Tier 2. A write to SAMPLE_BUF[i] stores the word, the low byte at the low address, sets its validity bit, leaves every other
byte, and a read returns it; while BUSY = 1 it is held (R190, R191; 20_memory.md R65, R66; 10_state.md R40). -/
def Obligations.SampleWrites : Prop :=
  ∀ (s : State) (i : Nat) (v : Word), i < 2048 →
    (s.status.busy = false →
      NextWith (exec (.busWrite (at17 (0x10000 + 8 * i)) 8 v) s) fun t =>
        t = { s with mem := t.mem, resp := s.resp ++ [.write false] } ∧ sampleValid t.mem i = true ∧
        (∀ k, k < 8 → readByte t.mem (0x10000 + 8 * i + k) = some (v.extractLsb' (8 * k) 8)) ∧
        (∀ a, a < 0x10000 + 8 * i ∨ 0x10000 + 8 * i + 8 ≤ a → readByte t.mem a = readByte s.mem a) ∧
        exec (.busRead (at17 (0x10000 + 8 * i)) 8) t = .next (t.respond (.read false v))) ∧
    (s.status.busy = true →
      exec (.busWrite (at17 (0x10000 + 8 * i)) 8 v) s =
        .next { s with bus := .write (at17 (0x10000 + 8 * i)) 8 v :: s.bus })

/-- Tier 2. An access of another width, at a misaligned offset or at a reserved offset is a bus error without effect, and a read
returns 0 (20_memory.md R64; 60_exceptions.md R208). -/
def Obligations.BusErrors : Prop :=
  ∀ (s : State) (off : Offset) (w : Nat) (v : Word), w ≠ 8 ∨ off.toNat % 8 ≠ 0 ∨ reservedOffset off →
    exec (.busRead off w) s = .next (s.respond (.read true 0#64)) ∧
    exec (.busWrite off w v) s = .next (s.respond (.write true))

/-- Tier 2. The layout of STATUS and the value of every ERR_CODE (10_state.md R21, R22). -/
def Obligations.StatusLayout : Prop :=
  ∀ t : Status,
    (statusWord t).getLsbD 0 = t.busy ∧ (statusWord t).getLsbD 1 = t.configured ∧ (statusWord t).getLsbD 2 = t.directMode ∧
    (statusWord t).getLsbD 3 = t.noiseOn ∧ (statusWord t).getLsbD 4 = t.cmdDropped ∧
    (statusWord t).extractLsb' 5 3 = 0#3 ∧ (statusWord t).extractLsb' 8 8 = errBits t.errCode ∧
    (statusWord t).extractLsb' 16 8 = t.activePaths ∧ (statusWord t).extractLsb' 24 40 = 0#40 ∧
    (errBits t.errCode).toNat ≤ 6 ∧
    errBits .ok = 0x00#8 ∧ errBits .illegalCmd = 0x01#8 ∧ errBits .notConfigured = 0x02#8 ∧ errBits .cfgPathCount = 0x03#8 ∧
    errBits .cfgNonfinite = 0x04#8 ∧ errBits .cfgDelayRange = 0x05#8 ∧ errBits .cfgSnrNegative = 0x06#8

/-! ### Operands no rule speaks of -/

/-- Tier 1. The model's choice (log 12): an internal operation on a path p ≥ lat.P (10_state.md R41), or with an operand outside
the domain its own rule states, is refused by name; the sequencer issues none. -/
def Obligations.OperandsOutsideTheRules : Prop :=
  ∀ s : State,
    (∀ p i, s.lat.P ≤ p → onPathNumber p i → exec i s = .refused (.noSuchPath p)) ∧
    (∀ x, x.length ≠ 2048 → exec (.hilbertFilterBlock x) s = .refused (.operandOutsideRule "HILBERT_FILTER_BLOCK")) ∧
    (∀ a, a.length ≠ 2048 → exec (.delayBlock a) s = .refused (.operandOutsideRule "DELAY_BLOCK")) ∧
    (∀ p x, x.length ≠ 2048 → exec (.pathCalc p x) s = .refused (.operandOutsideRule "PATH_CALC")) ∧
    (∀ x sg nr, x.length ≠ 2048 → exec (.noiseAdd x sg nr) s = .refused (.operandOutsideRule "NOISE_ADD")) ∧
    (∀ x, x.length ≠ 2048 → exec (.blockRmsUpdate x) s = .refused (.operandOutsideRule "BLOCK_RMS_UPDATE")) ∧
    (∀ y, y = [] ∨ (∃ b, b ∈ y ∧ b.length ≠ 2048) →
      exec (.pathAccumulate y) s = .refused (.operandOutsideRule "PATH_ACCUMULATE")) ∧
    (∀ d, isFinite d = false ∨ flt d fZero = true ∨ fgt d f50 = true →
      exec (.delayAdd d) s = .refused (.operandOutsideRule "DELAY_ADD")) ∧
    (∀ p fs bw, gaussDomain fs bw = false → exec (.gaussInit p fs bw) s = .refused (.operandOutsideRule "GAUSS_INIT")) ∧
    (∀ p spread gc, isFinite spread = false →
      exec (.rayleighInit p spread gc) s = .refused (.operandOutsideRule "RAYLEIGH_INIT")) ∧
    (∀ p t rate, stageRates[t]? ≠ some rate → exec (.upsInit p t rate) s = .refused (.operandOutsideRule "UPS_INIT")) ∧
    ∀ p t q m v, p < s.lat.P → s.paths[p]? = some q → q.ups[t]? = none →
      exec (.upsInsertAt p t m) s = .refused (.operandOutsideRule "UPS_INSERT_AT") ∧
      exec (.upsInsert p t v) s = .refused (.operandOutsideRule "UPS_INSERT") ∧
      exec (.upsUpsample p t) s = .refused (.operandOutsideRule "UPS_UPSAMPLE")

/-! ### The arithmetic -/

/-- Tier 2. +, −, ×, / and SQRT round to nearest, ties to even, and FMOD is exact (00_scope.md R9). The magnitude of a finite
result is as near to that of the exact result as the magnitude of any finite binary64, and a magnitude as near is an even result's;
the sign is the exact result's, that of a zero sum, a product, a quotient and √−0.0 IEEE 754's (log 20). Numbers are in units of
2^−1074: `unitsOfMag m` is the number with magnitude bits m. The root of n units is √(n · 2^1074) units, which is not an integer: a
result r is as near to it as m when the root does not lie beyond their midpoint, and twice the midpoint is r + m. -/
def Obligations.RoundsToNearestEven : Prop :=
  (∀ (a b : F64), isFinite a = true → isFinite b = true →
    nearestSum (fadd a b) (fsigned a + fsigned b) (fsign a && fsign b) ∧
    nearestSum (fsub a b) (fsigned a - fsigned b) (fsign a && !fsign b)) ∧
  (∀ (a b : F64), isFinite a = true → isFinite b = true →
    fsign (fmul a b) = (fsign a != fsign b) ∧
    (isFinite (fmul a b) = true → nearest (fmag (fmul a b)) ((funits a : Int) * (funits b : Int)) (unitsPerOne : Int))) ∧
  (∀ (a b : F64), isFinite a = true → isFinite b = true → 0 < fmag b →
    fsign (fdiv a b) = (fsign a != fsign b) ∧
    (isFinite (fdiv a b) = true → nearest (fmag (fdiv a b)) ((funits a : Int) * (unitsPerOne : Int)) (funits b : Int))) ∧
  (∀ a : F64, isFinite a = true → fsign a = false ∨ fmag a = 0 →
    isFinite (fsqrt a) = true ∧ fsign (fsqrt a) = fsign a ∧
    ∀ m, m < infMag → m ≠ fmag (fsqrt a) →
      (m < fmag (fsqrt a) → (funits (fsqrt a) + unitsOfMag m) ^ 2 ≤ 4 * (funits a * unitsPerOne)) ∧
      (fmag (fsqrt a) < m → 4 * (funits a * unitsPerOne) ≤ (funits (fsqrt a) + unitsOfMag m) ^ 2) ∧
      ((funits (fsqrt a) + unitsOfMag m) ^ 2 = 4 * (funits a * unitsPerOne) → fmag (fsqrt a) % 2 = 0)) ∧
  (∀ a b : F64, isFinite a = true → isFinite b = true → 0 < fmag b →
    isFinite (ffmod a b) = true ∧ fsign (ffmod a b) = fsign a ∧ funits (ffmod a b) = funits a % funits b)
end

