-- ==== Sys2Proof/Laws/Float.lean ====
section
/-! SUPPORT. What the rounding and the integer root of Machine/Float.lean do: exact numbers are kept, rounding is monotone,
the root is the floor. -/

namespace Sys2Proof.Laws
open Sys2Proof Sys2Proof.Machine

/-! ### The integer root -/

theorem isqrtFrom_spec (n : Nat) : ∀ k r, r * r ≤ n → n < (r + 2 ^ k) * (r + 2 ^ k) →
    isqrtFrom n k r * isqrtFrom n k r ≤ n ∧ n < (isqrtFrom n k r + 1) * (isqrtFrom n k r + 1) := by
  intro k
  induction k with
  | zero => intro r h1 h2; exact ⟨h1, by simpa [isqrtFrom] using h2⟩
  | succ k ih =>
    intro r h1 h2
    unfold isqrtFrom
    split
    · rename_i h
      refine ih _ h ?_
      calc n < (r + 2 ^ (k + 1)) * (r + 2 ^ (k + 1)) := h2
        _ = (r + 2 ^ k + 2 ^ k) * (r + 2 ^ k + 2 ^ k) := by ring
    · rename_i h
      exact ih _ h1 (by omega)

/-- `isqrt` is the floor of the square root. -/
theorem isqrt_spec (n : Nat) : isqrt n * isqrt n ≤ n ∧ n < (isqrt n + 1) * (isqrt n + 1) := by
  refine isqrtFrom_spec n _ 0 (by simp) ?_
  have h : n < 2 ^ (Nat.log2 n + 1) := Nat.lt_log2_self
  have h2 : 2 ^ (Nat.log2 n + 1) ≤ 2 ^ (2 * (Nat.log2 n / 2 + 1)) :=
    Nat.pow_le_pow_right (by decide) (by omega)
  calc n < 2 ^ (2 * (Nat.log2 n / 2 + 1)) := lt_of_lt_of_le h h2
    _ = (0 + 2 ^ (Nat.log2 n / 2 + 1)) * (0 + 2 ^ (Nat.log2 n / 2 + 1)) := by rw [two_mul, pow_add]; ring

/-! ### Rounding to an integer -/

/-- Rounding is within half a unit of the quotient. -/
theorem roundNat_half (num den : Nat) (hd : 0 < den) :
    2 * (roundNat num den * den) ≤ 2 * num + den ∧ 2 * num ≤ 2 * (roundNat num den * den) + den := by
  have h1 := Nat.div_add_mod num den
  have h2 := Nat.mod_lt num hd
  have h3 : (num / den + 1) * den = den * (num / den) + den := by ring
  have h4 : num / den * den = den * (num / den) := by ring
  unfold roundNat
  dsimp only
  split <;> omega

/-- A quotient that is an integer is kept. -/
theorem roundNat_exact (q den : Nat) (hd : 0 < den) : roundNat (q * den) den = q := by
  have h : ¬ (0 = den) := hd.ne
  simp [roundNat, Nat.mul_mod_left, Nat.mul_div_cancel _ hd, h]

/-- Rounding is monotone in the quotient, which cross-multiplication compares. -/
theorem roundNat_mono {n1 d1 n2 d2 : Nat} (h1 : 0 < d1) (h2 : 0 < d2) (h : n1 * d2 ≤ n2 * d1) :
    roundNat n1 d1 ≤ roundNat n2 d2 := by
  have e1 := Nat.div_add_mod n1 d1
  have e2 := Nat.div_add_mod n2 d2
  have m1 := Nat.mod_lt n1 h1
  have m2 := Nat.mod_lt n2 h2
  have hq : n1 / d1 ≤ n2 / d2 := by
    rw [Nat.le_div_iff_mul_le h2]
    have : (n1 / d1 * d1) * d2 ≤ n2 * d1 := le_trans (Nat.mul_le_mul_right _ (Nat.div_mul_le_self _ _)) h
    have : (n1 / d1 * d2) * d1 ≤ n2 * d1 := by nlinarith
    exact Nat.le_of_mul_le_mul_right this h1
  rcases Nat.lt_or_ge (n1 / d1) (n2 / d2) with hlt | hge
  · have a : roundNat n1 d1 ≤ n1 / d1 + 1 := by unfold roundNat; dsimp only; split <;> omega
    have b : n2 / d2 ≤ roundNat n2 d2 := by unfold roundNat; dsimp only; split <;> omega
    omega
  · have heq : n1 / d1 = n2 / d2 := le_antisymm hq hge
    unfold roundNat
    dsimp only
    rw [heq] at e1 ⊢
    have hr : (n1 % d1) * d2 ≤ (n2 % d2) * d1 := by
      have x1 : n1 * d2 = (d1 * (n2 / d2)) * d2 + (n1 % d1) * d2 := by
        conv_lhs => rw [← e1]
        ring
      have x2 : n2 * d1 = (d2 * (n2 / d2)) * d1 + (n2 % d2) * d1 := by
        conv_lhs => rw [← e2]
        ring
      have x3 : (d1 * (n2 / d2)) * d2 = (d2 * (n2 / d2)) * d1 := by ring
      omega
    split
    · rename_i hc
      rw [if_pos]
      rcases hc with hc | ⟨hc, ho⟩
      · left
        by_contra hn
        have : (2 * (n2 % d2)) * d1 ≤ d2 * d1 := Nat.mul_le_mul_right _ (by omega)
        have : d1 * d2 < (2 * (n1 % d1)) * d2 := Nat.mul_lt_mul_of_pos_right hc h2
        nlinarith
      · by_cases hs : d2 < 2 * (n2 % d2)
        · exact Or.inl hs
        · right
          refine ⟨?_, ho⟩
          by_contra hn
          have hlt : 2 * (n2 % d2) < d2 := by omega
          have : (2 * (n2 % d2)) * d1 < d2 * d1 := Nat.mul_lt_mul_of_pos_right hlt h1
          have : (2 * (n1 % d1)) * d2 = d1 * d2 := by rw [hc]
          nlinarith
    · split <;> omega

/-! ### Magnitudes -/

theorem log2_eq_of_bounds {n k : Nat} (h1 : 2 ^ k ≤ n) (h2 : n < 2 ^ (k + 1)) : Nat.log2 n = k := by
  have hn : n ≠ 0 := by
    have := Nat.two_pow_pos k
    omega
  have a : k ≤ Nat.log2 n := (Nat.le_log2 hn).mpr h1
  have b : Nat.log2 n < k + 1 := (Nat.log2_lt hn).mpr h2
  omega

/-- A finite binary64 is kept by rounding. -/
theorem roundMag_unitsOfMag (m d : Nat) (hm : m ≤ infMag) (hd : 0 < d) : roundMag (unitsOfMag m * d) d = m := by
  unfold roundMag
  dsimp only
  rw [Nat.mul_div_cancel _ hd]
  have hdm := Nat.div_add_mod m (2 ^ 52)
  have hlt := Nat.mod_lt m (show 0 < 2 ^ 52 by decide)
  by_cases he : m / 2 ^ 52 = 0
  · have hu : unitsOfMag m = m := by
      simp only [unitsOfMag, he, if_true]
      omega
    rw [hu]
    have hl : Nat.log2 m - 52 = 0 := by
      rcases Nat.eq_zero_or_pos m with h0 | h0
      · subst h0; decide
      · have : Nat.log2 m < 52 := (Nat.log2_lt (by omega)).mpr (by omega)
        omega
    rw [hl]
    simp only [pow_zero, mul_one, zero_mul, zero_add]
    rw [roundNat_exact _ _ hd]
    exact min_eq_right hm
  · obtain ⟨e, hE⟩ : ∃ e, m / 2 ^ 52 = e + 1 := ⟨m / 2 ^ 52 - 1, by omega⟩
    have hu : unitsOfMag m = (2 ^ 52 + m % 2 ^ 52) * 2 ^ e := by
      simp only [unitsOfMag, hE]
      simp
    have hl : Nat.log2 (unitsOfMag m) = e + 52 := by
      rw [hu]
      apply log2_eq_of_bounds
      · rw [pow_add, mul_comm]
        exact Nat.mul_le_mul_right _ (by omega)
      · rw [show e + 52 + 1 = 53 + e by omega, pow_add]
        exact Nat.mul_lt_mul_of_pos_right (by omega) (Nat.two_pow_pos e)
    rw [hl, hu, Nat.add_sub_cancel]
    rw [show (2 ^ 52 + m % 2 ^ 52) * 2 ^ e * d = (2 ^ 52 + m % 2 ^ 52) * (d * 2 ^ e) by ring]
    rw [roundNat_exact _ _ (Nat.mul_pos hd (Nat.two_pow_pos e))]
    have : e * 2 ^ 52 + (2 ^ 52 + m % 2 ^ 52) = m := by
      rw [hE] at hdm
      omega
    rw [this]
    exact min_eq_right hm

/-- The quotient lies in the binade its shift names. -/
theorem shift_bounds (q : Nat) : q < 2 ^ (53 + (Nat.log2 q - 52)) ∧ (0 < Nat.log2 q - 52 → 2 ^ (52 + (Nat.log2 q - 52)) ≤ q) := by
  constructor
  · exact lt_of_lt_of_le Nat.lt_log2_self (Nat.pow_le_pow_right (by decide) (by omega))
  · intro h
    have hq : q ≠ 0 := by rintro rfl; simp at h
    have : 52 + (Nat.log2 q - 52) = Nat.log2 q := by omega
    rw [this]
    exact Nat.log2_self_le hq

/-- The mantissa is at most 2^53, and at least 2^52 above the lowest binade. -/
theorem mantissa_bounds (num den : Nat) (hd : 0 < den) :
    roundNat num (den * 2 ^ (Nat.log2 (num / den) - 52)) ≤ 2 ^ 53 ∧
      (0 < Nat.log2 (num / den) - 52 → 2 ^ 52 ≤ roundNat num (den * 2 ^ (Nat.log2 (num / den) - 52))) := by
  obtain ⟨hu, hl⟩ := shift_bounds (num / den)
  generalize Nat.log2 (num / den) - 52 = k at hu hl
  have hk := Nat.two_pow_pos k
  have hD : 0 < den * 2 ^ k := Nat.mul_pos hd hk
  constructor
  · rw [← roundNat_exact (2 ^ 53) (den * 2 ^ k) hD]
    apply roundNat_mono hD hD
    apply Nat.mul_le_mul_right
    have : num < 2 ^ (53 + k) * den := (Nat.div_lt_iff_lt_mul hd).mp hu
    calc num ≤ 2 ^ (53 + k) * den := this.le
      _ = 2 ^ 53 * (den * 2 ^ k) := by rw [pow_add]; ring
  · intro h
    rw [← roundNat_exact (2 ^ 52) (den * 2 ^ k) hD]
    apply roundNat_mono hD hD
    apply Nat.mul_le_mul_right
    calc 2 ^ 52 * (den * 2 ^ k) = 2 ^ (52 + k) * den := by rw [pow_add]; ring
      _ ≤ num := (Nat.le_div_iff_mul_le hd).mp (hl h)

/-- Rounding a magnitude is monotone in the exact value. -/
theorem roundMag_mono {n1 d1 n2 d2 : Nat} (h1 : 0 < d1) (h2 : 0 < d2) (h : n1 * d2 ≤ n2 * d1) :
    roundMag n1 d1 ≤ roundMag n2 d2 := by
  have hq : n1 / d1 ≤ n2 / d2 := by
    rw [Nat.le_div_iff_mul_le h2]
    have a : (n1 / d1 * d1) * d2 ≤ n2 * d1 := le_trans (Nat.mul_le_mul_right _ (Nat.div_mul_le_self _ _)) h
    have : (n1 / d1 * d2) * d1 ≤ n2 * d1 := by nlinarith
    exact Nat.le_of_mul_le_mul_right this h1
  have hs : Nat.log2 (n1 / d1) - 52 ≤ Nat.log2 (n2 / d2) - 52 := by
    rcases Nat.eq_zero_or_pos (n1 / d1) with h0 | h0
    · simp [h0]
    · have : Nat.log2 (n1 / d1) ≤ Nat.log2 (n2 / d2) :=
        (Nat.le_log2 (by omega)).mpr (le_trans (Nat.log2_self_le (by omega)) hq)
      omega
  obtain ⟨u1, -⟩ := mantissa_bounds n1 d1 h1
  obtain ⟨-, l2⟩ := mantissa_bounds n2 d2 h2
  unfold roundMag
  dsimp only
  apply min_le_min_left
  rcases Nat.lt_or_ge (Nat.log2 (n1 / d1) - 52) (Nat.log2 (n2 / d2) - 52) with hlt | hge
  · have := l2 (by omega)
    omega
  · have he : Nat.log2 (n1 / d1) - 52 = Nat.log2 (n2 / d2) - 52 := le_antisymm hs hge
    rw [he] at u1 ⊢
    apply Nat.add_le_add_left
    have hk := Nat.two_pow_pos (Nat.log2 (n2 / d2) - 52)
    refine roundNat_mono (Nat.mul_pos h1 hk) (Nat.mul_pos h2 hk) ?_
    nlinarith

/-- The number a magnitude stands for grows with it. -/
theorem unitsOfMag_mono {m n : Nat} (h : m ≤ n) : unitsOfMag m ≤ unitsOfMag n := by
  have hm := Nat.div_add_mod m (2 ^ 52)
  have hn := Nat.div_add_mod n (2 ^ 52)
  have lm := Nat.mod_lt m (show 0 < 2 ^ 52 by decide)
  have ln := Nat.mod_lt n (show 0 < 2 ^ 52 by decide)
  have he : m / 2 ^ 52 ≤ n / 2 ^ 52 := Nat.div_le_div_right h
  unfold unitsOfMag
  dsimp only
  generalize m / 2 ^ 52 = e at *
  generalize n / 2 ^ 52 = e' at *
  generalize m % 2 ^ 52 = f at *
  generalize n % 2 ^ 52 = f' at *
  rcases Nat.eq_zero_or_pos e' with h0 | h0
  · have : e = 0 := by omega
    subst h0
    subst this
    simp only [if_true]
    omega
  · obtain ⟨k, rfl⟩ : ∃ k, e' = k + 1 := ⟨e' - 1, by omega⟩
    simp only [Nat.add_sub_cancel, Nat.add_one_ne_zero, if_false]
    have hk := Nat.two_pow_pos k
    rcases Nat.lt_or_ge e (k + 1) with hlt | hge
    · -- a lower binade: below 2^52 · 2^k
      have hlow : (if e = 0 then f else (2 ^ 52 + f) * 2 ^ (e - 1)) ≤ 2 ^ 52 * 2 ^ k := by
        split
        · exact le_trans lm.le (Nat.le_mul_of_pos_right _ hk)
        · calc (2 ^ 52 + f) * 2 ^ (e - 1) ≤ 2 ^ 53 * 2 ^ (e - 1) := Nat.mul_le_mul_right _ (by omega)
            _ = 2 ^ 52 * 2 ^ e := by
              obtain ⟨j, rfl⟩ : ∃ j, e = j + 1 := ⟨e - 1, by omega⟩
              rw [Nat.add_sub_cancel, pow_succ 2 j]
              ring
            _ ≤ 2 ^ 52 * 2 ^ k := Nat.mul_le_mul_left _ (Nat.pow_le_pow_right (by decide) (by omega))
      exact le_trans hlow (Nat.mul_le_mul_right _ (by omega))
    · have : e = k + 1 := by omega
      subst this
      simp only [Nat.add_one_ne_zero, if_false, Nat.add_sub_cancel]
      exact Nat.mul_le_mul_right _ (by omega)

theorem unitsOfMag_pos {m : Nat} (h : 0 < m) : 0 < unitsOfMag m := by
  have := unitsOfMag_mono (m := 1) (n := m) h
  have e : unitsOfMag 1 = 1 := by decide
  omega

/-- The parts of a pattern put together from its sign and its magnitude. -/
theorem ofSignMag_false {m : Nat} (h : m ≤ infMag) :
    fmag (ofSignMag false m) = m ∧ fsign (ofSignMag false m) = false := by
  have hm : m < 2 ^ 63 := lt_of_le_of_lt h (by decide)
  have ht : (ofSignMag false m).toNat = m := by
    simp only [ofSignMag, Bool.false_eq_true, if_false, Nat.add_zero, BitVec.toNat_ofNat]
    exact Nat.mod_eq_of_lt (lt_trans hm (by decide))
  refine ⟨by rw [fmag, ht, Nat.mod_eq_of_lt hm], ?_⟩
  rw [fsign, ht]
  exact decide_eq_false (by omega)

/-- A finite number above 0. -/
def positive (x : F64) : Prop := isFinite x = true ∧ fsign x = false ∧ 0 < fmag x

theorem positive_facts {x : F64} (h : positive x) : fmag x < infMag ∧ isNaN x = false ∧ isInf x = false := by
  have h1 : fmag x < infMag := by simpa [isFinite] using h.1
  exact ⟨h1, by simpa [isNaN] using h1.le, by simpa [isInf] using h1.ne⟩

theorem fdiv_positive {a b : F64} (ha : positive a) (hb : positive b) :
    fdiv a b = ofSignMag false (roundMag (funits a * unitsPerOne) (funits b)) := by
  obtain ⟨-, a1, a2⟩ := positive_facts ha
  obtain ⟨-, b1, b2⟩ := positive_facts hb
  rw [fdiv]
  simp [a1, a2, b1, b2, ha.2.1, hb.2.1, hb.2.2.ne']

/-- `ceil` of a number that is not negative. -/
theorem fceil_ofSignMag {m : Nat} (h : m < infMag) :
    fceil (ofSignMag false m) = ((unitsOfMag m + unitsPerOne - 1) / unitsPerOne : Nat) := by
  obtain ⟨h1, h2⟩ := ofSignMag_false h.le
  have hf : isFinite (ofSignMag false m) = true := by rw [isFinite, h1]; exact decide_eq_true h
  rw [fceil, if_pos hf, if_neg (by rw [h2]; decide), funits, h1]

/-- A greater divisor gives no greater quotient, rounded up to an integer. -/
theorem fceil_fdiv_anti {c a b : F64} (hc : positive c) (ha : positive a) (hb : positive b) (h : fmag a ≤ fmag b)
    (hf : isFinite (fdiv c a) = true) : fceil (fdiv c b) ≤ fceil (fdiv c a) := by
  have pa : 0 < funits a := unitsOfMag_pos ha.2.2
  have pb : 0 < funits b := unitsOfMag_pos hb.2.2
  have hm : roundMag (funits c * unitsPerOne) (funits b) ≤ roundMag (funits c * unitsPerOne) (funits a) :=
    roundMag_mono pb pa (Nat.mul_le_mul_left _ (unitsOfMag_mono h))
  have hi : roundMag (funits c * unitsPerOne) (funits a) ≤ infMag := Nat.min_le_left _ _
  rw [fdiv_positive hc ha] at hf ⊢
  rw [fdiv_positive hc hb]
  have hlt : roundMag (funits c * unitsPerOne) (funits a) < infMag := by
    rw [isFinite, (ofSignMag_false hi).1] at hf
    exact of_decide_eq_true hf
  rw [fceil_ofSignMag hlt, fceil_ofSignMag (lt_of_le_of_lt hm hlt)]
  exact_mod_cast Nat.div_le_div_right (Nat.sub_le_sub_right (Nat.add_le_add_right (unitsOfMag_mono hm) _) _)

theorem isFinite_fdiv_anti {c a b : F64} (hc : positive c) (ha : positive a) (hb : positive b) (h : fmag a ≤ fmag b)
    (hf : isFinite (fdiv c a) = true) : isFinite (fdiv c b) = true := by
  have pa : 0 < funits a := unitsOfMag_pos ha.2.2
  have pb : 0 < funits b := unitsOfMag_pos hb.2.2
  have hm : roundMag (funits c * unitsPerOne) (funits b) ≤ roundMag (funits c * unitsPerOne) (funits a) :=
    roundMag_mono pb pa (Nat.mul_le_mul_left _ (unitsOfMag_mono h))
  have hi : roundMag (funits c * unitsPerOne) (funits a) ≤ infMag := Nat.min_le_left _ _
  rw [fdiv_positive hc ha, isFinite, (ofSignMag_false hi).1, decide_eq_true_eq] at hf
  rw [fdiv_positive hc hb, isFinite, (ofSignMag_false (le_trans hm hi)).1]
  exact decide_eq_true (by omega)

/-- A number from a positive one on, up to another, is positive, and its magnitude lies between. -/
theorem positive_between {a x b : F64} (ha : positive a) (hb : positive b) (h1 : fle a x = true) (h2 : fle x b = true) :
    positive x ∧ fmag a ≤ fmag x ∧ fmag x ≤ fmag b := by
  obtain ⟨a1, -, -⟩ := positive_facts ha
  obtain ⟨b1, -, -⟩ := positive_facts hb
  simp only [fle, Bool.and_eq_true, decide_eq_true_eq, fkey, ha.2.1, hb.2.1, Bool.false_eq_true, if_false] at h1 h2
  have hpos := ha.2.2
  cases hx : fsign x
  · simp only [hx, Bool.false_eq_true, if_false] at h1 h2
    refine ⟨⟨?_, hx, by omega⟩, by omega, by omega⟩
    rw [isFinite]
    exact decide_eq_true (by omega)
  · simp only [hx, if_true] at h1
    omega

end Sys2Proof.Laws
end

