-- ==== Sys2Proof/Laws/Memory.lean ====
section
/-! SUPPORT. What SAMPLE_BUF reads after a write, and that every write keeps its canonical form. -/

namespace Sys2Proof.Laws
open Sys2Proof Sys2Proof.Machine

/-- A byte reads as it was written. -/
theorem readByte_writeByte_same (m : Memory) (a : Nat) (b : Byte) : readByte (writeByte m a b) a = some b := by
  induction m with
  | nil => simp [writeByte, readByte]
  | cons c m ih =>
    obtain ⟨k, c⟩ := c
    unfold writeByte
    split
    · simp [readByte]
    · split
      · simp [readByte]
      · rename_i h1 h2
        simp [readByte, h1, h2, ih]

/-- A write leaves every other byte alone. -/
theorem readByte_writeByte_other (m : Memory) (a x : Nat) (b : Byte) (h : x ≠ a) :
    readByte (writeByte m a b) x = readByte m x := by
  induction m with
  | nil => simp [writeByte, readByte, h]
  | cons c m ih =>
    obtain ⟨k, c⟩ := c
    unfold writeByte
    split
    · rename_i hk
      subst hk
      simp only [readByte, if_neg h]
    · split
      · rename_i h1 h2
        simp only [readByte, if_neg h]
        by_cases hx : x = k
        · subst hx
          simp [Nat.not_lt.mpr h2.le]
        · by_cases hlt : x < a
          · simp [hlt, hx, hlt.trans h2]
          · simp [hlt]
      · simp only [readByte, ih]

theorem readByte_writeByte (m : Memory) (a x : Nat) (b : Byte) :
    readByte (writeByte m a b) x = if x = a then some b else readByte m x := by
  split
  · rename_i h
    subst h
    exact readByte_writeByte_same m x b
  · rename_i h
    exact readByte_writeByte_other m a x b h

/-- The first address of a write is the least of the address written and the first address before. -/
theorem writeByte_wf_cons (k : Nat) (c : Byte) (m : Memory) (a : Nat) (b : Byte) (hk : k < a)
    (h : Memory.wf ((k, c) :: m) = true) (ih : Memory.wf (writeByte m a b) = true) :
    Memory.wf ((k, c) :: writeByte m a b) = true := by
  cases m with
  | nil => simp [writeByte, Memory.wf, hk]
  | cons d m =>
    obtain ⟨l, d⟩ := d
    have hl : k < l := by
      simp only [Memory.wf, Bool.and_eq_true, decide_eq_true_eq] at h
      exact h.1
    unfold writeByte at ih ⊢
    split at ih
    · rename_i e
      simp only [e, if_true, Memory.wf, Bool.and_eq_true, decide_eq_true_eq] at ih ⊢
      exact ⟨hl, ih⟩
    · rename_i e
      split at ih
      · rename_i e2
        simp only [e, e2, if_true, if_false, Memory.wf, Bool.and_eq_true, decide_eq_true_eq] at ih ⊢
        exact ⟨hk, ih⟩
      · rename_i e2
        simp only [e, e2, if_false, Memory.wf, Bool.and_eq_true, decide_eq_true_eq] at ih ⊢
        exact ⟨hl, ih⟩

theorem wf_tail {c : Host.Cell} {m : Memory} (h : Memory.wf (c :: m) = true) : Memory.wf m = true := by
  cases m with
  | nil => rfl
  | cons d m =>
    simp only [Memory.wf, Bool.and_eq_true] at h
    exact h.2

/-- A byte write keeps the canonical form. -/
theorem writeByte_wf (m : Memory) (a : Nat) (b : Byte) (h : Memory.wf m = true) : Memory.wf (writeByte m a b) = true := by
  induction m with
  | nil => rfl
  | cons c m ih =>
    obtain ⟨k, c⟩ := c
    by_cases h1 : a = k
    · subst h1
      have : writeByte ((a, c) :: m) a b = (a, b) :: m := by simp [writeByte]
      rw [this]
      cases m with
      | nil => rfl
      | cons d m =>
        simp only [Memory.wf, Bool.and_eq_true, decide_eq_true_eq] at h ⊢
        exact h
    · by_cases h2 : a < k
      · have : writeByte ((k, c) :: m) a b = (a, b) :: (k, c) :: m := by simp [writeByte, h1, h2]
        rw [this]
        simp only [Memory.wf, Bool.and_eq_true, decide_eq_true_eq]
        exact ⟨h2, h⟩
      · have : writeByte ((k, c) :: m) a b = (k, c) :: writeByte m a b := by simp [writeByte, h1, h2]
        rw [this]
        exact writeByte_wf_cons k c m a b (by omega) h (ih (wf_tail h))

/-- What a word write does to one byte: the eight bytes from `a` on are the word's, the others are kept. -/
theorem readByte_writeWord (m : Memory) (a x : Nat) (v : Word) :
    readByte (writeWord m a v) x = if a ≤ x ∧ x < a + 8 then some (byteOfWord v (x - a)) else readByte m x := by
  have h8 : List.range 8 = [0, 1, 2, 3, 4, 5, 6, 7] := rfl
  simp only [writeWord, h8, List.foldl_cons, List.foldl_nil, readByte_writeByte]
  by_cases h : a ≤ x ∧ x < a + 8
  · obtain ⟨k, hk, rfl⟩ : ∃ k, k < 8 ∧ x = a + k := ⟨x - a, by omega, by omega⟩
    interval_cases k <;> simp
  · simp only [if_neg h]
    split_ifs <;> first | omega | rfl

/-- A word write keeps the canonical form. -/
theorem writeWord_wf (m : Memory) (a : Nat) (v : Word) (h : Memory.wf m = true) : Memory.wf (writeWord m a v) = true := by
  have h8 : List.range 8 = [0, 1, 2, 3, 4, 5, 6, 7] := rfl
  simp only [writeWord, h8, List.foldl_cons, List.foldl_nil]
  iterate 8 apply writeByte_wf
  exact h

/-- A block write keeps the canonical form. -/
theorem writeBlockFrom_wf (y : List F64) : ∀ (m : Memory) (i : Nat), Memory.wf m = true →
    Memory.wf (writeBlockFrom m i y) = true := by
  induction y with
  | nil => intro m i h; exact h
  | cons v y ih => intro m i h; exact ih _ _ (writeWord_wf _ _ _ h)

theorem writeBlock_wf (m : Memory) (y : List F64) (h : Memory.wf m = true) : Memory.wf (writeBlock m y) = true :=
  writeBlockFrom_wf y m 0 h

/-- A word is read from its eight bytes alone. -/
theorem readWord_congr (m n : Memory) (a : Nat) (h : ∀ k, k < 8 → readByte m (a + k) = readByte n (a + k)) :
    readWord m a = readWord n a := by
  have h8 : List.range 8 = [0, 1, 2, 3, 4, 5, 6, 7] := rfl
  simp only [readWord, h8, List.mapM_cons, List.mapM_nil, h 0 (by omega), h 1 (by omega), h 2 (by omega), h 3 (by omega),
    h 4 (by omega), h 5 (by omega), h 6 (by omega), h 7 (by omega)]

/-- Eight bytes of a word give the word back (20_memory.md R65). -/
theorem wordOfBytes_bytesOfWord (v : Word) : wordOfBytes (bytesOfWord v) = v := by
  have h8 : List.range 8 = [0, 1, 2, 3, 4, 5, 6, 7] := rfl
  apply BitVec.eq_of_toNat_eq
  have hv := v.isLt
  simp only [wordOfBytes, bytesOfWord, byteOfWord, h8, List.map_cons, List.map_nil, List.foldr_cons, List.foldr_nil,
    BitVec.toNat_ofNat, BitVec.extractLsb'_toNat, Nat.shiftRight_eq_div_pow]
  omega

/-- A word reads as it was written. -/
theorem readWord_writeWord_same (m : Memory) (a : Nat) (v : Word) : readWord (writeWord m a v) a = some v := by
  have h8 : List.range 8 = [0, 1, 2, 3, 4, 5, 6, 7] := rfl
  have hb : ∀ k, k < 8 → readByte (writeWord m a v) (a + k) = some (byteOfWord v k) := by
    intro k hk
    rw [readByte_writeWord, if_pos (by omega)]
    congr 2
    omega
  have : readWord (writeWord m a v) a = some (wordOfBytes (bytesOfWord v)) := by
    have h0 : readByte (writeWord m a v) a = some (byteOfWord v 0) := by simpa using hb 0 (by omega)
    simp [readWord, bytesOfWord, h8, hb, h0]
  rw [this, wordOfBytes_bytesOfWord]

/-- A word write leaves a word that shares no byte with it alone. -/
theorem readWord_writeWord_other (m : Memory) (a x : Nat) (v : Word) (h : x + 8 ≤ a ∨ a + 8 ≤ x) :
    readWord (writeWord m a v) x = readWord m x := by
  apply readWord_congr
  intro k hk
  rw [readByte_writeWord, if_neg (by omega)]

/-- A block write leaves the words before its first one alone. -/
theorem readWord_writeBlockFrom_before (y : List F64) : ∀ (m : Memory) (i x : Nat), x + 8 ≤ sampleOff i →
    readWord (writeBlockFrom m i y) x = readWord m x := by
  induction y with
  | nil => intro m i x _; rfl
  | cons v y ih =>
    intro m i x h
    have hs : sampleOff (i + 1) = sampleOff i + 8 := by simp only [sampleOff]; omega
    rw [writeBlockFrom, ih _ _ _ (by omega), readWord_writeWord_other _ _ _ _ (Or.inl h)]

/-- Every word of a block reads as it was written. -/
theorem readWord_writeBlockFrom (y : List F64) : ∀ (m : Memory) (i k : Nat) (h : k < y.length),
    readWord (writeBlockFrom m i y) (sampleOff (i + k)) = some y[k] := by
  induction y with
  | nil => intro m i k h; simp at h
  | cons v y ih =>
    intro m i k h
    cases k with
    | zero =>
      rw [Nat.add_zero]
      have hs : sampleOff (i + 1) = sampleOff i + 8 := by simp only [sampleOff]; omega
      rw [writeBlockFrom, readWord_writeBlockFrom_before _ _ _ _ (by omega), readWord_writeWord_same]
      simp
    | succ k =>
      have : i + (k + 1) = (i + 1) + k := by omega
      rw [writeBlockFrom, this, ih _ _ _ (by simpa using h)]
      rfl

theorem readWord_writeBlock (m : Memory) (y : List F64) (k : Nat) (h : k < y.length) :
    readWord (writeBlock m y) (sampleOff k) = some y[k] := by
  have := readWord_writeBlockFrom y m 0 k h
  rwa [Nat.zero_add] at this

/-- A block write leaves every byte outside its words alone. -/
theorem readByte_writeBlockFrom_other (y : List F64) : ∀ (m : Memory) (i x : Nat),
    (x < sampleOff i ∨ sampleOff (i + y.length) ≤ x) → readByte (writeBlockFrom m i y) x = readByte m x := by
  induction y with
  | nil => intro m i x _; rfl
  | cons v y ih =>
    intro m i x h
    simp only [sampleOff, List.length_cons] at h
    rw [writeBlockFrom, ih _ _ _ (by simp only [sampleOff]; omega), readByte_writeWord,
      if_neg (by simp only [sampleOff]; omega)]

end Sys2Proof.Laws
end

