-- ==== Sys2Proof/Laws/Ops.lean ====
section
/-! SUPPORT. What each shared operation can do, said once: draws, guards, paths, the taking of a command, a step. -/

namespace Sys2Proof.Laws
open Sys2Proof Sys2Proof.Machine

/-! ### RNG_IN draws -/

@[simp] theorem bind_ok {α β : Type} (a : α) (rest : List F64) (f : α → List F64 → RngResult β) :
    (RngResult.ok a rest).bind f = f a rest := rfl

@[simp] theorem bind_starved {α β : Type} (f : α → List F64 → RngResult β) : (RngResult.starved).bind f = .starved := rfl

@[simp] theorem bind_bad {α β : Type} (f : α → List F64 → RngResult β) : (RngResult.bad).bind f = .bad := rfl

/-- A sequence of draws ends only if its first part does. -/
theorem bind_eq_ok {α β : Type} {r : RngResult α} {f : α → List F64 → RngResult β} {b : β} {rest : List F64}
    (h : r.bind f = .ok b rest) : ∃ a mid, r = .ok a mid ∧ f a mid = .ok b rest := by
  cases r with
  | ok a mid => exact ⟨a, mid, rfl, h⟩
  | starved => cases h
  | bad => cases h

/-- An operation that draws ends, or holds having drawn every value that waits. -/
theorem runDraws_next {α : Type} {s t : State} {f : List F64 → RngResult α} {k : α → State → State}
    (h : runDraws s f k = .next t) :
    (∃ a rest, f (s.drawn ++ s.rng) = .ok a rest ∧ t = k a { s with drawn := [], holding := false, rng := rest }) ∨
    (f (s.drawn ++ s.rng) = .starved ∧ t = { s with drawn := s.drawn ++ s.rng, holding := true, rng := [] }) := by
  unfold runDraws at h
  split at h
  · rename_i a rest e
    exact .inl ⟨a, rest, e, by simpa using h.symm⟩
  · rename_i e
    exact .inr ⟨e, by simpa using h.symm⟩
  · cases h

theorem runDraws_ok {α : Type} {s : State} {f : List F64 → RngResult α} {k : α → State → State} {a : α} {rest : List F64}
    (h : f (s.drawn ++ s.rng) = .ok a rest) :
    runDraws s f k = .next (k a { s with drawn := [], holding := false, rng := rest }) := by
  simp [runDraws, h]

theorem runDraws_starved {α : Type} {s : State} {f : List F64 → RngResult α} {k : α → State → State}
    (h : f (s.drawn ++ s.rng) = .starved) :
    runDraws s f k = .next { s with drawn := s.drawn ++ s.rng, holding := true, rng := [] } := by
  simp [runDraws, h]

/-- One draw of an operation: nothing if it needs none, else the first value waiting, or a hold if none waits. -/
theorem drawOne_next {α : Type} {s t : State} {f : List F64 → RngResult α} (h : drawOne s f = .next t) :
    t = s ∨ (f s.drawn = .starved ∧
      ((s.rng = [] ∧ t = { s with holding := true }) ∨
        ∃ v rest, s.rng = v :: rest ∧ rngGood v = true ∧ t = { s with drawn := s.drawn ++ [v], holding := false, rng := rest })) := by
  unfold drawOne at h
  split at h
  · cases h; exact .inl rfl
  · cases h
  · rename_i e
    split at h
    · rename_i hr
      cases h
      exact .inr ⟨e, .inl ⟨hr, rfl⟩⟩
    · rename_i v rest hr
      split at h
      · rename_i g
        cases h
        exact .inr ⟨e, .inr ⟨v, rest, hr, g, rfl⟩⟩
      · cases h

/-- What the next draw of the running command can do to the state, whatever the command. -/
theorem drawTurn_next {s t : State} (h : drawTurn s = .next t) :
    t = s ∨ (s.seq ≠ .idle ∧ s.finished = none ∧
      ((s.rng = [] ∧ t = { s with holding := true }) ∨
        ∃ v rest, s.rng = v :: rest ∧ rngGood v = true ∧ t = { s with drawn := s.drawn ++ [v], holding := false, rng := rest })) := by
  unfold drawTurn at h
  split at h
  · rename_i e1 e2
    exact (drawOne_next h).imp id fun x => ⟨by rw [e1]; decide, e2, x.2⟩
  · rename_i e1 e2
    exact (drawOne_next h).imp id fun x => ⟨by rw [e1]; decide, e2, x.2⟩
  · cases h; exact .inl rfl

/-! ### Guards, paths and stages -/

theorem guarded_next {ok : Bool} {m : String} {o : Outcome} {t : State} (h : guarded ok m o = .next t) :
    ok = true ∧ o = .next t := by
  unfold guarded at h
  split at h
  · rename_i e
    exact ⟨e, h⟩
  · cases h

theorem onPath_next {s t : State} {p : Nat} {f : Path → Outcome} (h : onPath s p f = .next t) :
    p < s.lat.P ∧ ∃ q, s.paths[p]? = some q ∧ f q = .next t := by
  unfold onPath at h
  split at h
  · rename_i hp
    split at h
    · rename_i q e
      exact ⟨hp, q, e, h⟩
    · cases h
  · cases h

theorem onPath_some {s : State} {p : Nat} {q : Path} {f : Path → Outcome} (hp : p < s.lat.P) (hq : s.paths[p]? = some q) :
    onPath s p f = f q := by
  simp [onPath, hp, hq]

theorem onStage_next {s t : State} {p k : Nat} {m : String} {f : Path → Ups → Outcome} (h : onStage s p k m f = .next t) :
    p < s.lat.P ∧ ∃ q u, s.paths[p]? = some q ∧ q.ups[k]? = some u ∧ f q u = .next t := by
  obtain ⟨hp, q, hq, h⟩ := onPath_next h
  split at h
  · rename_i u hu
    exact ⟨hp, q, u, hq, hu, h⟩
  · cases h

theorem onStage_some {s : State} {p k : Nat} {m : String} {q : Path} {u : Ups} {f : Path → Ups → Outcome}
    (hp : p < s.lat.P) (hq : s.paths[p]? = some q) (hu : q.ups[k]? = some u) : onStage s p k m f = f q u := by
  simp [onStage, onPath_some hp hq, hu]

/-! ### Commands -/

theorem takeCommand_idle {s : State} (f : State → Outcome) (h : s.seq = .idle) :
    takeCommand s f = f { s with status := { s.status with cmdDropped := false } } := by
  simp [takeCommand, h]

theorem takeCommand_busy {s : State} (f : State → Outcome) (h : s.seq ≠ .idle) :
    takeCommand s f = .next { s with status := { s.status with cmdDropped := true } } := by
  simp [takeCommand, h]

/-- ISSUE runs the command the word spells. -/
theorem execIssue_eq_decode (w : Word) (s : State) : execIssue w s = exec (decode w) s := by
  unfold execIssue decode
  split
  · rfl
  · split
    · rfl
    · split
      · rfl
      · split <;> rfl

/-! ### One step -/

/-- What a step that answers a next state did: it ran an instruction, made one draw, took an RNG_IN value, was reset, or
waited. -/
theorem step_next {s t : State} (h : step s = .next t) :
    (∃ i u, fetch s = .run i u ∧ exec i u = .next t) ∨
    (∃ v u, fetch s = .supply v u ∧ rngGood v = true ∧ t = { u with rng := u.rng ++ [v], holding := false }) ∨
    (∃ u, fetch s = .reset u ∧ t = hardwareReset u) ∨
    (fetch s = .wait t) ∨ ∃ u, fetch s = .draw u ∧ drawTurn u = .next t := by
  unfold step at h
  split at h
  · rename_i i u e
    exact .inl ⟨i, u, e, h⟩
  · rename_i u e
    exact .inr (.inr (.inr (.inr ⟨u, e, h⟩)))
  · rename_i v u e
    unfold supplyRng at h
    split at h
    · rename_i g
      exact .inr (.inl ⟨v, u, e, g, by simpa using h.symm⟩)
    · cases h
  · rename_i u e
    exact .inr (.inr (.inl ⟨u, e, by simpa using h.symm⟩))
  · rename_i u e
    cases h
    exact .inr (.inr (.inr (.inl e)))

/-- The instructions a step runs are the sequencer's works and completion, and the host's bus accesses. -/
theorem fetch_run {s u : State} {i : Instr} (h : fetch s = .run i u) :
    i = .chanInit ∨ i = .chanProcess ∨ i = .complete ∨ (∃ off w, i = .busRead off w) ∨ (∃ off w v, i = .busWrite off w v) := by
  have hs : ∀ s : State, sequencerTurn s = .run i u → i = .chanInit ∨ i = .chanProcess ∨ i = .complete := by
    intro s h
    unfold sequencerTurn at h
    split at h <;> cases h <;> simp
  have hh : ∀ s : State, hostTurn s = .run i u → (∃ off w, i = .busRead off w) ∨ (∃ off w v, i = .busWrite off w v) := by
    intro s h
    unfold hostTurn at h
    split at h <;> cases h <;> simp
  unfold fetch at h
  split at h
  · exact .inr (.inr (.inr (hh _ h)))
  · rcases hs _ h with h | h | h <;> simp [h]
  · cases h
  · cases h
  · cases h
  · split at h
    · rcases hs _ h with h | h | h <;> simp [h]
    · exact .inr (.inr (.inr (hh _ h)))

end Sys2Proof.Laws
end

