-- ==== Sys2Proof/Laws/PerInstr.lean ====
section
/-! SUPPORT. Per instruction: the host can write exactly the commands the decoder yields; no internal operation is one of them
(30_encoding.md R82, R83, R86). -/

namespace Sys2Proof.Laws
open Sys2Proof

/-- The decoder yields the three commands, or the word itself as illegal. -/
theorem decode_cases (w : Word) : decode w = .nop ∨ decode w = .init ∨ decode w = .processBlock ∨ decode w = .illegal w := by
  unfold decode
  split_ifs <;> simp

/-- A word is its reserved field followed by its opcode field. -/
theorem word_split (w : Word) : rsvOf w ++ opcOf w = w := by
  unfold rsvOf opcOf
  ext i hi
  simp only [BitVec.getElem_append, BitVec.getElem_extractLsb']
  split
  · rw [Nat.zero_add, BitVec.getLsbD_eq_getElem (by omega)]
  · rw [show 8 + (i - 8) = i by omega, BitVec.getLsbD_eq_getElem (by omega)]

/-- A word other than 0, 1 and 2 decodes to itself as illegal. -/
theorem decode_other (w : Word) (h0 : w ≠ 0#64) (h1 : w ≠ 1#64) (h2 : w ≠ 2#64) : decode w = .illegal w := by
  have hw := word_split w
  unfold decode
  split_ifs with a b c d
  · rfl
  · exact absurd (by rw [← hw, not_not.mp a, b]; rfl) h0
  · exact absurd (by rw [← hw, not_not.mp a, c]; rfl) h1
  · exact absurd (by rw [← hw, not_not.mp a, d]; rfl) h2
  · rfl

end Sys2Proof.Laws

namespace Sys2Proof.Laws.HostEncodable
open Sys2Proof Sys2Proof.Laws

/-- A well-formed instruction has an encoding exactly when some word decodes to it. -/
def Statement (i : Instr) : Prop := i.wf = true → ((encode i).isSome = true ↔ ∃ w, decode w = i)

/-- What no word decodes to, and the encoder has no word for, satisfies the statement. -/
theorem internal {i : Instr} (h : encode i = none) (hn : ∀ w, decode w ≠ i) : Statement i := by
  intro _
  rw [h]
  constructor
  · intro h
    cases h
  · rintro ⟨w, hw⟩
    exact absurd hw (hn w)

/-- No word decodes to an instruction that is none of the four rows a host can write. -/
theorem not_decoded {i : Instr} (h0 : i ≠ .nop) (h1 : i ≠ .init) (h2 : i ≠ .processBlock) (h3 : ∀ w, i ≠ .illegal w) (w : Word) :
    decode w ≠ i := by
  rcases decode_cases w with h | h | h | h <;> rw [h]
  · exact h0.symm
  · exact h1.symm
  · exact h2.symm
  · exact (h3 w).symm

theorem nop : Statement .nop := fun _ => ⟨fun _ => ⟨0#64, rfl⟩, fun _ => rfl⟩
theorem init : Statement .init := fun _ => ⟨fun _ => ⟨1#64, rfl⟩, fun _ => rfl⟩
theorem processBlock : Statement .processBlock := fun _ => ⟨fun _ => ⟨2#64, rfl⟩, fun _ => rfl⟩
theorem illegal (w : Word) : Statement (.illegal w) := by
  intro h
  simp only [Instr.wf, Bool.and_eq_true, bne_iff_ne] at h
  exact ⟨fun _ => ⟨w, decode_other w h.1.1 h.1.2 h.2⟩, fun _ => rfl⟩
theorem firApply (a : FirInput) : Statement (.firApply a) := internal rfl (not_decoded nofun nofun nofun nofun)
theorem hilbertInit : Statement .hilbertInit := internal rfl (not_decoded nofun nofun nofun nofun)
theorem hilbertFilterBlock (a : List F64) : Statement (.hilbertFilterBlock a) := internal rfl (not_decoded nofun nofun nofun nofun)
theorem delayInit : Statement .delayInit := internal rfl (not_decoded nofun nofun nofun nofun)
theorem delayAdd (a : F64) : Statement (.delayAdd a) := internal rfl (not_decoded nofun nofun nofun nofun)
theorem delayBlock (a : List Cplx) : Statement (.delayBlock a) := internal rfl (not_decoded nofun nofun nofun nofun)
theorem gaussInit (a : Nat) (b c : F64) : Statement (.gaussInit a b c) := internal rfl (not_decoded nofun nofun nofun nofun)
theorem gaussApply (a : Nat) (b : Cplx) : Statement (.gaussApply a b) := internal rfl (not_decoded nofun nofun nofun nofun)
theorem cnormal (a : F64) : Statement (.cnormal a) := internal rfl (not_decoded nofun nofun nofun nofun)
theorem rayleighInit (a : Nat) (b c : F64) : Statement (.rayleighInit a b c) := internal rfl (not_decoded nofun nofun nofun nofun)
theorem rayleighSample (a : Nat) : Statement (.rayleighSample a) := internal rfl (not_decoded nofun nofun nofun nofun)
theorem upsInit (a b c : Nat) : Statement (.upsInit a b c) := internal rfl (not_decoded nofun nofun nofun nofun)
theorem upsInsertAt (a b c : Nat) : Statement (.upsInsertAt a b c) := internal rfl (not_decoded nofun nofun nofun nofun)
theorem upsInsert (a b : Nat) (c : Cplx) : Statement (.upsInsert a b c) := internal rfl (not_decoded nofun nofun nofun nofun)
theorem upsUpsample (a b : Nat) : Statement (.upsUpsample a b) := internal rfl (not_decoded nofun nofun nofun nofun)
theorem pathInit (a : Nat) : Statement (.pathInit a) := internal rfl (not_decoded nofun nofun nofun nofun)
theorem ncoStep (a : Nat) : Statement (.ncoStep a) := internal rfl (not_decoded nofun nofun nofun nofun)
theorem pathCalc (a : Nat) (b : List Cplx) : Statement (.pathCalc a b) := internal rfl (not_decoded nofun nofun nofun nofun)
theorem noiseInit (a : Bool) : Statement (.noiseInit a) := internal rfl (not_decoded nofun nofun nofun nofun)
theorem noiseAdd (a : List F64) (b c : F64) : Statement (.noiseAdd a b c) := internal rfl (not_decoded nofun nofun nofun nofun)
theorem blockRmsUpdate (a : List F64) : Statement (.blockRmsUpdate a) := internal rfl (not_decoded nofun nofun nofun nofun)
theorem agcGains : Statement .agcGains := internal rfl (not_decoded nofun nofun nofun nofun)
theorem pathAccumulate (a : List (List Cplx)) : Statement (.pathAccumulate a) := internal rfl (not_decoded nofun nofun nofun nofun)
theorem chanInit : Statement .chanInit := internal rfl (not_decoded nofun nofun nofun nofun)
theorem chanProcess : Statement .chanProcess := internal rfl (not_decoded nofun nofun nofun nofun)
theorem initValidate : Statement .initValidate := internal rfl (not_decoded nofun nofun nofun nofun)
theorem busRead (a : Offset) (b : Nat) : Statement (.busRead a b) := internal rfl (not_decoded nofun nofun nofun nofun)
theorem busWrite (a : Offset) (b : Nat) (c : Word) : Statement (.busWrite a b c) := internal rfl (not_decoded nofun nofun nofun nofun)
theorem issue (a : Word) : Statement (.issue a) := internal rfl (not_decoded nofun nofun nofun nofun)
theorem complete : Statement .complete := internal rfl (not_decoded nofun nofun nofun nofun)

end Sys2Proof.Laws.HostEncodable
end

