-- ==== Sys2Proof/Laws/State.lean ====
section
/-! SUPPORT. What each update of the state leaves of each field: one lemma per field per update, all true by rfl. -/

namespace Sys2Proof.Laws
open Sys2Proof Sys2Proof.Machine

/-! ### State.setErr -/

@[simp] theorem setErr_status (s : State) (e : ErrCode) : (s.setErr e).status = { s.status with errCode := e } := rfl
@[simp] theorem setErr_numPaths (s : State) (e : ErrCode) : (s.setErr e).numPaths = s.numPaths := rfl
@[simp] theorem setErr_noiseCtrl (s : State) (e : ErrCode) : (s.setErr e).noiseCtrl = s.noiseCtrl := rfl
@[simp] theorem setErr_snr (s : State) (e : ErrCode) : (s.setErr e).snr = s.snr := rfl
@[simp] theorem setErr_signalRms (s : State) (e : ErrCode) : (s.setErr e).signalRms = s.signalRms := rfl
@[simp] theorem setErr_noiseRms (s : State) (e : ErrCode) : (s.setErr e).noiseRms = s.noiseRms := rfl
@[simp] theorem setErr_blockCount (s : State) (e : ErrCode) : (s.setErr e).blockCount = s.blockCount := rfl
@[simp] theorem setErr_pathRegs (s : State) (e : ErrCode) : (s.setErr e).pathRegs = s.pathRegs := rfl
@[simp] theorem setErr_mem (s : State) (e : ErrCode) : (s.setErr e).mem = s.mem := rfl
@[simp] theorem setErr_seq (s : State) (e : ErrCode) : (s.setErr e).seq = s.seq := rfl
@[simp] theorem setErr_lat (s : State) (e : ErrCode) : (s.setErr e).lat = s.lat := rfl
@[simp] theorem setErr_hil (s : State) (e : ErrCode) : (s.setErr e).hil = s.hil := rfl
@[simp] theorem setErr_dl (s : State) (e : ErrCode) : (s.setErr e).dl = s.dl := rfl
@[simp] theorem setErr_paths (s : State) (e : ErrCode) : (s.setErr e).paths = s.paths := rfl
@[simp] theorem setErr_nz (s : State) (e : ErrCode) : (s.setErr e).nz = s.nz := rfl
@[simp] theorem setErr_sigAvg (s : State) (e : ErrCode) : (s.setErr e).sigAvg = s.sigAvg := rfl
@[simp] theorem setErr_drawn (s : State) (e : ErrCode) : (s.setErr e).drawn = s.drawn := rfl
@[simp] theorem setErr_holding (s : State) (e : ErrCode) : (s.setErr e).holding = s.holding := rfl
@[simp] theorem setErr_finished (s : State) (e : ErrCode) : (s.setErr e).finished = s.finished := rfl
@[simp] theorem setErr_result (s : State) (e : ErrCode) : (s.setErr e).result = s.result := rfl
@[simp] theorem setErr_bus (s : State) (e : ErrCode) : (s.setErr e).bus = s.bus := rfl
@[simp] theorem setErr_resp (s : State) (e : ErrCode) : (s.setErr e).resp = s.resp := rfl
@[simp] theorem setErr_rng (s : State) (e : ErrCode) : (s.setErr e).rng = s.rng := rfl
@[simp] theorem setErr_turns (s : State) (e : ErrCode) : (s.setErr e).turns = s.turns := rfl
@[simp] theorem setErr_epoch (s : State) (e : ErrCode) : (s.setErr e).epoch = s.epoch := rfl

/-! ### State.returning -/

@[simp] theorem returning_status (s : State) (v : Value) : (s.returning v).status = s.status := rfl
@[simp] theorem returning_numPaths (s : State) (v : Value) : (s.returning v).numPaths = s.numPaths := rfl
@[simp] theorem returning_noiseCtrl (s : State) (v : Value) : (s.returning v).noiseCtrl = s.noiseCtrl := rfl
@[simp] theorem returning_snr (s : State) (v : Value) : (s.returning v).snr = s.snr := rfl
@[simp] theorem returning_signalRms (s : State) (v : Value) : (s.returning v).signalRms = s.signalRms := rfl
@[simp] theorem returning_noiseRms (s : State) (v : Value) : (s.returning v).noiseRms = s.noiseRms := rfl
@[simp] theorem returning_blockCount (s : State) (v : Value) : (s.returning v).blockCount = s.blockCount := rfl
@[simp] theorem returning_pathRegs (s : State) (v : Value) : (s.returning v).pathRegs = s.pathRegs := rfl
@[simp] theorem returning_mem (s : State) (v : Value) : (s.returning v).mem = s.mem := rfl
@[simp] theorem returning_seq (s : State) (v : Value) : (s.returning v).seq = s.seq := rfl
@[simp] theorem returning_lat (s : State) (v : Value) : (s.returning v).lat = s.lat := rfl
@[simp] theorem returning_hil (s : State) (v : Value) : (s.returning v).hil = s.hil := rfl
@[simp] theorem returning_dl (s : State) (v : Value) : (s.returning v).dl = s.dl := rfl
@[simp] theorem returning_paths (s : State) (v : Value) : (s.returning v).paths = s.paths := rfl
@[simp] theorem returning_nz (s : State) (v : Value) : (s.returning v).nz = s.nz := rfl
@[simp] theorem returning_sigAvg (s : State) (v : Value) : (s.returning v).sigAvg = s.sigAvg := rfl
@[simp] theorem returning_drawn (s : State) (v : Value) : (s.returning v).drawn = s.drawn := rfl
@[simp] theorem returning_holding (s : State) (v : Value) : (s.returning v).holding = s.holding := rfl
@[simp] theorem returning_finished (s : State) (v : Value) : (s.returning v).finished = s.finished := rfl
@[simp] theorem returning_result (s : State) (v : Value) : (s.returning v).result = v := rfl
@[simp] theorem returning_bus (s : State) (v : Value) : (s.returning v).bus = s.bus := rfl
@[simp] theorem returning_resp (s : State) (v : Value) : (s.returning v).resp = s.resp := rfl
@[simp] theorem returning_rng (s : State) (v : Value) : (s.returning v).rng = s.rng := rfl
@[simp] theorem returning_turns (s : State) (v : Value) : (s.returning v).turns = s.turns := rfl
@[simp] theorem returning_epoch (s : State) (v : Value) : (s.returning v).epoch = s.epoch := rfl

/-! ### State.setPath -/

@[simp] theorem setPath_status (s : State) (p : Nat) (q : Path) : (s.setPath p q).status = s.status := rfl
@[simp] theorem setPath_numPaths (s : State) (p : Nat) (q : Path) : (s.setPath p q).numPaths = s.numPaths := rfl
@[simp] theorem setPath_noiseCtrl (s : State) (p : Nat) (q : Path) : (s.setPath p q).noiseCtrl = s.noiseCtrl := rfl
@[simp] theorem setPath_snr (s : State) (p : Nat) (q : Path) : (s.setPath p q).snr = s.snr := rfl
@[simp] theorem setPath_signalRms (s : State) (p : Nat) (q : Path) : (s.setPath p q).signalRms = s.signalRms := rfl
@[simp] theorem setPath_noiseRms (s : State) (p : Nat) (q : Path) : (s.setPath p q).noiseRms = s.noiseRms := rfl
@[simp] theorem setPath_blockCount (s : State) (p : Nat) (q : Path) : (s.setPath p q).blockCount = s.blockCount := rfl
@[simp] theorem setPath_pathRegs (s : State) (p : Nat) (q : Path) : (s.setPath p q).pathRegs = s.pathRegs := rfl
@[simp] theorem setPath_mem (s : State) (p : Nat) (q : Path) : (s.setPath p q).mem = s.mem := rfl
@[simp] theorem setPath_seq (s : State) (p : Nat) (q : Path) : (s.setPath p q).seq = s.seq := rfl
@[simp] theorem setPath_lat (s : State) (p : Nat) (q : Path) : (s.setPath p q).lat = s.lat := rfl
@[simp] theorem setPath_hil (s : State) (p : Nat) (q : Path) : (s.setPath p q).hil = s.hil := rfl
@[simp] theorem setPath_dl (s : State) (p : Nat) (q : Path) : (s.setPath p q).dl = s.dl := rfl
@[simp] theorem setPath_paths (s : State) (p : Nat) (q : Path) : (s.setPath p q).paths = s.paths.set p q := rfl
@[simp] theorem setPath_nz (s : State) (p : Nat) (q : Path) : (s.setPath p q).nz = s.nz := rfl
@[simp] theorem setPath_sigAvg (s : State) (p : Nat) (q : Path) : (s.setPath p q).sigAvg = s.sigAvg := rfl
@[simp] theorem setPath_drawn (s : State) (p : Nat) (q : Path) : (s.setPath p q).drawn = s.drawn := rfl
@[simp] theorem setPath_holding (s : State) (p : Nat) (q : Path) : (s.setPath p q).holding = s.holding := rfl
@[simp] theorem setPath_finished (s : State) (p : Nat) (q : Path) : (s.setPath p q).finished = s.finished := rfl
@[simp] theorem setPath_result (s : State) (p : Nat) (q : Path) : (s.setPath p q).result = s.result := rfl
@[simp] theorem setPath_bus (s : State) (p : Nat) (q : Path) : (s.setPath p q).bus = s.bus := rfl
@[simp] theorem setPath_resp (s : State) (p : Nat) (q : Path) : (s.setPath p q).resp = s.resp := rfl
@[simp] theorem setPath_rng (s : State) (p : Nat) (q : Path) : (s.setPath p q).rng = s.rng := rfl
@[simp] theorem setPath_turns (s : State) (p : Nat) (q : Path) : (s.setPath p q).turns = s.turns := rfl
@[simp] theorem setPath_epoch (s : State) (p : Nat) (q : Path) : (s.setPath p q).epoch = s.epoch := rfl

/-! ### State.respond -/

@[simp] theorem respond_status (s : State) (r : Response) : (s.respond r).status = s.status := rfl
@[simp] theorem respond_numPaths (s : State) (r : Response) : (s.respond r).numPaths = s.numPaths := rfl
@[simp] theorem respond_noiseCtrl (s : State) (r : Response) : (s.respond r).noiseCtrl = s.noiseCtrl := rfl
@[simp] theorem respond_snr (s : State) (r : Response) : (s.respond r).snr = s.snr := rfl
@[simp] theorem respond_signalRms (s : State) (r : Response) : (s.respond r).signalRms = s.signalRms := rfl
@[simp] theorem respond_noiseRms (s : State) (r : Response) : (s.respond r).noiseRms = s.noiseRms := rfl
@[simp] theorem respond_blockCount (s : State) (r : Response) : (s.respond r).blockCount = s.blockCount := rfl
@[simp] theorem respond_pathRegs (s : State) (r : Response) : (s.respond r).pathRegs = s.pathRegs := rfl
@[simp] theorem respond_mem (s : State) (r : Response) : (s.respond r).mem = s.mem := rfl
@[simp] theorem respond_seq (s : State) (r : Response) : (s.respond r).seq = s.seq := rfl
@[simp] theorem respond_lat (s : State) (r : Response) : (s.respond r).lat = s.lat := rfl
@[simp] theorem respond_hil (s : State) (r : Response) : (s.respond r).hil = s.hil := rfl
@[simp] theorem respond_dl (s : State) (r : Response) : (s.respond r).dl = s.dl := rfl
@[simp] theorem respond_paths (s : State) (r : Response) : (s.respond r).paths = s.paths := rfl
@[simp] theorem respond_nz (s : State) (r : Response) : (s.respond r).nz = s.nz := rfl
@[simp] theorem respond_sigAvg (s : State) (r : Response) : (s.respond r).sigAvg = s.sigAvg := rfl
@[simp] theorem respond_drawn (s : State) (r : Response) : (s.respond r).drawn = s.drawn := rfl
@[simp] theorem respond_holding (s : State) (r : Response) : (s.respond r).holding = s.holding := rfl
@[simp] theorem respond_finished (s : State) (r : Response) : (s.respond r).finished = s.finished := rfl
@[simp] theorem respond_result (s : State) (r : Response) : (s.respond r).result = s.result := rfl
@[simp] theorem respond_bus (s : State) (r : Response) : (s.respond r).bus = s.bus := rfl
@[simp] theorem respond_resp (s : State) (r : Response) : (s.respond r).resp = s.resp ++ [r] := rfl
@[simp] theorem respond_rng (s : State) (r : Response) : (s.respond r).rng = s.rng := rfl
@[simp] theorem respond_turns (s : State) (r : Response) : (s.respond r).turns = s.turns := rfl
@[simp] theorem respond_epoch (s : State) (r : Response) : (s.respond r).epoch = s.epoch := rfl

/-! ### State.hold -/

@[simp] theorem hold_status (s : State) (a : BusAccess) : (s.hold a).status = s.status := rfl
@[simp] theorem hold_numPaths (s : State) (a : BusAccess) : (s.hold a).numPaths = s.numPaths := rfl
@[simp] theorem hold_noiseCtrl (s : State) (a : BusAccess) : (s.hold a).noiseCtrl = s.noiseCtrl := rfl
@[simp] theorem hold_snr (s : State) (a : BusAccess) : (s.hold a).snr = s.snr := rfl
@[simp] theorem hold_signalRms (s : State) (a : BusAccess) : (s.hold a).signalRms = s.signalRms := rfl
@[simp] theorem hold_noiseRms (s : State) (a : BusAccess) : (s.hold a).noiseRms = s.noiseRms := rfl
@[simp] theorem hold_blockCount (s : State) (a : BusAccess) : (s.hold a).blockCount = s.blockCount := rfl
@[simp] theorem hold_pathRegs (s : State) (a : BusAccess) : (s.hold a).pathRegs = s.pathRegs := rfl
@[simp] theorem hold_mem (s : State) (a : BusAccess) : (s.hold a).mem = s.mem := rfl
@[simp] theorem hold_seq (s : State) (a : BusAccess) : (s.hold a).seq = s.seq := rfl
@[simp] theorem hold_lat (s : State) (a : BusAccess) : (s.hold a).lat = s.lat := rfl
@[simp] theorem hold_hil (s : State) (a : BusAccess) : (s.hold a).hil = s.hil := rfl
@[simp] theorem hold_dl (s : State) (a : BusAccess) : (s.hold a).dl = s.dl := rfl
@[simp] theorem hold_paths (s : State) (a : BusAccess) : (s.hold a).paths = s.paths := rfl
@[simp] theorem hold_nz (s : State) (a : BusAccess) : (s.hold a).nz = s.nz := rfl
@[simp] theorem hold_sigAvg (s : State) (a : BusAccess) : (s.hold a).sigAvg = s.sigAvg := rfl
@[simp] theorem hold_drawn (s : State) (a : BusAccess) : (s.hold a).drawn = s.drawn := rfl
@[simp] theorem hold_holding (s : State) (a : BusAccess) : (s.hold a).holding = s.holding := rfl
@[simp] theorem hold_finished (s : State) (a : BusAccess) : (s.hold a).finished = s.finished := rfl
@[simp] theorem hold_result (s : State) (a : BusAccess) : (s.hold a).result = s.result := rfl
@[simp] theorem hold_bus (s : State) (a : BusAccess) : (s.hold a).bus = a :: s.bus := rfl
@[simp] theorem hold_resp (s : State) (a : BusAccess) : (s.hold a).resp = s.resp := rfl
@[simp] theorem hold_rng (s : State) (a : BusAccess) : (s.hold a).rng = s.rng := rfl
@[simp] theorem hold_turns (s : State) (a : BusAccess) : (s.hold a).turns = s.turns := rfl
@[simp] theorem hold_epoch (s : State) (a : BusAccess) : (s.hold a).epoch = s.epoch := rfl

/-! ### State.setPathReg -/

@[simp] theorem setPathReg_status (s : State) (p : Nat) (f : PathRegs → PathRegs) : (s.setPathReg p f).status = s.status := rfl
@[simp] theorem setPathReg_numPaths (s : State) (p : Nat) (f : PathRegs → PathRegs) : (s.setPathReg p f).numPaths = s.numPaths := rfl
@[simp] theorem setPathReg_noiseCtrl (s : State) (p : Nat) (f : PathRegs → PathRegs) : (s.setPathReg p f).noiseCtrl = s.noiseCtrl := rfl
@[simp] theorem setPathReg_snr (s : State) (p : Nat) (f : PathRegs → PathRegs) : (s.setPathReg p f).snr = s.snr := rfl
@[simp] theorem setPathReg_signalRms (s : State) (p : Nat) (f : PathRegs → PathRegs) : (s.setPathReg p f).signalRms = s.signalRms := rfl
@[simp] theorem setPathReg_noiseRms (s : State) (p : Nat) (f : PathRegs → PathRegs) : (s.setPathReg p f).noiseRms = s.noiseRms := rfl
@[simp] theorem setPathReg_blockCount (s : State) (p : Nat) (f : PathRegs → PathRegs) : (s.setPathReg p f).blockCount = s.blockCount := rfl
@[simp] theorem setPathReg_pathRegs (s : State) (p : Nat) (f : PathRegs → PathRegs) : (s.setPathReg p f).pathRegs = s.pathRegs.set p (f (s.pathReg p)) := rfl
@[simp] theorem setPathReg_mem (s : State) (p : Nat) (f : PathRegs → PathRegs) : (s.setPathReg p f).mem = s.mem := rfl
@[simp] theorem setPathReg_seq (s : State) (p : Nat) (f : PathRegs → PathRegs) : (s.setPathReg p f).seq = s.seq := rfl
@[simp] theorem setPathReg_lat (s : State) (p : Nat) (f : PathRegs → PathRegs) : (s.setPathReg p f).lat = s.lat := rfl
@[simp] theorem setPathReg_hil (s : State) (p : Nat) (f : PathRegs → PathRegs) : (s.setPathReg p f).hil = s.hil := rfl
@[simp] theorem setPathReg_dl (s : State) (p : Nat) (f : PathRegs → PathRegs) : (s.setPathReg p f).dl = s.dl := rfl
@[simp] theorem setPathReg_paths (s : State) (p : Nat) (f : PathRegs → PathRegs) : (s.setPathReg p f).paths = s.paths := rfl
@[simp] theorem setPathReg_nz (s : State) (p : Nat) (f : PathRegs → PathRegs) : (s.setPathReg p f).nz = s.nz := rfl
@[simp] theorem setPathReg_sigAvg (s : State) (p : Nat) (f : PathRegs → PathRegs) : (s.setPathReg p f).sigAvg = s.sigAvg := rfl
@[simp] theorem setPathReg_drawn (s : State) (p : Nat) (f : PathRegs → PathRegs) : (s.setPathReg p f).drawn = s.drawn := rfl
@[simp] theorem setPathReg_holding (s : State) (p : Nat) (f : PathRegs → PathRegs) : (s.setPathReg p f).holding = s.holding := rfl
@[simp] theorem setPathReg_finished (s : State) (p : Nat) (f : PathRegs → PathRegs) : (s.setPathReg p f).finished = s.finished := rfl
@[simp] theorem setPathReg_result (s : State) (p : Nat) (f : PathRegs → PathRegs) : (s.setPathReg p f).result = s.result := rfl
@[simp] theorem setPathReg_bus (s : State) (p : Nat) (f : PathRegs → PathRegs) : (s.setPathReg p f).bus = s.bus := rfl
@[simp] theorem setPathReg_resp (s : State) (p : Nat) (f : PathRegs → PathRegs) : (s.setPathReg p f).resp = s.resp := rfl
@[simp] theorem setPathReg_rng (s : State) (p : Nat) (f : PathRegs → PathRegs) : (s.setPathReg p f).rng = s.rng := rfl
@[simp] theorem setPathReg_turns (s : State) (p : Nat) (f : PathRegs → PathRegs) : (s.setPathReg p f).turns = s.turns := rfl
@[simp] theorem setPathReg_epoch (s : State) (p : Nat) (f : PathRegs → PathRegs) : (s.setPathReg p f).epoch = s.epoch := rfl

/-! ### startCommand -/

@[simp] theorem startCommand_status (s : State) (c : Command) : (startCommand c s).status = { s.status with errCode := .ok, busy := true } := rfl
@[simp] theorem startCommand_numPaths (s : State) (c : Command) : (startCommand c s).numPaths = s.numPaths := rfl
@[simp] theorem startCommand_noiseCtrl (s : State) (c : Command) : (startCommand c s).noiseCtrl = s.noiseCtrl := rfl
@[simp] theorem startCommand_snr (s : State) (c : Command) : (startCommand c s).snr = s.snr := rfl
@[simp] theorem startCommand_signalRms (s : State) (c : Command) : (startCommand c s).signalRms = s.signalRms := rfl
@[simp] theorem startCommand_noiseRms (s : State) (c : Command) : (startCommand c s).noiseRms = s.noiseRms := rfl
@[simp] theorem startCommand_blockCount (s : State) (c : Command) : (startCommand c s).blockCount = s.blockCount := rfl
@[simp] theorem startCommand_pathRegs (s : State) (c : Command) : (startCommand c s).pathRegs = s.pathRegs := rfl
@[simp] theorem startCommand_mem (s : State) (c : Command) : (startCommand c s).mem = s.mem := rfl
@[simp] theorem startCommand_seq (s : State) (c : Command) : (startCommand c s).seq = .run c := rfl
@[simp] theorem startCommand_lat (s : State) (c : Command) : (startCommand c s).lat = s.lat := rfl
@[simp] theorem startCommand_hil (s : State) (c : Command) : (startCommand c s).hil = s.hil := rfl
@[simp] theorem startCommand_dl (s : State) (c : Command) : (startCommand c s).dl = s.dl := rfl
@[simp] theorem startCommand_paths (s : State) (c : Command) : (startCommand c s).paths = s.paths := rfl
@[simp] theorem startCommand_nz (s : State) (c : Command) : (startCommand c s).nz = s.nz := rfl
@[simp] theorem startCommand_sigAvg (s : State) (c : Command) : (startCommand c s).sigAvg = s.sigAvg := rfl
@[simp] theorem startCommand_drawn (s : State) (c : Command) : (startCommand c s).drawn = [] := rfl
@[simp] theorem startCommand_holding (s : State) (c : Command) : (startCommand c s).holding = false := rfl
@[simp] theorem startCommand_finished (s : State) (c : Command) : (startCommand c s).finished = none := rfl
@[simp] theorem startCommand_result (s : State) (c : Command) : (startCommand c s).result = s.result := rfl
@[simp] theorem startCommand_bus (s : State) (c : Command) : (startCommand c s).bus = s.bus := rfl
@[simp] theorem startCommand_resp (s : State) (c : Command) : (startCommand c s).resp = s.resp := rfl
@[simp] theorem startCommand_rng (s : State) (c : Command) : (startCommand c s).rng = s.rng := rfl
@[simp] theorem startCommand_turns (s : State) (c : Command) : (startCommand c s).turns = s.turns := rfl
@[simp] theorem startCommand_epoch (s : State) (c : Command) : (startCommand c s).epoch = s.epoch := rfl

/-! ### rejectCommand of INIT -/

@[simp] theorem rejectInit_status (s : State) (e : ErrCode) : (rejectCommand (some .init) e s).status = { s.status with errCode := e, configured := false } := rfl
@[simp] theorem rejectInit_numPaths (s : State) (e : ErrCode) : (rejectCommand (some .init) e s).numPaths = s.numPaths := rfl
@[simp] theorem rejectInit_noiseCtrl (s : State) (e : ErrCode) : (rejectCommand (some .init) e s).noiseCtrl = s.noiseCtrl := rfl
@[simp] theorem rejectInit_snr (s : State) (e : ErrCode) : (rejectCommand (some .init) e s).snr = s.snr := rfl
@[simp] theorem rejectInit_signalRms (s : State) (e : ErrCode) : (rejectCommand (some .init) e s).signalRms = s.signalRms := rfl
@[simp] theorem rejectInit_noiseRms (s : State) (e : ErrCode) : (rejectCommand (some .init) e s).noiseRms = s.noiseRms := rfl
@[simp] theorem rejectInit_blockCount (s : State) (e : ErrCode) : (rejectCommand (some .init) e s).blockCount = s.blockCount := rfl
@[simp] theorem rejectInit_pathRegs (s : State) (e : ErrCode) : (rejectCommand (some .init) e s).pathRegs = s.pathRegs := rfl
@[simp] theorem rejectInit_mem (s : State) (e : ErrCode) : (rejectCommand (some .init) e s).mem = s.mem := rfl
@[simp] theorem rejectInit_seq (s : State) (e : ErrCode) : (rejectCommand (some .init) e s).seq = s.seq := rfl
@[simp] theorem rejectInit_lat (s : State) (e : ErrCode) : (rejectCommand (some .init) e s).lat = s.lat := rfl
@[simp] theorem rejectInit_hil (s : State) (e : ErrCode) : (rejectCommand (some .init) e s).hil = s.hil := rfl
@[simp] theorem rejectInit_dl (s : State) (e : ErrCode) : (rejectCommand (some .init) e s).dl = s.dl := rfl
@[simp] theorem rejectInit_paths (s : State) (e : ErrCode) : (rejectCommand (some .init) e s).paths = s.paths := rfl
@[simp] theorem rejectInit_nz (s : State) (e : ErrCode) : (rejectCommand (some .init) e s).nz = s.nz := rfl
@[simp] theorem rejectInit_sigAvg (s : State) (e : ErrCode) : (rejectCommand (some .init) e s).sigAvg = s.sigAvg := rfl
@[simp] theorem rejectInit_drawn (s : State) (e : ErrCode) : (rejectCommand (some .init) e s).drawn = s.drawn := rfl
@[simp] theorem rejectInit_holding (s : State) (e : ErrCode) : (rejectCommand (some .init) e s).holding = s.holding := rfl
@[simp] theorem rejectInit_finished (s : State) (e : ErrCode) : (rejectCommand (some .init) e s).finished = s.finished := rfl
@[simp] theorem rejectInit_result (s : State) (e : ErrCode) : (rejectCommand (some .init) e s).result = s.result := rfl
@[simp] theorem rejectInit_bus (s : State) (e : ErrCode) : (rejectCommand (some .init) e s).bus = s.bus := rfl
@[simp] theorem rejectInit_resp (s : State) (e : ErrCode) : (rejectCommand (some .init) e s).resp = s.resp := rfl
@[simp] theorem rejectInit_rng (s : State) (e : ErrCode) : (rejectCommand (some .init) e s).rng = s.rng := rfl
@[simp] theorem rejectInit_turns (s : State) (e : ErrCode) : (rejectCommand (some .init) e s).turns = s.turns := rfl
@[simp] theorem rejectInit_epoch (s : State) (e : ErrCode) : (rejectCommand (some .init) e s).epoch = s.epoch := rfl

/-! ### rejectCommand of PROCESS_BLOCK -/

@[simp] theorem rejectProcessBlock_status (s : State) (e : ErrCode) : (rejectCommand (some .processBlock) e s).status = { s.status with errCode := e } := rfl
@[simp] theorem rejectProcessBlock_numPaths (s : State) (e : ErrCode) : (rejectCommand (some .processBlock) e s).numPaths = s.numPaths := rfl
@[simp] theorem rejectProcessBlock_noiseCtrl (s : State) (e : ErrCode) : (rejectCommand (some .processBlock) e s).noiseCtrl = s.noiseCtrl := rfl
@[simp] theorem rejectProcessBlock_snr (s : State) (e : ErrCode) : (rejectCommand (some .processBlock) e s).snr = s.snr := rfl
@[simp] theorem rejectProcessBlock_signalRms (s : State) (e : ErrCode) : (rejectCommand (some .processBlock) e s).signalRms = s.signalRms := rfl
@[simp] theorem rejectProcessBlock_noiseRms (s : State) (e : ErrCode) : (rejectCommand (some .processBlock) e s).noiseRms = s.noiseRms := rfl
@[simp] theorem rejectProcessBlock_blockCount (s : State) (e : ErrCode) : (rejectCommand (some .processBlock) e s).blockCount = s.blockCount := rfl
@[simp] theorem rejectProcessBlock_pathRegs (s : State) (e : ErrCode) : (rejectCommand (some .processBlock) e s).pathRegs = s.pathRegs := rfl
@[simp] theorem rejectProcessBlock_mem (s : State) (e : ErrCode) : (rejectCommand (some .processBlock) e s).mem = s.mem := rfl
@[simp] theorem rejectProcessBlock_seq (s : State) (e : ErrCode) : (rejectCommand (some .processBlock) e s).seq = s.seq := rfl
@[simp] theorem rejectProcessBlock_lat (s : State) (e : ErrCode) : (rejectCommand (some .processBlock) e s).lat = s.lat := rfl
@[simp] theorem rejectProcessBlock_hil (s : State) (e : ErrCode) : (rejectCommand (some .processBlock) e s).hil = s.hil := rfl
@[simp] theorem rejectProcessBlock_dl (s : State) (e : ErrCode) : (rejectCommand (some .processBlock) e s).dl = s.dl := rfl
@[simp] theorem rejectProcessBlock_paths (s : State) (e : ErrCode) : (rejectCommand (some .processBlock) e s).paths = s.paths := rfl
@[simp] theorem rejectProcessBlock_nz (s : State) (e : ErrCode) : (rejectCommand (some .processBlock) e s).nz = s.nz := rfl
@[simp] theorem rejectProcessBlock_sigAvg (s : State) (e : ErrCode) : (rejectCommand (some .processBlock) e s).sigAvg = s.sigAvg := rfl
@[simp] theorem rejectProcessBlock_drawn (s : State) (e : ErrCode) : (rejectCommand (some .processBlock) e s).drawn = s.drawn := rfl
@[simp] theorem rejectProcessBlock_holding (s : State) (e : ErrCode) : (rejectCommand (some .processBlock) e s).holding = s.holding := rfl
@[simp] theorem rejectProcessBlock_finished (s : State) (e : ErrCode) : (rejectCommand (some .processBlock) e s).finished = s.finished := rfl
@[simp] theorem rejectProcessBlock_result (s : State) (e : ErrCode) : (rejectCommand (some .processBlock) e s).result = s.result := rfl
@[simp] theorem rejectProcessBlock_bus (s : State) (e : ErrCode) : (rejectCommand (some .processBlock) e s).bus = s.bus := rfl
@[simp] theorem rejectProcessBlock_resp (s : State) (e : ErrCode) : (rejectCommand (some .processBlock) e s).resp = s.resp := rfl
@[simp] theorem rejectProcessBlock_rng (s : State) (e : ErrCode) : (rejectCommand (some .processBlock) e s).rng = s.rng := rfl
@[simp] theorem rejectProcessBlock_turns (s : State) (e : ErrCode) : (rejectCommand (some .processBlock) e s).turns = s.turns := rfl
@[simp] theorem rejectProcessBlock_epoch (s : State) (e : ErrCode) : (rejectCommand (some .processBlock) e s).epoch = s.epoch := rfl

/-! ### rejectCommand of an illegal word -/

@[simp] theorem rejectIllegal_status (s : State) (e : ErrCode) : (rejectCommand none e s).status = { s.status with errCode := e } := rfl
@[simp] theorem rejectIllegal_numPaths (s : State) (e : ErrCode) : (rejectCommand none e s).numPaths = s.numPaths := rfl
@[simp] theorem rejectIllegal_noiseCtrl (s : State) (e : ErrCode) : (rejectCommand none e s).noiseCtrl = s.noiseCtrl := rfl
@[simp] theorem rejectIllegal_snr (s : State) (e : ErrCode) : (rejectCommand none e s).snr = s.snr := rfl
@[simp] theorem rejectIllegal_signalRms (s : State) (e : ErrCode) : (rejectCommand none e s).signalRms = s.signalRms := rfl
@[simp] theorem rejectIllegal_noiseRms (s : State) (e : ErrCode) : (rejectCommand none e s).noiseRms = s.noiseRms := rfl
@[simp] theorem rejectIllegal_blockCount (s : State) (e : ErrCode) : (rejectCommand none e s).blockCount = s.blockCount := rfl
@[simp] theorem rejectIllegal_pathRegs (s : State) (e : ErrCode) : (rejectCommand none e s).pathRegs = s.pathRegs := rfl
@[simp] theorem rejectIllegal_mem (s : State) (e : ErrCode) : (rejectCommand none e s).mem = s.mem := rfl
@[simp] theorem rejectIllegal_seq (s : State) (e : ErrCode) : (rejectCommand none e s).seq = s.seq := rfl
@[simp] theorem rejectIllegal_lat (s : State) (e : ErrCode) : (rejectCommand none e s).lat = s.lat := rfl
@[simp] theorem rejectIllegal_hil (s : State) (e : ErrCode) : (rejectCommand none e s).hil = s.hil := rfl
@[simp] theorem rejectIllegal_dl (s : State) (e : ErrCode) : (rejectCommand none e s).dl = s.dl := rfl
@[simp] theorem rejectIllegal_paths (s : State) (e : ErrCode) : (rejectCommand none e s).paths = s.paths := rfl
@[simp] theorem rejectIllegal_nz (s : State) (e : ErrCode) : (rejectCommand none e s).nz = s.nz := rfl
@[simp] theorem rejectIllegal_sigAvg (s : State) (e : ErrCode) : (rejectCommand none e s).sigAvg = s.sigAvg := rfl
@[simp] theorem rejectIllegal_drawn (s : State) (e : ErrCode) : (rejectCommand none e s).drawn = s.drawn := rfl
@[simp] theorem rejectIllegal_holding (s : State) (e : ErrCode) : (rejectCommand none e s).holding = s.holding := rfl
@[simp] theorem rejectIllegal_finished (s : State) (e : ErrCode) : (rejectCommand none e s).finished = s.finished := rfl
@[simp] theorem rejectIllegal_result (s : State) (e : ErrCode) : (rejectCommand none e s).result = s.result := rfl
@[simp] theorem rejectIllegal_bus (s : State) (e : ErrCode) : (rejectCommand none e s).bus = s.bus := rfl
@[simp] theorem rejectIllegal_resp (s : State) (e : ErrCode) : (rejectCommand none e s).resp = s.resp := rfl
@[simp] theorem rejectIllegal_rng (s : State) (e : ErrCode) : (rejectCommand none e s).rng = s.rng := rfl
@[simp] theorem rejectIllegal_turns (s : State) (e : ErrCode) : (rejectCommand none e s).turns = s.turns := rfl
@[simp] theorem rejectIllegal_epoch (s : State) (e : ErrCode) : (rejectCommand none e s).epoch = s.epoch := rfl

/-! ### completeInit -/

@[simp] theorem completeInit_status (s : State) : (completeInit s).status = { s.status with busy := false, configured := true, directMode := s.lat.direct, noiseOn := s.lat.noiseOn, activePaths := BitVec.ofNat 8 s.lat.P } := rfl
@[simp] theorem completeInit_numPaths (s : State) : (completeInit s).numPaths = s.numPaths := rfl
@[simp] theorem completeInit_noiseCtrl (s : State) : (completeInit s).noiseCtrl = s.noiseCtrl := rfl
@[simp] theorem completeInit_snr (s : State) : (completeInit s).snr = s.snr := rfl
@[simp] theorem completeInit_signalRms (s : State) : (completeInit s).signalRms = signalRmsReset := rfl
@[simp] theorem completeInit_noiseRms (s : State) : (completeInit s).noiseRms = fZero := rfl
@[simp] theorem completeInit_blockCount (s : State) : (completeInit s).blockCount = 0#64 := rfl
@[simp] theorem completeInit_pathRegs (s : State) : (completeInit s).pathRegs = s.pathRegs := rfl
@[simp] theorem completeInit_mem (s : State) : (completeInit s).mem = s.mem := rfl
@[simp] theorem completeInit_seq (s : State) : (completeInit s).seq = .idle := rfl
@[simp] theorem completeInit_lat (s : State) : (completeInit s).lat = s.lat := rfl
@[simp] theorem completeInit_hil (s : State) : (completeInit s).hil = s.hil := rfl
@[simp] theorem completeInit_dl (s : State) : (completeInit s).dl = s.dl := rfl
@[simp] theorem completeInit_paths (s : State) : (completeInit s).paths = s.paths := rfl
@[simp] theorem completeInit_nz (s : State) : (completeInit s).nz = s.nz := rfl
@[simp] theorem completeInit_sigAvg (s : State) : (completeInit s).sigAvg = s.sigAvg := rfl
@[simp] theorem completeInit_drawn (s : State) : (completeInit s).drawn = s.drawn := rfl
@[simp] theorem completeInit_holding (s : State) : (completeInit s).holding = s.holding := rfl
@[simp] theorem completeInit_finished (s : State) : (completeInit s).finished = none := rfl
@[simp] theorem completeInit_result (s : State) : (completeInit s).result = s.result := rfl
@[simp] theorem completeInit_bus (s : State) : (completeInit s).bus = s.bus := rfl
@[simp] theorem completeInit_resp (s : State) : (completeInit s).resp = s.resp := rfl
@[simp] theorem completeInit_rng (s : State) : (completeInit s).rng = s.rng := rfl
@[simp] theorem completeInit_turns (s : State) : (completeInit s).turns = s.turns := rfl
@[simp] theorem completeInit_epoch (s : State) : (completeInit s).epoch = s.epoch := rfl

/-! ### completeBlock -/

@[simp] theorem completeBlock_status (s : State) (y : List F64) (nrd : F64) : (completeBlock y nrd s).status = { s.status with busy := false } := rfl
@[simp] theorem completeBlock_numPaths (s : State) (y : List F64) (nrd : F64) : (completeBlock y nrd s).numPaths = s.numPaths := rfl
@[simp] theorem completeBlock_noiseCtrl (s : State) (y : List F64) (nrd : F64) : (completeBlock y nrd s).noiseCtrl = s.noiseCtrl := rfl
@[simp] theorem completeBlock_snr (s : State) (y : List F64) (nrd : F64) : (completeBlock y nrd s).snr = s.snr := rfl
@[simp] theorem completeBlock_signalRms (s : State) (y : List F64) (nrd : F64) : (completeBlock y nrd s).signalRms = s.sigAvg := rfl
@[simp] theorem completeBlock_noiseRms (s : State) (y : List F64) (nrd : F64) : (completeBlock y nrd s).noiseRms = nrd := rfl
@[simp] theorem completeBlock_blockCount (s : State) (y : List F64) (nrd : F64) : (completeBlock y nrd s).blockCount = s.blockCount + 1#64 := rfl
@[simp] theorem completeBlock_pathRegs (s : State) (y : List F64) (nrd : F64) : (completeBlock y nrd s).pathRegs = s.pathRegs := rfl
@[simp] theorem completeBlock_mem (s : State) (y : List F64) (nrd : F64) : (completeBlock y nrd s).mem = writeBlock s.mem y := rfl
@[simp] theorem completeBlock_seq (s : State) (y : List F64) (nrd : F64) : (completeBlock y nrd s).seq = .idle := rfl
@[simp] theorem completeBlock_lat (s : State) (y : List F64) (nrd : F64) : (completeBlock y nrd s).lat = s.lat := rfl
@[simp] theorem completeBlock_hil (s : State) (y : List F64) (nrd : F64) : (completeBlock y nrd s).hil = s.hil := rfl
@[simp] theorem completeBlock_dl (s : State) (y : List F64) (nrd : F64) : (completeBlock y nrd s).dl = s.dl := rfl
@[simp] theorem completeBlock_paths (s : State) (y : List F64) (nrd : F64) : (completeBlock y nrd s).paths = s.paths := rfl
@[simp] theorem completeBlock_nz (s : State) (y : List F64) (nrd : F64) : (completeBlock y nrd s).nz = s.nz := rfl
@[simp] theorem completeBlock_sigAvg (s : State) (y : List F64) (nrd : F64) : (completeBlock y nrd s).sigAvg = s.sigAvg := rfl
@[simp] theorem completeBlock_drawn (s : State) (y : List F64) (nrd : F64) : (completeBlock y nrd s).drawn = s.drawn := rfl
@[simp] theorem completeBlock_holding (s : State) (y : List F64) (nrd : F64) : (completeBlock y nrd s).holding = s.holding := rfl
@[simp] theorem completeBlock_finished (s : State) (y : List F64) (nrd : F64) : (completeBlock y nrd s).finished = none := rfl
@[simp] theorem completeBlock_result (s : State) (y : List F64) (nrd : F64) : (completeBlock y nrd s).result = s.result := rfl
@[simp] theorem completeBlock_bus (s : State) (y : List F64) (nrd : F64) : (completeBlock y nrd s).bus = s.bus := rfl
@[simp] theorem completeBlock_resp (s : State) (y : List F64) (nrd : F64) : (completeBlock y nrd s).resp = s.resp := rfl
@[simp] theorem completeBlock_rng (s : State) (y : List F64) (nrd : F64) : (completeBlock y nrd s).rng = s.rng := rfl
@[simp] theorem completeBlock_turns (s : State) (y : List F64) (nrd : F64) : (completeBlock y nrd s).turns = s.turns := rfl
@[simp] theorem completeBlock_epoch (s : State) (y : List F64) (nrd : F64) : (completeBlock y nrd s).epoch = s.epoch := rfl

/-! ### hardwareReset -/

@[simp] theorem hardwareReset_status (s : State) : (hardwareReset s).status = State.reset.status := rfl
@[simp] theorem hardwareReset_numPaths (s : State) : (hardwareReset s).numPaths = State.reset.numPaths := rfl
@[simp] theorem hardwareReset_noiseCtrl (s : State) : (hardwareReset s).noiseCtrl = State.reset.noiseCtrl := rfl
@[simp] theorem hardwareReset_snr (s : State) : (hardwareReset s).snr = State.reset.snr := rfl
@[simp] theorem hardwareReset_signalRms (s : State) : (hardwareReset s).signalRms = State.reset.signalRms := rfl
@[simp] theorem hardwareReset_noiseRms (s : State) : (hardwareReset s).noiseRms = State.reset.noiseRms := rfl
@[simp] theorem hardwareReset_blockCount (s : State) : (hardwareReset s).blockCount = State.reset.blockCount := rfl
@[simp] theorem hardwareReset_pathRegs (s : State) : (hardwareReset s).pathRegs = State.reset.pathRegs := rfl
@[simp] theorem hardwareReset_mem (s : State) : (hardwareReset s).mem = State.reset.mem := rfl
@[simp] theorem hardwareReset_seq (s : State) : (hardwareReset s).seq = State.reset.seq := rfl
@[simp] theorem hardwareReset_lat (s : State) : (hardwareReset s).lat = State.reset.lat := rfl
@[simp] theorem hardwareReset_hil (s : State) : (hardwareReset s).hil = State.reset.hil := rfl
@[simp] theorem hardwareReset_dl (s : State) : (hardwareReset s).dl = State.reset.dl := rfl
@[simp] theorem hardwareReset_paths (s : State) : (hardwareReset s).paths = State.reset.paths := rfl
@[simp] theorem hardwareReset_nz (s : State) : (hardwareReset s).nz = State.reset.nz := rfl
@[simp] theorem hardwareReset_sigAvg (s : State) : (hardwareReset s).sigAvg = State.reset.sigAvg := rfl
@[simp] theorem hardwareReset_drawn (s : State) : (hardwareReset s).drawn = State.reset.drawn := rfl
@[simp] theorem hardwareReset_holding (s : State) : (hardwareReset s).holding = State.reset.holding := rfl
@[simp] theorem hardwareReset_finished (s : State) : (hardwareReset s).finished = State.reset.finished := rfl
@[simp] theorem hardwareReset_result (s : State) : (hardwareReset s).result = State.reset.result := rfl
@[simp] theorem hardwareReset_bus (s : State) : (hardwareReset s).bus = s.bus := rfl
@[simp] theorem hardwareReset_resp (s : State) : (hardwareReset s).resp = s.resp := rfl
@[simp] theorem hardwareReset_rng (s : State) : (hardwareReset s).rng = s.rng := rfl
@[simp] theorem hardwareReset_turns (s : State) : (hardwareReset s).turns = s.turns := rfl
@[simp] theorem hardwareReset_epoch (s : State) : (hardwareReset s).epoch = s.epoch + 1 := rfl

/-! ### Path.setStage -/

@[simp] theorem setStage_nospread (q : Path) (t : Nat) (u : Ups) : (q.setStage t u).nospread = q.nospread := rfl
@[simp] theorem setStage_g (q : Path) (t : Nat) (u : Ups) : (q.setStage t u).g = q.g := rfl
@[simp] theorem setStage_fsG (q : Path) (t : Nat) (u : Ups) : (q.setStage t u).fsG = q.fsG := rfl
@[simp] theorem setStage_s0 (q : Path) (t : Nat) (u : Ups) : (q.setStage t u).s0 = q.s0 := rfl
@[simp] theorem setStage_gf (q : Path) (t : Nat) (u : Ups) : (q.setStage t u).gf = q.gf := rfl
@[simp] theorem setStage_theta (q : Path) (t : Nat) (u : Ups) : (q.setStage t u).theta = q.theta := rfl
@[simp] theorem setStage_dtheta (q : Path) (t : Nat) (u : Ups) : (q.setStage t u).dtheta = q.dtheta := rfl
@[simp] theorem setStage_mIndex (q : Path) (t : Nat) (u : Ups) : (q.setStage t u).mIndex = q.mIndex := rfl
@[simp] theorem setStage_ups (q : Path) (t : Nat) (u : Ups) : (q.setStage t u).ups = q.ups.set t u := rfl

end Sys2Proof.Laws
end

