-- ==== Sys2Proof/Laws/Step.lean ====
section
/-! SUPPORT. What each of the host-visible operations and the choice of what moves next can do, said once. -/

namespace Sys2Proof.Laws
open Sys2Proof Sys2Proof.Machine

/-- What ISSUE can do (46_channel_commands.md R192). -/
theorem issue_cases (w : Word) (s t : State) (h : execIssue w s = .next t) :
    (s.seq ≠ .idle ∧ t = { s with status := { s.status with cmdDropped := true } }) ∨
    (s.seq = .idle ∧ (
      t = { s with status := { s.status with errCode := .ok, cmdDropped := false } } ∨
      t = { s with status := { s.status with errCode := .illegalCmd, cmdDropped := false } } ∨
      (t = { s with status := { s.status with errCode := .notConfigured, cmdDropped := false } } ∧ s.status.configured = false) ∨
      (t = { s with status := { s.status with errCode := initValidate s, configured := false, cmdDropped := false } }) ∨
      (initValidate s = .ok ∧ t = { s with status := { s.status with errCode := .ok, busy := true, cmdDropped := false }, seq := .run .init, lat := latchConfig s, drawn := [], holding := false, finished := none }) ∨
      (s.status.configured = true ∧ t = { s with status := { s.status with errCode := .ok, busy := true, cmdDropped := false }, seq := .run .processBlock, drawn := [], holding := false, finished := none }))) := by
  by_cases hs : s.seq = .idle
  · right
    refine ⟨hs, ?_⟩
    rw [execIssue_eq_decode] at h
    have hv : ∀ b, initValidate { s with status := { s.status with cmdDropped := b } } = initValidate s := fun _ => rfl
    rcases decode_cases w with e | e | e | e <;> rw [e] at h
    · change execNop s = _ at h
      rw [execNop, takeCommand_idle _ hs] at h
      cases h
      left; rfl
    · change execInit s = _ at h
      rw [execInit, takeCommand_idle _ hs] at h
      simp only [hv] at h
      split at h
      · rename_i hok
        cases h
        right; right; right; right; left
        exact ⟨hok, rfl⟩
      · cases h
        right; right; right; left; rfl
    · change execProcessBlock s = _ at h
      rw [execProcessBlock, takeCommand_idle _ hs] at h
      dsimp only at h
      split at h
      · rename_i hc
        split at h
        · cases h
          right; right; right; right; right
          exact ⟨hc, rfl⟩
        · cases h
      · rename_i hc
        cases h
        right; right; left
        exact ⟨rfl, by simpa using hc⟩
    · change execIllegal w s = _ at h
      rw [execIllegal, takeCommand_idle _ hs] at h
      cases h
      right; left; rfl
  · left
    refine ⟨hs, ?_⟩
    rw [execIssue] at h
    split_ifs at h <;> (simp only [execIllegal, execNop, execInit, execProcessBlock, takeCommand_busy _ hs] at h; cases h; rfl)

/-- What BUS_READ can do (R190). -/
theorem read_cases (off : Offset) (w : Nat) (s t : State) (h : execBusRead off w s = .next t) :
    (∃ r, t = s.respond r) ∨ t = s.hold (.read off w) := by
  unfold execBusRead at h
  split at h
  · cases h; exact .inl ⟨_, rfl⟩
  · split at h
    · cases h; exact .inr rfl
    · cases h; exact .inl ⟨_, rfl⟩
  · cases h; exact .inl ⟨_, rfl⟩

/-- What BUS_WRITE can do (R191). -/
theorem write_cases (off : Offset) (w : Nat) (v : Word) (s t : State) (h : execBusWrite off w v s = .next t) :
    (∃ r, execIssue v (s.respond r) = .next t) ∨ (∃ r, t = s.respond r) ∨ t = s.hold (.write off w v) ∨
    (t = { s with noiseCtrl := v &&& 0x1#64 }.respond (.write false)) ∨ (t = { s with numPaths := v }.respond (.write false)) ∨
    (t = { s with snr := v }.respond (.write false)) ∨ (∃ p f, t = (s.setPathReg p f).respond (.write false)) ∨
    (∃ i, decodeOffset off = some (.sample i) ∧ t = { s with mem := writeWord s.mem (sampleOff i) v }.respond (.write false)) := by
  unfold execBusWrite at h
  split at h
  · cases h; exact .inr (.inl ⟨_, rfl⟩)
  · exact .inl ⟨_, h⟩
  · cases h; exact .inr (.inl ⟨_, rfl⟩)
  · cases h; exact .inr (.inl ⟨_, rfl⟩)
  · cases h; exact .inr (.inl ⟨_, rfl⟩)
  · cases h; exact .inr (.inl ⟨_, rfl⟩)
  · cases h; exact .inr (.inr (.inr (.inl rfl)))
  · cases h; exact .inr (.inr (.inr (.inr (.inl rfl))))
  · cases h; exact .inr (.inr (.inr (.inr (.inr (.inl rfl)))))
  · cases h; exact .inr (.inr (.inr (.inr (.inr (.inr (.inl ⟨_, _, rfl⟩))))))
  · cases h; exact .inr (.inr (.inr (.inr (.inr (.inr (.inl ⟨_, _, rfl⟩))))))
  · cases h; exact .inr (.inr (.inr (.inr (.inr (.inr (.inl ⟨_, _, rfl⟩))))))
  · rename_i i e
    split at h
    · cases h; exact .inr (.inr (.inl rfl))
    · cases h
      refine .inr (.inr (.inr (.inr (.inr (.inr (.inr ⟨i, ?_, rfl⟩))))))
      unfold admitted at e
      split at e
      · exact e
      · cases e

/-- What COMPLETE can do (R196). -/
theorem complete_cases (s t : State) (h : execComplete s = .next t) :
    (s.seq = .run .init ∧ s.finished = some .init ∧ t = completeInit s) ∨
    (∃ y n, s.seq = .run .processBlock ∧ s.finished = some (.block y n) ∧ t = completeBlock y n s) ∨ t = s := by
  unfold execComplete at h
  split at h
  · rename_i a b; cases h; exact .inl ⟨a, b, rfl⟩
  · rename_i y n a b; cases h; exact .inr (.inl ⟨y, n, a, b, rfl⟩)
  · cases h; exact .inr (.inr rfl)

/-- Choosing an instruction takes a turn or an access off its list and changes nothing else. -/
theorem fetch_run_state {s u : State} {i : Instr} (h : fetch s = .run i u) : ∃ b ts, u = { s with bus := b, turns := ts } := by
  have hs : ∀ s : State, sequencerTurn s = .run i u → u = s := by
    intro s h; unfold sequencerTurn at h; split at h <;> cases h <;> rfl
  have hh : ∀ s : State, hostTurn s = .run i u → ∃ b, u = { s with bus := b } := by
    intro s h; unfold hostTurn at h; split at h <;> cases h <;> exact ⟨_, rfl⟩
  unfold fetch at h
  split at h
  · obtain ⟨b, rfl⟩ := hh _ h; exact ⟨b, _, rfl⟩
  · rw [hs _ h]; exact ⟨s.bus, _, rfl⟩
  · cases h
  · cases h
  · cases h
  · split at h
    · rw [hs _ h]; exact ⟨s.bus, s.turns, rfl⟩
    · obtain ⟨b, rfl⟩ := hh _ h; exact ⟨b, s.turns, rfl⟩

/-- CHAN_INIT runs only as the work of a running INIT. -/
theorem fetch_chanInit {s u : State} (h : fetch s = .run .chanInit u) : s.seq = .run .init ∧ s.finished = none := by
  have hs : ∀ s : State, sequencerTurn s = .run .chanInit u → s.seq = .run .init ∧ s.finished = none := by
    intro s h; unfold sequencerTurn at h; split at h <;> cases h; exact ⟨by assumption, by assumption⟩
  have hh : ∀ s : State, hostTurn s ≠ .run .chanInit u := by
    intro s h; unfold hostTurn at h; split at h <;> cases h
  unfold fetch at h
  split at h
  · exact absurd h (hh _)
  · rename_i ts _; exact hs { s with turns := ts } h
  · cases h
  · cases h
  · cases h
  · split at h
    · exact hs _ h
    · exact absurd h (hh _)

/-- CHAN_PROCESS runs only as the work of a running PROCESS_BLOCK. -/
theorem fetch_chanProcess {s u : State} (h : fetch s = .run .chanProcess u) : s.seq = .run .processBlock ∧ s.finished = none := by
  have hs : ∀ s : State, sequencerTurn s = .run .chanProcess u → s.seq = .run .processBlock ∧ s.finished = none := by
    intro s h; unfold sequencerTurn at h; split at h <;> cases h; exact ⟨by assumption, by assumption⟩
  have hh : ∀ s : State, hostTurn s ≠ .run .chanProcess u := by
    intro s h; unfold hostTurn at h; split at h <;> cases h
  unfold fetch at h
  split at h
  · exact absurd h (hh _)
  · rename_i ts _; exact hs { s with turns := ts } h
  · cases h
  · cases h
  · cases h
  · split at h
    · exact hs _ h
    · exact absurd h (hh _)

/-- A step that runs no instruction has only its turn taken. -/
theorem fetch_other {s : State} :
    (∀ t, fetch s = .wait t → ∃ ts, t = { s with turns := ts }) ∧
    (∀ v t, fetch s = .supply v t → ∃ ts, t = { s with turns := ts }) ∧
    (∀ t, fetch s = .draw t → ∃ ts, t = { s with turns := ts }) ∧
    (∀ t, fetch s = .reset t → ∃ ts, s.turns = .reset :: ts ∧ t = { s with turns := ts }) := by
  have hs : ∀ (s : State) a, sequencerTurn s = a →
      (∀ t, a = .wait t → t = s) ∧ (∀ v t, a ≠ .supply v t) ∧ (∀ t, a ≠ .draw t) ∧ ∀ t, a ≠ .reset t := by
    intro s a h; unfold sequencerTurn at h; split at h <;> subst h <;> refine ⟨?_, ?_, ?_, ?_⟩ <;> intros <;> simp_all
  have hh : ∀ (s : State) a, hostTurn s = a →
      (∀ t, a = .wait t → t = s) ∧ (∀ v t, a ≠ .supply v t) ∧ (∀ t, a ≠ .draw t) ∧ ∀ t, a ≠ .reset t := by
    intro s a h; unfold hostTurn at h; split at h <;> subst h <;> refine ⟨?_, ?_, ?_, ?_⟩ <;> intros <;> simp_all
  have key : ∀ (u : State) (a : Action) (ts : List Turn), u = { s with turns := ts } →
      ((∀ t, a = .wait t → t = u) ∧ (∀ v t, a ≠ .supply v t) ∧ (∀ t, a ≠ .draw t) ∧ ∀ t, a ≠ .reset t) →
      (∀ t, a = .wait t → ∃ ts, t = { s with turns := ts }) ∧ (∀ v t, a = .supply v t → ∃ ts, t = { s with turns := ts }) ∧
        (∀ t, a = .draw t → ∃ ts, t = { s with turns := ts }) ∧
        ∀ t, a = .reset t → ∃ ts, s.turns = .reset :: ts ∧ t = { s with turns := ts } := by
    rintro u a ts rfl ⟨h1, h2, h3, h4⟩
    exact ⟨fun t h => ⟨ts, h1 t h⟩, fun v t h => absurd h (h2 v t), fun t h => absurd h (h3 t), fun t h => absurd h (h4 t)⟩
  unfold fetch
  split
  · rename_i ts e
    exact key _ _ ts rfl (hh _ _ rfl)
  · rename_i ts e
    exact key _ _ ts rfl (hs _ _ rfl)
  · refine ⟨fun t h => (by cases h), fun v t h => (by cases h), fun t h => (by cases h; exact ⟨_, rfl⟩), fun t h => (by cases h)⟩
  · refine ⟨fun t h => (by cases h), fun v t h => (by cases h; exact ⟨_, rfl⟩), fun t h => (by cases h), fun t h => (by cases h)⟩
  · rename_i ts e
    refine ⟨fun t h => (by cases h), fun v t h => (by cases h), fun t h => (by cases h), fun t h => (by cases h; exact ⟨_, e, rfl⟩)⟩
  · split
    · exact key _ _ s.turns rfl (hs _ _ rfl)
    · exact key _ _ s.turns rfl (hh _ _ rfl)

end Sys2Proof.Laws
end

