-- ==== Sys2Proof/Laws/Units.lean ====
section
/-! SUPPORT. Every operation of a DSP unit keeps the unit's bounds (Safety.lean), keeps the lengths of blocks, and leaves of
the RNG_IN values it was given a final part. -/

namespace Sys2Proof.Laws
open Sys2Proof Sys2Proof.Machine

/-! ### Pointers and scans -/

theorem decWrap_lt {n p : Nat} (hn : 0 < n) (h : p < n) : decWrap n p < n := by
  unfold decWrap
  split <;> omega

theorem incWrap_lt {n p : Nat} (h : p < n) : incWrap n p < n := by
  unfold incWrap
  split <;> omega

/-- A scan yields one output per input. -/
theorem scanBlock_length {σ α β : Type} (f : σ → α → β × σ) (s : σ) (xs : List α) :
    (scanBlock f s xs).1.length = xs.length := by
  induction xs generalizing s with
  | nil => rfl
  | cons x xs ih => simp [scanBlock, ih]

/-- A scan keeps what each of its steps keeps. -/
theorem scanBlock_keeps {σ α β : Type} {f : σ → α → β × σ} {P : σ → Prop} (h : ∀ s x, P s → P (f s x).2) :
    ∀ (xs : List α) (s : σ), P s → P (scanBlock f s xs).2 := by
  intro xs
  induction xs with
  | nil => intro s hs; exact hs
  | cons x xs ih => intro s hs; exact ih _ (h _ _ hs)

/-! ### The Hilbert filter -/

theorem hilbertZero_wf : hilbertZero.wf := ⟨List.length_replicate, by decide⟩

theorem hilbertSample_wf (re2 im2 : List F64) (h : Hilbert) (x : F64) (hw : h.wf) : (hilbertSample re2 im2 h x).2.wf :=
  ⟨by simpa [hilbertSample] using hw.1, decWrap_lt (by decide) hw.2⟩

theorem hilbertBlock_wf (re2 im2 : List F64) (h : Hilbert) (x : List F64) (hw : h.wf) : (hilbertBlock re2 im2 h x).2.wf :=
  scanBlock_keeps (P := Hilbert.wf) (hilbertSample_wf re2 im2) x h hw

theorem hilbertBlock_length (re2 im2 : List F64) (h : Hilbert) (x : List F64) :
    (hilbertBlock re2 im2 h x).1.length = x.length := scanBlock_length _ _ _

/-! ### The delay line -/

/-- The bounds of the delay line, the number of its taps apart. -/
def delayBounds (d : Delay) : Prop := d.buf.length = delayLen ∧ d.w < delayLen ∧ ∀ r ∈ d.r, r < delayLen

theorem delayZero_bounds : delayBounds delayZero := ⟨List.length_replicate, by decide, by simp [delayZero]⟩

theorem delayAdd_bounds (dl : Delay) (d : F64) (h : delayBounds dl) : delayBounds (delayAdd dl d) := by
  refine ⟨h.1, h.2.1, ?_⟩
  intro r hr
  simp only [delayAdd, List.mem_append, List.mem_singleton] at hr
  rcases hr with hr | rfl
  · exact h.2.2 r hr
  · have h1 : (0 : Int) < (delayLen : Int) := by decide
    have h2 := Int.emod_lt_of_pos ((dl.w : Int) - delaySamples d) h1
    have h3 := Int.emod_nonneg ((dl.w : Int) - delaySamples d) h1.ne'
    omega

theorem delayAdd_length (dl : Delay) (d : F64) : (delayAdd dl d).r.length = dl.r.length + 1 := by simp [delayAdd]

theorem foldl_delayAdd (ds : List F64) : ∀ dl : Delay, delayBounds dl →
    delayBounds (ds.foldl delayAdd dl) ∧ (ds.foldl delayAdd dl).r.length = dl.r.length + ds.length := by
  induction ds with
  | nil => intro dl h; exact ⟨h, rfl⟩
  | cons d ds ih =>
    intro dl h
    obtain ⟨a, b⟩ := ih (delayAdd dl d) (delayAdd_bounds dl d h)
    refine ⟨a, ?_⟩
    rw [List.foldl_cons, b, delayAdd_length, List.length_cons]
    omega

theorem delaySample_bounds (dl : Delay) (a : Cplx) (h : delayBounds dl) : delayBounds (delaySample dl a).2 := by
  refine ⟨by simpa [delaySample] using h.1, incWrap_lt h.2.1, ?_⟩
  intro r hr
  simp only [delaySample, List.mem_map] at hr
  obtain ⟨r', hr', rfl⟩ := hr
  exact incWrap_lt (h.2.2 r' hr')

/-- DELAY_BLOCK keeps the bounds and the taps. -/
theorem delayBlock_bounds (dl : Delay) (a : List Cplx) (h : delayBounds dl) : delayBounds (delayBlock dl a).2 :=
  scanBlock_keeps (P := delayBounds) delaySample_bounds a dl h

theorem delayBlock_ntaps (dl : Delay) (a : List Cplx) : (delayBlock dl a).2.r.length = dl.r.length :=
  scanBlock_keeps (f := delaySample) (P := fun d => d.r.length = dl.r.length)
    (fun d x hd => by simpa [delaySample] using hd) a dl rfl

theorem delayBlock_blocks (dl : Delay) (a : List Cplx) :
    (delayBlock dl a).1.length = dl.r.length ∧ ∀ t ∈ (delayBlock dl a).1, t.length = a.length := by
  constructor
  · simp [delayBlock, tapBlocks]
  · intro t ht
    simp only [delayBlock, tapBlocks, List.mem_map] at ht
    obtain ⟨k, -, rfl⟩ := ht
    simp [scanBlock_length]

/-! ### The generator -/

/-- The odd number from an integer on. -/
theorem toNat_odd_bounds {l a b : Int} (h1 : a ≤ l) (h2 : l ≤ b) (h0 : 0 < a) :
    ((if l % 2 = 0 then l + 1 else l).toNat % 2 = 1) ∧ a.toNat ≤ (if l % 2 = 0 then l + 1 else l).toNat ∧
      (if l % 2 = 0 then l + 1 else l).toNat ≤ (b + 1).toNat ∧ (b % 2 = 1 → (if l % 2 = 0 then l + 1 else l).toNat ≤ b.toNat) := by
  split <;> omega

/-- The filter length of a bandwidth between two others lies between theirs (43_gauss_rayleigh.md R121): it is odd, and the
integer above x at the upper end bounds it from below, that at the lower end from above. -/
theorem gaussLen_between {fs lo hi bw : F64} (a b : Nat) (ha : 0 < a) (hb : b % 2 = 1) (hc : positive (fmul fGaussLenK fs))
    (hlo : positive lo) (hhi : positive hi) (hf : isFinite (fdiv (fmul fGaussLenK fs) lo) = true)
    (e1 : (a : Int) ≤ fceil (fdiv (fmul fGaussLenK fs) hi)) (e2 : fceil (fdiv (fmul fGaussLenK fs) lo) ≤ (b : Int))
    (h1 : fle lo bw = true) (h2 : fle bw hi = true) : gaussLen fs bw % 2 = 1 ∧ a ≤ gaussLen fs bw ∧ gaussLen fs bw ≤ b := by
  obtain ⟨hp, m1, m2⟩ := positive_between hlo hhi h1 h2
  have hfb : isFinite (fdiv (fmul fGaussLenK fs) bw) = true := isFinite_fdiv_anti hc hlo hp m1 hf
  have u := fceil_fdiv_anti hc hlo hp m1 hf
  have l := fceil_fdiv_anti hc hp hhi m2 hfb
  obtain ⟨x1, x2, -, x4⟩ := toNat_odd_bounds (le_trans e1 l) (le_trans u e2) (by omega)
  have := x4 (by omega)
  unfold gaussLen
  dsimp only
  exact ⟨x1, by simpa using x2, by simpa using this⟩

theorem fgt_of_not_fle {a b : F64} (h : fle a b = false) (ha : isNaN a = false) (hb : isNaN b = false) : fle b a = true := by
  simp only [fle, ha, hb, Bool.not_false, Bool.true_and, decide_eq_false_iff_not, decide_eq_true_eq] at h ⊢
  omega

theorem not_nan_of_fle {a b : F64} (h : fle a b = true) : isNaN a = false ∧ isNaN b = false := by
  simp only [fle, Bool.and_eq_true, Bool.not_eq_true'] at h
  exact h.1

/-- Every admitted filter length is odd and lies in [15, 225] (R120, R122). -/
theorem gaussLen_bounds {fs bw : F64} (h : gaussDomain fs bw = true) :
    gaussLen fs bw % 2 = 1 ∧ gaussLenMin ≤ gaussLen fs bw ∧ gaussLen fs bw ≤ gaussLenMax := by
  simp only [gaussDomain, Bool.and_eq_true, beq_iff_eq] at h
  obtain ⟨⟨h1, h2⟩, rfl⟩ := h
  have hn := not_nan_of_fle h2
  unfold rateOf
  cases c1 : fle bw f0p4
  · have l1 := fgt_of_not_fle c1 hn.1 (by decide)
    cases c2 : fle bw fTwo
    · have l2 := fgt_of_not_fle c2 hn.1 (by decide)
      simp only [Bool.false_eq_true, if_false]
      exact gaussLen_between 15 225 (by decide) (by decide) (by unfold positive; decide +kernel) (by unfold positive; decide +kernel)
        (by unfold positive; decide +kernel) (by decide +kernel) (by decide +kernel) (by decide +kernel) l2 h2
    · simp only [Bool.false_eq_true, if_false, if_true]
      have := gaussLen_between (fs := f64p0) 45 225 (by decide) (by decide) (by unfold positive; decide +kernel)
        (by unfold positive; decide +kernel) (by unfold positive; decide +kernel) (by decide +kernel) (by decide +kernel)
        (by decide +kernel) l1 c2
      exact ⟨this.1, le_trans (by decide) this.2.1, this.2.2⟩
  · simp only [if_true]
    have := gaussLen_between (fs := f12p8) 45 181 (by decide) (by decide) (by unfold positive; decide +kernel)
      (by unfold positive; decide +kernel) (by unfold positive; decide +kernel) (by decide +kernel) (by decide +kernel)
      (by decide +kernel) h1 c1
    exact ⟨this.1, le_trans (by decide) this.2.1, le_trans this.2.2 (by decide)⟩

theorem gaussInit_wf {fs bw : F64} (h : gaussDomain fs bw = true) : (gaussInit fs bw).wf := by
  have b := gaussLen_bounds h
  have hm : 0 < gaussLenMin := by decide
  refine ⟨b, ?_, List.length_replicate, ?_⟩
  · simp [gaussInit, dupTable, two_mul]
  · simp only [gaussInit]
    omega

/-- What RAYLEIGH_INIT gives GAUSS_INIT is in its domain (R121, R125, R126). -/
theorem gaussDomain_clamp {sp : F64} (hf : isFinite sp = true) (h : flt (clampSpread sp) f0p1 = false) :
    gaussDomain (rateOf (clampSpread sp)).1 (clampSpread sp) = true := by
  have hz : isNaN f30 = false ∧ isNaN f0p1 = false ∧ isNaN fZero = false ∧ isNaN sp = false := by
    refine ⟨by decide, by decide, by decide, ?_⟩
    rw [isFinite, decide_eq_true_eq] at hf
    exact decide_eq_false (by omega)
  have hn : isNaN (clampSpread sp) = false := by
    unfold clampSpread
    dsimp only
    split_ifs <;> first | exact hz.1 | exact hz.2.2.1 | exact hz.2.2.2
  have h30 : fle (clampSpread sp) f30 = true := by
    unfold clampSpread
    dsimp only
    split_ifs with c1 c2 c2
    · decide
    · decide
    · decide
    · simp only [fgt, flt, fle, hz.1, hz.2.2.2, Bool.not_false, Bool.true_and, decide_eq_true_eq] at c2 ⊢
      omega
  have h1 : fle f0p1 (clampSpread sp) = true := by
    simp only [flt, fle, hn, hz.2.1, Bool.not_false, Bool.true_and, decide_eq_false_iff_not, decide_eq_true_eq] at h ⊢
    omega
  simp [gaussDomain, h30, h1]

theorem gaussApply_wf (gf : Gauss) (z : Cplx) (h : gf.wf) : (gaussApply gf z).2.wf := by
  obtain ⟨h1, h2, h3, h4⟩ := h
  have hm : 0 < gaussLenMin := by decide
  refine ⟨h1, h2, ?_, ?_⟩
  · simpa [gaussApply, firCplx] using h3
  · exact decWrap_lt (by omega) h4

theorem cnormal_nil (g : F64) : cnormal g [] = .starved := by rw [cnormal]

theorem cnormal_single (g U1 : F64) : cnormal g [U1] = if rngGood U1 then .starved else .bad := by rw [cnormal]

theorem cnormal_pair (g U1 U2 : F64) (rest : List F64) :
    cnormal g (U1 :: U2 :: rest) =
      if rngGood U1 then
        if rngGood U2 then
          match cnormalPair g U1 U2 with
          | some z => .ok z rest
          | none => cnormal g rest
        else .bad
      else .bad := by
  rfl

/-- CNORMAL leaves a final part of the values it was given. -/
theorem cnormal_suffix_of_le (g : F64) : ∀ (n : Nat) (rng : List F64), rng.length ≤ n → ∀ (z : Cplx) (rest : List F64),
    cnormal g rng = .ok z rest → rest <:+ rng := by
  intro n
  induction n with
  | zero =>
    intro rng hn z rest h
    rw [List.length_eq_zero_iff.mp (Nat.le_zero.mp hn), cnormal_nil] at h
    cases h
  | succ n ih =>
    intro rng hn z rest h
    match rng with
    | [] => rw [cnormal_nil] at h; cases h
    | [U1] =>
      rw [cnormal_single] at h
      split at h <;> cases h
    | U1 :: U2 :: r =>
      rw [cnormal_pair] at h
      split at h
      · split at h
        · split at h
          · cases h
            exact ⟨[U1, U2], rfl⟩
          · obtain ⟨p, hp⟩ := ih r (by simp only [List.length_cons] at hn; omega) z rest h
            exact ⟨U1 :: U2 :: p, by rw [← hp]; rfl⟩
        · cases h
      · cases h

theorem cnormal_suffix (g : F64) (rng : List F64) (z : Cplx) (rest : List F64) (h : cnormal g rng = .ok z rest) :
    rest <:+ rng := cnormal_suffix_of_le g _ rng le_rfl z rest h

/-- What a draw on a path can do to it: the filter moves, nothing else. -/
theorem rayleighSample_spec {q q' : Path} {z : Cplx} {rng rest : List F64} (h : rayleighSample q rng = .ok (z, q') rest) :
    rest <:+ rng ∧ ∃ gf, q' = { q with gf := gf } ∧ (q.gf.wf → gf.wf) := by
  unfold rayleighSample at h
  split at h
  · cases h
    exact ⟨List.suffix_refl _, q.gf, rfl, id⟩
  · obtain ⟨v, mid, h1, h2⟩ := bind_eq_ok h
    cases h2
    exact ⟨cnormal_suffix _ _ _ _ h1, _, rfl, fun hw => gaussApply_wf _ _ hw⟩

theorem discardSamples_spec (n : Nat) : ∀ {q q' : Path} {rng rest : List F64}, discardSamples n q rng = .ok q' rest →
    rest <:+ rng ∧ ∃ gf, q' = { q with gf := gf } ∧ (q.gf.wf → gf.wf) := by
  induction n with
  | zero =>
    intro q q' rng rest h
    cases h
    exact ⟨List.suffix_refl _, q.gf, rfl, id⟩
  | succ n ih =>
    intro q q' rng rest h
    obtain ⟨⟨z, q1⟩, mid, h1, h2⟩ := bind_eq_ok h
    obtain ⟨s1, gf1, rfl, w1⟩ := rayleighSample_spec h1
    obtain ⟨s2, gf2, rfl, w2⟩ := ih h2
    exact ⟨s2.trans s1, gf2, rfl, fun hw => w2 (w1 hw)⟩

theorem rateOf_stage (s : F64) : (rateOf s).2 ≤ 2 := by
  unfold rateOf
  split
  · exact Nat.zero_le _
  · split
    · exact (by decide : (1 : Nat) ≤ 2)
    · exact le_refl 2

/-- RAYLEIGH_INIT of a finite spread keeps the stages and the counter, and leaves a good filter and stage number. -/
theorem rayleighInit_spec {q q' : Path} {sp gc : F64} {rng rest : List F64} (h : rayleighInit q sp gc rng = .ok q' rest) :
    rest <:+ rng ∧ q'.ups = q.ups ∧ q'.mIndex = q.mIndex ∧ (isFinite sp = true → q.gf.wf → q'.gf.wf) ∧ (q.s0 ≤ 2 → q'.s0 ≤ 2) := by
  unfold rayleighInit at h
  dsimp only at h
  split at h
  · cases h
    refine ⟨List.suffix_refl _, ?_⟩
    unfold rayleighConfigure
    dsimp only
    split
    · exact ⟨rfl, rfl, fun _ => id, id⟩
    · rename_i hc
      exact ⟨rfl, rfl, fun hf _ => gaussInit_wf (gaussDomain_clamp hf (by simpa using hc)), fun _ => rateOf_stage _⟩
  · obtain ⟨s1, gf, rfl, w⟩ := discardSamples_spec _ h
    refine ⟨s1, ?_⟩
    unfold rayleighConfigure at w ⊢
    dsimp only at w ⊢
    split at w
    · rename_i hc
      simp only [hc, if_true]
      exact ⟨trivial, trivial, fun _ => w, id⟩
    · rename_i hc
      simp only [hc, Bool.false_eq_true, if_false]
      exact ⟨trivial, trivial, fun hf _ => w (gaussInit_wf (gaussDomain_clamp hf (by simpa using hc))), fun _ => rateOf_stage _⟩

/-! ### The path -/

theorem upsInit_wf (rate : Nat) : Ups.wf rate (upsInit rate) := ⟨rfl, List.length_replicate, show (49 : Nat) < 50 by decide⟩

theorem upsInsert_wf {rate : Nat} {u : Ups} (v : Cplx) (h : Ups.wf rate u) : Ups.wf rate (upsInsert u v) :=
  ⟨h.1, by simpa [upsInsert] using h.2.1, h.2.2⟩

theorem upsUpsample_wf {rate : Nat} {u : Ups} (table : List F64) (h : Ups.wf rate u) : Ups.wf rate (upsUpsample table u).2 :=
  ⟨h.1, h.2.1, decWrap_lt (by decide) h.2.2⟩

theorem stageRates_map_upsInit : List.Forall₂ Ups.wf stageRates (stageRates.map upsInit) := by
  simp only [stageRates, List.map_cons, List.map_nil]
  exact .cons (upsInit_wf _) (.cons (upsInit_wf _) (.cons (upsInit_wf _) (.cons (upsInit_wf _) .nil)))

/-- Replacing one stage by one with the same bounds keeps the cascade's. -/
theorem forall2_set {rates : List Nat} {us : List Ups} (h : List.Forall₂ Ups.wf rates us) (t : Nat) (u u' : Ups)
    (hu : us[t]? = some u) (hw : ∀ rate, Ups.wf rate u → Ups.wf rate u') : List.Forall₂ Ups.wf rates (us.set t u') := by
  induction h generalizing t with
  | nil => simp at hu
  | cons h1 h2 ih =>
    cases t with
    | zero =>
      simp only [List.getElem?_cons_zero, Option.some.injEq] at hu
      subst hu
      exact .cons (hw _ h1) h2
    | succ t =>
      simp only [List.getElem?_cons_succ] at hu
      exact .cons h1 (ih t hu)

theorem setStage_wf {q : Path} (h : q.wf) (t : Nat) (u u' : Ups) (hu : q.ups[t]? = some u)
    (hw : ∀ rate, Ups.wf rate u → Ups.wf rate u') : (q.setStage t u').wf :=
  ⟨h.1, h.2.1, h.2.2.1, forall2_set h.2.2.2 t u u' hu hw⟩

theorem rayleighSample_wf {q q' : Path} {z : Cplx} {rng rest : List F64} (h : rayleighSample q rng = .ok (z, q') rest)
    (hw : q.wf) : q'.wf := by
  obtain ⟨-, gf, rfl, w⟩ := rayleighSample_spec h
  exact ⟨w hw.1, hw.2⟩

theorem stageInput_spec {table : List F64} {q q' : Path} {t : Nat} {z : Cplx} {rng rest : List F64}
    (h : stageInput table q t rng = .ok (z, q') rest) (hw : q.wf) : rest <:+ rng ∧ q'.wf := by
  unfold stageInput at h
  split at h
  · exact ⟨(rayleighSample_spec h).1, rayleighSample_wf h hw⟩
  · split at h
    · rename_i u hu
      cases h
      exact ⟨List.suffix_refl _, setStage_wf hw _ u _ hu fun _ hr => upsUpsample_wf table hr⟩
    · cases h
      exact ⟨List.suffix_refl _, hw⟩

theorem stageStep_spec {table : List F64} {q q' : Path} {t : Nat} {rng rest : List F64}
    (h : stageStep table q t rng = .ok q' rest) (hw : q.wf) : rest <:+ rng ∧ q'.wf := by
  unfold stageStep at h
  split at h
  · rename_i u hu
    split at h
    · obtain ⟨⟨z, q1⟩, mid, h1, h2⟩ := bind_eq_ok h
      obtain ⟨s1, w1⟩ := stageInput_spec h1 hw
      cases h2
      refine ⟨s1, w1.1, w1.2.1, w1.2.2.1, ?_⟩
      by_cases hlt : t < q1.ups.length
      · -- the inserted stage is the one read before its input was taken
        have hrate : ∀ rate, stageRates[t]? = some rate → Ups.wf rate u := by
          intro rate hr
          have := List.forall₂_iff_get.mp hw.2.2.2
          obtain ⟨hl, hg⟩ := this
          obtain ⟨ht1, e1⟩ := List.getElem?_eq_some_iff.mp hr
          obtain ⟨ht2, e2⟩ := List.getElem?_eq_some_iff.mp hu
          have := hg t ht1 ht2
          simp only [List.get_eq_getElem, e1, e2] at this
          exact this
        rw [List.forall₂_iff_get]
        obtain ⟨hl, hg⟩ := List.forall₂_iff_get.mp w1.2.2.2
        refine ⟨by simpa [Path.setStage] using hl, ?_⟩
        intro i hi1 hi2
        simp only [List.get_eq_getElem, Path.setStage, List.getElem_set]
        split
        · rename_i e
          subst e
          exact upsInsert_wf _ (hrate _ (by simp [List.getElem?_eq_getElem hi1]))
        · have := hg i hi1 (by simpa [Path.setStage] using hi2)
          simpa using this
      · rw [show (q1.setStage t (upsInsert u z)).ups = q1.ups from List.set_eq_of_length_le (by omega)]
        exact w1.2.2.2
    · cases h
      exact ⟨List.suffix_refl _, hw⟩
  · cases h
    exact ⟨List.suffix_refl _, hw⟩

theorem cascade_spec {table : List F64} (ts : List Nat) : ∀ {q q' : Path} {rng rest : List F64},
    cascade table ts q rng = .ok q' rest → q.wf → rest <:+ rng ∧ q'.wf := by
  induction ts with
  | nil =>
    intro q q' rng rest h hw
    cases h
    exact ⟨List.suffix_refl _, hw⟩
  | cons t ts ih =>
    intro q q' rng rest h hw
    obtain ⟨q1, mid, h1, h2⟩ := bind_eq_ok h
    obtain ⟨s1, w1⟩ := stageStep_spec h1 hw
    obtain ⟨s2, w2⟩ := ih h2 w1
    exact ⟨s2.trans s1, w2⟩

theorem fadingFactor_spec {table : List F64} {q q' : Path} {z : Cplx} {rng rest : List F64}
    (h : fadingFactor table q rng = .ok (z, q') rest) (hw : q.wf) : rest <:+ rng ∧ q'.wf := by
  unfold fadingFactor at h
  split at h
  · cases h
    exact ⟨List.suffix_refl _, hw⟩
  · obtain ⟨q1, mid, h1, h2⟩ := bind_eq_ok h
    obtain ⟨s1, w1⟩ := cascade_spec _ h1 hw
    unfold fadingOut at h2
    split at h2
    · rename_i u hu
      cases h2
      exact ⟨s1, setStage_wf w1 _ u _ hu fun _ hr => upsUpsample_wf table hr⟩
    · cases h2
      exact ⟨s1, w1⟩

theorem nextMIndex_lt {m : Nat} (h : m < mPeriod) : nextMIndex m < mPeriod := by
  unfold nextMIndex
  split
  · decide
  · omega

theorem pathSample_spec {table : List F64} {q q' : Path} {x y : Cplx} {rng rest : List F64}
    (h : pathSample table q x rng = .ok (y, q') rest) (hw : q.wf) : rest <:+ rng ∧ q'.wf := by
  obtain ⟨⟨f, q1⟩, mid, h1, h2⟩ := bind_eq_ok h
  obtain ⟨s1, w1⟩ := fadingFactor_spec h1 hw
  cases h2
  exact ⟨s1, w1.1, w1.2.1, nextMIndex_lt w1.2.2.1, w1.2.2.2⟩

/-- PATH_CALC keeps the path's bounds and the length of the block. -/
theorem pathCalc_spec {table : List F64} (x : List Cplx) : ∀ {q q' : Path} {y : List Cplx} {rng rest : List F64},
    pathCalc table q x rng = .ok (y, q') rest → q.wf → rest <:+ rng ∧ q'.wf ∧ y.length = x.length := by
  induction x with
  | nil =>
    intro q q' y rng rest h hw
    cases h
    exact ⟨List.suffix_refl _, hw, rfl⟩
  | cons a x ih =>
    intro q q' y rng rest h hw
    obtain ⟨⟨b, q1⟩, mid, h1, h2⟩ := bind_eq_ok h
    obtain ⟨⟨ys, q2⟩, mid2, h3, h4⟩ := bind_eq_ok h2
    obtain ⟨s1, w1⟩ := pathSample_spec h1 hw
    obtain ⟨s2, w2, l2⟩ := ih h3 w1
    cases h4
    exact ⟨s2.trans s1, w2, by simp [l2]⟩

/-- PATH_INIT of a finite spread leaves a path within its bounds if its filter and stage number were. -/
theorem pathInit_spec {P : Nat} {sp off : F64} {q q' : Path} {rng rest : List F64}
    (h : pathInit P sp off q rng = .ok q' rest) (hf : isFinite sp = true) (hg : q.gf.wf) (hs : q.s0 ≤ 2) : rest <:+ rng ∧ q'.wf := by
  obtain ⟨q1, mid, h1, h2⟩ := bind_eq_ok h
  obtain ⟨s1, e1, -, w1, w2⟩ := rayleighInit_spec h1
  cases h2
  refine ⟨s1, w1 hf hg, w2 hs, show 0 < mPeriod by decide, ?_⟩
  show List.Forall₂ Ups.wf stageRates q1.ups
  rw [e1]
  exact stageRates_map_upsInit

/-! ### The noise generator -/

theorem noiseInit_wf (bl : Bool) : (noiseInit bl).wf := ⟨List.length_replicate, show (58 : Nat) < 59 by decide⟩

theorem noiseShape_wf (re2 : List F64) (nz : Noise) (v : F64) (h : nz.wf) : (noiseShape re2 nz v).2.wf := by
  unfold noiseShape
  split
  · exact ⟨by simpa [noiseFir, firReal] using h.1, decWrap_lt (by decide) h.2⟩
  · exact h

/-- NOISE_ADD keeps the bounds and the length of the block. -/
theorem noisePairs_spec {re2 : List F64} {sg sn : F64} : ∀ (nz : Noise) (buf rng : List F64) (y : List F64) (nz' : Noise)
    (rest : List F64), noisePairs re2 sg sn nz buf rng = .ok (y, nz') rest → nz.wf →
    rest <:+ rng ∧ nz'.wf ∧ y.length = buf.length := by
  intro nz buf rng
  induction nz, buf, rng using noisePairs.induct (re2 := re2) with
  | case1 nz b0 b1 bs rng ih =>
    intro y nz' rest h hw
    rw [noisePairs] at h
    obtain ⟨z, mid, h1, h2⟩ := bind_eq_ok h
    obtain ⟨⟨ys, nz1⟩, mid2, h3, h4⟩ := bind_eq_ok h2
    obtain ⟨s1, w1, l1⟩ := ih z mid _ _ _ h3 (noiseShape_wf _ _ _ (noiseShape_wf _ _ _ hw))
    cases h4
    exact ⟨s1.trans (cnormal_suffix _ _ _ _ h1), w1, by simp [l1]⟩
  | case2 nz bs rng hne =>
    intro y nz' rest h hw
    rw [noisePairs] at h
    · cases h
      exact ⟨List.suffix_refl _, hw, rfl⟩
    · exact hne

end Sys2Proof.Laws
end

