-- ==== Sys2Proof/Laws/Work.lean ====
section
/-! SUPPORT. What the work of INIT and of PROCESS_BLOCK can do (46_channel_commands.md R181, R182): it keeps the bounds of every
unit, keeps the length of the block, and leaves of the RNG_IN values it was given a final part. -/

namespace Sys2Proof.Laws
open Sys2Proof Sys2Proof.Machine

/-- Every latched spread is finite, and so is the value read where there is none. -/
theorem spreadOf_finite {l : Latched} (h : l.valid) (p : Nat) : isFinite (l.spreadOf p) = true := by
  unfold Latched.spreadOf
  rw [List.getD_eq_getElem?_getD]
  cases e : l.spreadRaw[p]? with
  | none => decide
  | some v => exact h.2.1 v (List.mem_of_getElem? e)

theorem initPaths_spec {l : Latched} (n : Nat) : ∀ {p : Nat} {qs qs' : List Path} {rng rest : List F64},
    initPaths l p n qs rng = .ok qs' rest → (∀ p, isFinite (l.spreadOf p) = true) → (∀ q ∈ qs, q.wf) →
      rest <:+ rng ∧ qs'.length = qs.length ∧ ∀ q ∈ qs', q.wf := by
  induction n with
  | zero =>
    intro p qs qs' rng rest h hf hw
    rw [initPaths] at h
    cases h
    exact ⟨List.suffix_refl _, rfl, hw⟩
  | succ n ih =>
    intro p qs qs' rng rest h hf hw
    match qs with
    | [] =>
      rw [initPaths] at h
      cases h
      exact ⟨List.suffix_refl _, rfl, hw⟩
    | q :: qs =>
      rw [initPaths] at h
      obtain ⟨q1, mid, h1, h2⟩ := bind_eq_ok h
      obtain ⟨qs1, mid2, h3, h4⟩ := bind_eq_ok h2
      have hq := hw q (by simp)
      obtain ⟨s1, w1⟩ := pathInit_spec h1 (hf p) hq.1 hq.2.1
      obtain ⟨s2, l2, w2⟩ := ih h3 hf fun q hq => hw q (by simp [hq])
      cases h4
      refine ⟨s2.trans s1, by simp [l2], ?_⟩
      intro q hq
      rcases List.mem_cons.mp hq with rfl | hq
      · exact w1
      · exact w2 q hq

/-- CHAN_INIT keeps the bounds of the filter, of the delay line and of every path. -/
theorem chanInitWork_spec {s : State} {hil : Hilbert} {dl : Delay} {qs : List Path} {rng rest : List F64}
    (h : chanInitWork s rng = .ok (hil, dl, qs) rest) (hw : s.unitsWf) (hv : s.lat.valid) :
    rest <:+ rng ∧ hil.wf ∧ dl.wf ∧ qs.length = 32 ∧ ∀ q ∈ qs, q.wf := by
  obtain ⟨wh, wd, wl, wp, wn, wlat⟩ := hw
  unfold chanInitWork at h
  split at h
  · cases h
    exact ⟨List.suffix_refl _, wh, wd, wl, wp⟩
  · rename_i hP
    obtain ⟨qs1, mid, h1, h2⟩ := bind_eq_ok h
    obtain ⟨s1, l1, w1⟩ := initPaths_spec _ h1 (spreadOf_finite hv) wp
    cases h2
    obtain ⟨b, n⟩ := foldl_delayAdd (s.lat.delayMs.drop 1) delayZero delayZero_bounds
    refine ⟨s1, hilbertZero_wf, ⟨b.1, b.2.1, b.2.2, ?_⟩, by rw [l1, wl], w1⟩
    have hz : delayZero.r.length = 0 := rfl
    have := wlat.2.2.2.1
    have := wlat.1
    rw [n, hz, List.length_drop]
    omega

theorem runPaths_nil (table : List F64) (qs : List Path) (rng : List F64) : runPaths table qs [] rng = .ok ([], qs) rng := by
  cases qs <;> rw [runPaths] <;> simp

theorem runPaths_spec {table : List F64} {n : Nat} : ∀ {qs : List Path} {xs : List (List Cplx)} {ys : List (List Cplx)}
    {qs' : List Path} {rng rest : List F64}, runPaths table qs xs rng = .ok (ys, qs') rest → (∀ q ∈ qs, q.wf) →
      (∀ x ∈ xs, x.length = n) →
      rest <:+ rng ∧ qs'.length = qs.length ∧ (∀ q ∈ qs', q.wf) ∧ ∀ y ∈ ys, y.length = n := by
  intro qs
  induction qs with
  | nil =>
    intro xs ys qs' rng rest h hw hx
    rw [runPaths] at h
    · cases h
      exact ⟨List.suffix_refl _, rfl, hw, by simp⟩
    · simp
  | cons q qs ih =>
    intro xs ys qs' rng rest h hw hx
    match xs with
    | [] =>
      rw [runPaths_nil] at h
      cases h
      exact ⟨List.suffix_refl _, rfl, hw, by simp⟩
    | x :: xs =>
      rw [runPaths] at h
      obtain ⟨⟨y, q1⟩, mid, h1, h2⟩ := bind_eq_ok h
      obtain ⟨⟨t, qs1⟩, mid2, h3, h4⟩ := bind_eq_ok h2
      obtain ⟨s1, w1, l1⟩ := pathCalc_spec _ h1 (hw q (by simp))
      obtain ⟨s2, l2, w2, n2⟩ := ih h3 (fun q hq => hw q (by simp [hq])) (fun x hx' => hx x (by simp [hx']))
      cases h4
      refine ⟨s2.trans s1, by simp [l2], ?_, ?_⟩
      · intro q hq
        rcases List.mem_cons.mp hq with rfl | hq
        · exact w1
        · exact w2 q hq
      · intro y hy
        rcases List.mem_cons.mp hy with rfl | hy
        · rw [l1]; exact hx x (by simp)
        · exact n2 y hy

/-- Each input block yields one output block, if there is a path for it. -/
theorem runPaths_count {table : List F64} : ∀ {qs : List Path} {xs : List (List Cplx)} {ys : List (List Cplx)} {qs' : List Path}
    {rng rest : List F64}, runPaths table qs xs rng = .ok (ys, qs') rest → xs.length ≤ qs.length → ys.length = xs.length := by
  intro qs
  induction qs with
  | nil =>
    intro xs ys qs' rng rest h hl
    rw [runPaths] at h
    · cases h
      simp only [List.length_nil, Nat.le_zero] at hl
      simp [hl]
    · simp
  | cons q qs ih =>
    intro xs ys qs' rng rest h hl
    match xs with
    | [] =>
      rw [runPaths_nil] at h
      cases h
      rfl
    | x :: xs =>
      rw [runPaths] at h
      obtain ⟨⟨y, q1⟩, mid, h1, h2⟩ := bind_eq_ok h
      obtain ⟨⟨t, qs1⟩, mid2, h3, h4⟩ := bind_eq_ok h2
      cases h4
      simp only [List.length_cons] at hl ⊢
      rw [ih h3 (by omega)]

theorem pathAccumulate_length {n : Nat} {ys : List (List Cplx)} (hne : ys ≠ []) (h : ∀ y ∈ ys, y.length = n) :
    (pathAccumulate ys).length = n := by
  match ys with
  | [] => exact absurd rfl hne
  | y0 :: ys =>
    have key : ∀ (l : List (List Cplx)) (acc : List F64), acc.length = n → (∀ y ∈ l, y.length = n) →
        (l.foldl (fun acc y => List.zipWith fadd acc (y.map Cplx.re)) acc).length = n := by
      intro l
      induction l with
      | nil => intro acc ha _; exact ha
      | cons y l ih =>
        intro acc ha hl
        refine ih _ ?_ fun y hy => hl y (by simp [hy])
        rw [List.length_zipWith, List.length_map, ha, hl y (by simp), Nat.min_self]
    exact key ys _ (by simpa using h y0 (by simp)) fun y hy => h y (by simp [hy])

theorem readBlock_length (s : State) : (readBlock s).length = blockLen := by simp [readBlock]

/-- Step 2 of PROCESS_BLOCK keeps the bounds of the units and the length of the block. -/
theorem pathBank_spec {s : State} {x : List F64} {b : BankOut} {rng rest : List F64} (h : pathBank s x rng = .ok b rest)
    (hw : s.unitsWf) :
    rest <:+ rng ∧ b.hil.wf ∧ b.dl.wf ∧ b.paths.length = 32 ∧ (∀ q ∈ b.paths, q.wf) ∧ b.y.length = x.length := by
  obtain ⟨wh, wd, wl, wp, wn, wlat⟩ := hw
  unfold pathBank at h
  split at h
  · cases h
    exact ⟨List.suffix_refl _, wh, wd, wl, wp, rfl⟩
  · rename_i hd
    dsimp only at h
    obtain ⟨⟨ys, qs⟩, mid, h1, h2⟩ := bind_eq_ok h
    cases h2
    have hP : s.lat.P ≠ 0 := by
      intro hP
      rw [wlat.2.1, hP] at hd
      exact hd rfl
    have hmax : maxPaths ≤ 32 := by
      have := Config.maxPathsPred.isLt
      unfold maxPaths
      omega
    have ha := hilbertBlock_length hre2 him2 s.hil x
    have hb := delayBlock_blocks s.dl (hilbertBlock hre2 him2 s.hil x).1
    have hlen : ∀ t ∈ ((hilbertBlock hre2 him2 s.hil x).1 :: (delayBlock s.dl (hilbertBlock hre2 him2 s.hil x).1).1).take s.lat.P,
        t.length = x.length := by
      intro t ht
      rcases List.mem_cons.mp (List.mem_of_mem_take ht) with rfl | ht
      · exact ha
      · rw [hb.2 t ht, ha]
    obtain ⟨s1, l1, w1, n1⟩ := runPaths_spec h1 wp hlen
    have hc := runPaths_count h1 (by
      rw [wl]
      exact le_trans (List.length_take_le _ _) (le_trans wlat.1 hmax))
    have hbd := delayBlock_bounds s.dl (hilbertBlock hre2 him2 s.hil x).1 ⟨wd.1, wd.2.1, wd.2.2.1⟩
    have hnt := delayBlock_ntaps s.dl (hilbertBlock hre2 him2 s.hil x).1
    refine ⟨s1, hilbertBlock_wf _ _ _ _ wh, ⟨hbd.1, hbd.2.1, hbd.2.2, by rw [hnt]; exact wd.2.2.2⟩, by rw [l1, wl], w1, ?_⟩
    refine pathAccumulate_length ?_ n1
    intro h0
    rw [show ys = [] from h0] at hc
    simp only [List.length_nil, List.length_take, List.length_cons] at hc
    omega

theorem noiseStage_spec {s : State} {sg nr : F64} {y y' : List F64} {nz : Noise} {rng rest : List F64}
    (h : noiseStage s sg nr y rng = .ok (y', nz) rest) (hw : s.nz.wf) : rest <:+ rng ∧ nz.wf ∧ y'.length = y.length := by
  unfold noiseStage at h
  split at h
  · exact noisePairs_spec _ _ _ _ _ _ h hw
  · cases h
    exact ⟨List.suffix_refl _, hw, rfl⟩

/-- CHAN_PROCESS keeps the bounds of the units and yields 2048 samples. -/
theorem chanProcessWork_spec {s : State} {o : ProcessOut} {rng rest : List F64} (h : chanProcessWork s rng = .ok o rest)
    (hw : s.unitsWf) :
    rest <:+ rng ∧ o.bank.hil.wf ∧ o.bank.dl.wf ∧ o.bank.paths.length = 32 ∧ (∀ q ∈ o.bank.paths, q.wf) ∧ o.nz.wf ∧
      o.y.length = blockLen := by
  unfold chanProcessWork at h
  dsimp only at h
  obtain ⟨b, mid, h1, h2⟩ := bind_eq_ok h
  obtain ⟨⟨y, nz⟩, mid2, h3, h4⟩ := bind_eq_ok h2
  cases h4
  obtain ⟨s1, a1, a2, a3, a4, a5⟩ := pathBank_spec h1 hw
  obtain ⟨s2, n1, n2⟩ := noiseStage_spec h3 hw.2.2.2.2.1
  exact ⟨s2.trans s1, a1, a2, a3, a4, n1, by rw [n2, a5, readBlock_length]⟩

end Sys2Proof.Laws
end

