-- ==== Sys2Proof/Machine/HostProgram.lean ====
section
/-! DEFINITION. The host program notation of 30_encoding.md R90–R96, as lists of bus accesses and RNG_IN values. -/

namespace Sys2Proof.Machine
open Sys2Proof

/-- A line of a host program (R90–R95). -/
inductive HostOp where
  | wr (off : Offset) (v : Word)
  | rd (off : Offset)
  | cmd (w : Word)
  | waitIdle
  | loadblk (x : List F64)
  | storeblk
  | rng (vs : List F64)
deriving DecidableEq, Repr

/-- The offset of SAMPLE_BUF[i] as a bus offset (R90). -/
def sampleOffset (i : Nat) : Offset := BitVec.ofNat 17 (sampleOff i)

/-- The offsets of the path registers (R90; 10_state.md R29–R31). -/
def delayOffset (p : Nat) : Offset := BitVec.ofNat 17 (0x100 + 0x20 * p)

def spreadOffset (p : Nat) : Offset := BitVec.ofNat 17 (0x108 + 0x20 * p)

def offsetOffset (p : Nat) : Offset := BitVec.ofNat 17 (0x110 + 0x20 * p)

/-- The bus accesses of a line (R92–R94, R96). -/
def expandOp : HostOp → List BusAccess
  | .wr off v => [.write off 8 v]
  | .rd off => [.read off 8]
  | .cmd w => [.write 0x00000#17 8 w]
  | .waitIdle => [.poll]
  | .loadblk x => (x.zipIdx.take blockLen).map fun vi => .write (sampleOffset vi.2) 8 vi.1
  | .storeblk => (List.range blockLen).map fun i => .read (sampleOffset i) 8
  | .rng _ => []

/-- The RNG_IN values of a line (R95). -/
def rngOfOp : HostOp → List F64
  | .rng vs => vs
  | _ => []

/-- A state with a host program still to run, after what the host still has to do. The program's RNG values are supplied in order
before its accesses are made, each in a step of its own, so that each ends a hold (10_state.md R36) and a bad one is BAD_RNG
whether it would be drawn or not (60_exceptions.md R210). -/
def State.withProgram (s : State) (ops : List HostOp) : State :=
  { s with bus := s.bus ++ ops.flatMap expandOp, turns := s.turns ++ (ops.flatMap rngOfOp).map .supply }

end Sys2Proof.Machine
end

