-- ==== Sys2Proof/Tests/Slice0.lean ====
section
/-! SUPPORT. Tests against 95_test_vectors.md and the rules, and for every statement with hypotheses a state that meets them. -/

namespace Sys2Proof.Tests
open Sys2Proof Sys2Proof.Machine Sys2Proof.Claims Sys2Proof.Laws

/-- What the next state shows, if there is one. -/
def see {α : Type} (o : Outcome) (f : State → α) : Option α :=
  match o with
  | .next t => some (f t)
  | .fault _ => none
  | .refused _ => none

/-- The fault, if it is one. -/
def stopOf (o : Outcome) : Option Fault :=
  match o with
  | .next _ => none
  | .fault f => some f
  | .refused _ => none

/-- The values left on RNG_IN. -/
def left {α : Type} : RngResult α → Option (List F64)
  | .ok _ rest => some rest
  | .starved => none
  | .bad => none

/-- A decimal, as the spec's literals are read (D47). -/
def dec (num den : Nat) : F64 := fofRat num den

/-- Reset, with the configuration of P paths latched and nothing else done. -/
def latchedPaths (P : Nat) (spread : F64) : State :=
  { State.reset with
    lat := ⟨P, P == 0, false, fZero, true, List.replicate P fZero, List.replicate P spread, List.replicate P fZero⟩ }

/-- One path without spread. -/
def onePath : State := latchedPaths 1 fZero

/-- A path in spread mode at 320 Hz, its cascade empty. -/
def fading : Machine.Path := { Path.reset with nospread := false, s0 := 2, ups := stageRates.map upsInit, g := fOne }

/-- One path, in spread mode. -/
def fadingState : State := { onePath with paths := onePath.paths.set 0 fading }

/-- A block of one value. -/
def flatBlock (v : F64) : List F64 := List.replicate 2048 v

/-- SAMPLE_BUF written with zeros. -/
def filled : State := { State.reset with mem := writeBlock [] (flatBlock fZero) }

/-- A command runs. -/
def running (c : Command) : State := { State.reset with seq := .run c, status := { Status.reset with busy := true } }

/-! ### Well-formedness: each check refuses an ill-formed term -/

theorem test_wf_illegal : (Instr.illegal 0#64).wf = false ∧ (Instr.illegal 1#64).wf = false ∧ (Instr.illegal 2#64).wf = false ∧
    (Instr.illegal 3#64).wf = true := by decide

theorem test_wf_path_index (z : Cplx) (x : List Cplx) : (Instr.firApply (.gauss 32 z)).wf = false ∧
    (Instr.gaussInit 32 f64p0 fOne).wf = false ∧ (Instr.gaussApply 32 z).wf = false ∧ (Instr.rayleighInit 32 fOne fOne).wf = false ∧
    (Instr.rayleighSample 32).wf = false ∧ (Instr.upsInit 32 0 625).wf = false ∧ (Instr.upsInsertAt 32 0 0).wf = false ∧
    (Instr.upsInsert 32 0 z).wf = false ∧ (Instr.upsUpsample 32 0).wf = false ∧ (Instr.pathInit 32).wf = false ∧
    (Instr.ncoStep 32).wf = false ∧ (Instr.pathCalc 32 x).wf = false := by
  have h : ¬ 32 < maxPaths := by unfold maxPaths; omega
  simp [Instr.wf, h]

theorem test_wf_blocks : (Instr.hilbertFilterBlock [fZero]).wf = false ∧ (Instr.delayBlock [czero]).wf = false ∧
    (Instr.noiseAdd [fZero] fOne fOne).wf = false ∧ (Instr.blockRmsUpdate []).wf = false ∧ (Instr.pathAccumulate []).wf = false ∧
    (Instr.pathAccumulate [[czero]]).wf = false ∧ (Instr.blockRmsUpdate (flatBlock fOne)).wf = true := by decide +kernel

theorem test_wf_path_block : (Instr.pathCalc 0 [czero]).wf = false := by simp [Instr.wf, isBlock, blockLen]

theorem test_wf_delay : (Instr.delayAdd (fneg fOne)).wf = false ∧ (Instr.delayAdd (dec 500000001 10000000)).wf = false ∧
    (Instr.delayAdd 0x7FF8000000000000#64).wf = false ∧ (Instr.delayAdd f50).wf = true := by decide +kernel

/-- A rate that is none of the three, bandwidths outside [0.1, 30.0], and rates R126 does not pair with the bandwidth. -/
theorem test_wf_gauss : gaussDomain f8000 fOne = false ∧ gaussDomain f64p0 (dec 5 100) = false ∧
    gaussDomain f320 (dec 31 1) = false ∧ gaussDomain f320 f0p1 = false ∧ gaussDomain f12p8 f30 = false ∧
    gaussDomain f64p0 f0p4 = false ∧ gaussDomain f12p8 f0p1 = true ∧ gaussDomain f64p0 fTwo = true ∧
    gaussDomain f320 f30 = true := by decide +kernel

theorem test_wf_spread : (Instr.rayleighInit 0 0x7FF0000000000000#64 fOne).wf = false := by
  have h : isFinite 0x7FF0000000000000#64 = false := by decide
  simp [Instr.wf, h]

theorem test_wf_stage (z : Cplx) : isStageRate 0 5 = false ∧ isStageRate 4 5 = false ∧ isStageRate 3 5 = true ∧
    (Instr.upsInit 0 0 5).wf = false ∧ (Instr.upsInsertAt 0 4 0).wf = false ∧ (Instr.upsInsertAt 0 0 1280000).wf = false ∧
    (Instr.upsInsert 0 4 z).wf = false ∧ (Instr.upsUpsample 0 4).wf = false := by
  have h : isStageRate 0 5 = false := by decide
  refine ⟨h, by decide, by decide, ?_, ?_, ?_, ?_, ?_⟩ <;> simp [Instr.wf, h, mPeriod]

/-! ### Decoding (30_encoding.md R82), the words written out -/

theorem test_decode_nop : decodeTableWord 64 0b0 = some .nop := by decide

theorem test_decode_init : decodeTableWord 64 0b1 = some .init := by decide

theorem test_decode_processBlock : decodeTableWord 64 0b10 = some .processBlock := by decide

theorem test_decode_illegal : decodeTableWord 64 0b11 = some (.illegal 0x3#64) ∧
    decodeTableWord 64 0x100 = some (.illegal 0x100#64) ∧
    decodeTableWord 64 0x8000000000000002 = some (.illegal 0x8000000000000002#64) := by decide

theorem test_decode_width : decodeBytes [0x01#8, 0x00#8, 0x00#8, 0x00#8] = .error (.wrongWidth 4) := by rfl

/-- INIT taken, for the tests that cannot evaluate MAX_PATHS. -/
theorem init_taken (s : State) (h : s.seq = .idle) : execInit s =
    if initValidate s = .ok then
      .next (startCommand .init { s with status := { s.status with cmdDropped := false }, lat := latchConfig s })
    else .next { s with status := { s.status with cmdDropped := false, errCode := initValidate s, configured := false } } := by
  rw [execInit, takeCommand_idle _ h]
  rfl

/-- A configuration without paths and without noise passes. -/
theorem initValidate_zero (s : State) (h1 : s.numPaths = 0#64) (h2 : s.noiseCtrl = 0#64) : initValidate s = .ok := by
  simp [initValidate, h1, h2]

/-- INIT, placed where the next step takes it, is the first instruction to run. -/
theorem test_fetch_word : see (step (State.reset.withFetchWord 64 1)) (fun t => (t.seq, t.status.busy)) = some (.run .init, true) := by
  have e : step (State.reset.withFetchWord 64 1) = execInit (State.reset.respond (.write false)) := rfl
  rw [e, init_taken _ rfl, if_pos (initValidate_zero _ rfl rfl)]
  rfl

/-! ### The literals and the arithmetic (00_scope.md R5, R9, D47) -/

theorem test_literals : f0p05 = dec 5 100 ∧ f0p95 = dec 95 100 ∧ f0p1 = dec 1 10 ∧ f0p4 = dec 4 10 ∧ fKEnb = dec 6267 10000 ∧
    fNoiseComp = dec 110 100 ∧ fGaussLenK = dec 14 10 ∧ f12p8 = dec 128 10 ∧ f64p0 = dec 64 1 ∧ f320 = dec 320 1 ∧
    f30 = dec 30 1 ∧ f50 = dec 50 1 ∧ f2048 = dec 2048 1 ∧ f8000 = dec 8000 1 ∧ fTwo = dec 2 1 ∧ fFour = dec 4 1 ∧
    fEight = dec 8 1 ∧ fPi = dec 3141592653589793 1000000000000000 ∧ fTwoPi = fmul fTwo fPi := by decide +kernel

/-- 95_test_vectors.md V-S1 and V-R1: 1e16 + 1.0 rounds to 1e16, and 0.95 · (9 · 2^−1074) to itself; subnormals are kept. -/
theorem test_rounding : fadd (dec (10 ^ 16) 1) fOne = dec (10 ^ 16) 1 ∧ fmul f0p95 9#64 = 9#64 ∧ fmul f0p95 1#64 = 1#64 ∧
    fsub fOne fOne = fZero ∧ fdiv fOne fZero = 0x7FF0000000000000#64 ∧ fsqrt fTwo = dec 14142135623730951 (10 ^ 16) := by
  decide +kernel

/-- R8: ceil and trunc of −1.5, −1.0, −0.5, 0.0, 0.5, 1.0, 1.5. -/
theorem test_ceil : [fneg (dec 15 10), fneg fOne, fneg (dec 5 10), fZero, dec 5 10, fOne, dec 15 10].map
      (fun v => (fceil v, ftrunc v)) = [(-1, -1), (-1, -1), (0, 0), (0, 0), (1, 0), (1, 1), (2, 1)] := by decide +kernel

/-! ### The units, one step each -/

/-- V-F1, the three rows of N = 3 and the overwritten impulse, with the coefficients 2, 3, 5. -/
theorem test_firApply : firReal 3 [fTwo, dec 3 1, dec 5 1, fTwo, dec 3 1, dec 5 1] [fZero, fZero, fZero] 2 fOne =
      (fTwo, [fZero, fZero, fOne], 1) ∧
    firReal 3 [fTwo, dec 3 1, dec 5 1, fTwo, dec 3 1, dec 5 1] [fZero, fZero, fOne] 1 fZero =
      (dec 3 1, [fZero, fZero, fOne], 0) ∧
    firReal 3 [fTwo, dec 3 1, dec 5 1, fTwo, dec 3 1, dec 5 1] [fZero, fZero, fOne] 0 fZero =
      (dec 5 1, [fZero, fZero, fOne], 2) ∧
    firReal 3 [fTwo, dec 3 1, dec 5 1, fTwo, dec 3 1, dec 5 1] [fZero, fZero, fOne] 2 fZero =
      (fZero, [fZero, fZero, fZero], 1) := by decide +kernel

theorem test_hilbertInit : see (exec .hilbertInit State.reset) (fun t => t.hil.wp) = some 58 := by decide +kernel

/-- V-H1 with the tables 1, …, 59 and 60, …, 118: the response is the tables, then zero. -/
theorem test_hilbertFilterBlock :
    (hilbertBlock (dupTable ((List.range 59).map fun i => fofNat (i + 1))) (dupTable ((List.range 59).map fun i => fofNat (i + 60)))
      hilbertZero (fOne :: List.replicate 60 fZero)).1 =
      ((List.range 59).map fun i => ⟨fofNat (i + 1), fofNat (i + 60)⟩) ++ [czero, czero] := by decide +kernel

theorem test_delayInit : see (exec .delayInit State.reset) (fun t => (t.dl.w, t.dl.r)) = some (2447, []) := by decide +kernel

/-- V-L1. -/
theorem test_delayAdd : [fZero, fneg fZero, dec 124 1000, dec 125 1000, dec 99 100, fOne, dec 25 10, f30, f50].map
      (fun d => see (exec (.delayAdd d) { State.reset with dl := ⟨[], 2447, []⟩ }) fun t => t.dl.r) =
    [[2447], [2447], [2447], [2446], [2440], [2439], [2427], [2207], [2047]].map some := by decide +kernel

/-- V-L2, its first samples: a tap with D = 2 (r = 2445) gives the impulse two samples later. -/
theorem test_delayBlock : (scanBlock delaySample ⟨List.replicate 2448 czero, 2447, [2445]⟩
      [⟨fOne, fTwo⟩, czero, czero, czero]).1 = [[czero], [czero], [⟨fOne, fTwo⟩], [czero]] := by decide +kernel

/-- V-G1: L, and sigma for 64 Hz and 1 Hz. -/
theorem test_gaussInit : [(f12p8, dec 1 10), (f12p8, dec 2 10), (f12p8, f0p4), (f64p0, dec 41 100), (f64p0, fOne), (f64p0, fTwo),
      (f320, dec 201 100), (f320, dec 5 1), (f320, dec 10 1), (f320, f30)].map (fun x => gaussLen x.1 x.2) =
      [181, 91, 45, 219, 91, 45, 223, 91, 45, 15] ∧
    gaussSigma f64p0 fOne = dec 14405061058513699 (10 ^ 15) ∧ gaussSigma f320 f30 = dec 2400843509752283 (10 ^ 15) := by
  decide +kernel

/-- V-G2: the centre tap is 1.0. -/
theorem test_gaussTap : gaussCoeff (gaussSigma f64p0 fOne) 91 45 = fOne := by decide +kernel

theorem test_gaussApply : see (exec (.gaussApply 0 ⟨fOne, fZero⟩) onePath) (fun t => t.paths[0]?.map fun q => q.gf.wp) =
    some (some 14) := by decide +kernel

/-- V-N1: which pairs are accepted, and the stream that rejects three. -/
theorem test_cnormal : [(dec 75 100, dec 5 10), (dec 5 10, dec 75 100), (dec 25 100, dec 625 1000), (dec 3 10, dec 6 10),
      (dec 8 10, dec 85 100), (fZero, dec 5 10), (dec 5 10, dec 5 10), (dec 95 100, dec 95 100)].map
      (fun u => (cnormalPair fOne u.1 u.2).isSome) = [true, true, true, true, true, false, false, false] ∧
    left (cnormal fOne [fZero, dec 5 10, dec 5 10, dec 5 10, dec 95 100, dec 95 100, dec 75 100, dec 5 10, fZero]) =
      some [fZero] := by decide +kernel

/-- V-G1: the mode, the rate, the stage and the gain; and with P = 2. -/
theorem test_rayleighInit : [fneg (dec 3 1), dec 999 10000, f0p1, f0p4, dec 41 100, fTwo, dec 201 100, dec 45 1].map
      (fun s => let q := rayleighConfigure Path.reset s fOne; (q.nospread, q.fsG, q.s0, q.g)) =
    [(true, fZero, 0, fOne), (true, fZero, 0, fOne), (false, f12p8, 0, dec 7145705967260626 (10 ^ 15)),
      (false, f12p8, 0, dec 3572852983630313 (10 ^ 15)), (false, f64p0, 1, dec 7891112148467284 (10 ^ 15)),
      (false, f64p0, 1, dec 3572852983630313 (10 ^ 15)), (false, f320, 2, dec 7969243877138758 (10 ^ 15)),
      (false, f320, 2, dec 20627876318739187 (10 ^ 16))] ∧
    (rayleighConfigure Path.reset fOne (gainCoeff 2)).g = dec 35728529836303125 (10 ^ 16) := by decide +kernel

theorem test_rayleighSample : see (exec (.rayleighSample 0) onePath) (fun t => t.result) = some (.cplx ⟨fZero, fZero⟩) ∧
    see (exec (.rayleighSample 0) { fadingState with rng := [dec 75 100] }) (fun t => (t.holding, t.drawn)) =
      some (true, [dec 75 100]) := by decide +kernel

theorem test_upsInit : see (exec (.upsInit 0 1 125) onePath) (fun t => t.paths[0]?.map fun q => q.ups[1]?) =
    some (some (some ⟨125, List.replicate 10 czero, 49⟩)) := by decide +kernel

/-- V-U2. -/
theorem test_upsInsertAt : [0, 1, 5, 25, 125, 250, 625, 1279995].map (fun m =>
      stageRates.map fun rate => upsInsertAt (upsInit rate) m) =
    [[true, true, true, true], [false, false, false, false], [false, false, false, true], [false, false, true, true],
      [false, true, true, true], [false, true, true, true], [true, true, true, true], [false, false, false, true]] := by
  decide +kernel

theorem test_upsInsert : see (exec (.upsInsert 0 3 ⟨fOne, fTwo⟩) fadingState) (fun t => t.paths[0]?.map fun q =>
      q.ups[3]?.map fun u => u.queue) = some (some (some (List.replicate 9 czero ++ [⟨fOne, fTwo⟩]))) := by decide +kernel

/-- V-U1, one insert: the outputs are the table, in its order. -/
theorem test_upsUpsample : (scanBlock (fun u (_ : Nat) => upsUpsample (dupTable ((List.range 50).map fun i => fofNat (i + 1))) u)
      (upsInsert (upsInit 5) ⟨fOne, fZero⟩) (List.range 5)).1 = (List.range 5).map fun i => ⟨fofNat (i + 1), fZero⟩ := by
  decide +kernel

/-- R150 with P = 2: the gain of a path without spread, and the phase step of 1000 Hz. -/
theorem test_pathInit : see (exec (.pathInit 0) { latchedPaths 2 fZero with
      lat := { (latchedPaths 2 fZero).lat with offsetHz := [dec 1000 1, fZero] } })
      (fun t => t.paths[0]?.map fun q => (q.g, q.dtheta, q.mIndex)) =
    some (some (dec 7071067811865475 (10 ^ 16), dec 7853981633974483 (10 ^ 16), 0)) := by decide +kernel

/-- V-D1: 1000, −1000, 8000, 12000 Hz. -/
theorem test_ncoStep : (List.range 10).map (phaseAt fZero (phaseStep (dec 1000 1))) =
      [fZero, dec 7853981633974483 (10 ^ 16), dec 15707963267948966 (10 ^ 16), dec 2356194490192345 (10 ^ 15),
        dec 3141592653589793 (10 ^ 15), dec 39269908169872414 (10 ^ 16), dec 471238898038469 (10 ^ 14),
        dec 5497787143782138 (10 ^ 15), fZero, dec 7853981633974483 (10 ^ 16)] ∧
    (List.range 4).map (phaseAt fZero (phaseStep (fneg (dec 1000 1)))) =
      [fZero, dec 5497787143782138 (10 ^ 15), dec 471238898038469 (10 ^ 14), dec 39269908169872414 (10 ^ 16)] ∧
    (List.range 3).map (phaseAt fZero (phaseStep f8000)) = [fZero, fZero, fZero] ∧
    (List.range 3).map (phaseAt fZero (phaseStep (dec 12000 1))) = [fZero, fPi, fZero] := by decide +kernel

/-- V-P1: with offset 0 and gain 1.0 a sample passes through, and the period of m_index ends. -/
theorem test_pathCalc : (match pathSample [] { Path.reset with g := fOne, mIndex := 1279999 } ⟨fTwo, fneg fOne⟩ [] with
      | .ok o _ => some (o.1, o.2.mIndex)
      | .starved => none
      | .bad => none) = some (⟨fTwo, fneg fOne⟩, 0) := by decide +kernel

/-- V-U3: a 320 Hz path draws 82 pairs in each of its first two blocks, a 64 Hz path 17, then 16. -/
theorem test_draws : [(0, 25), (2048, 25), (0, 125), (2048, 125), (0, 625), (2048, 625)].map (fun x =>
      ((List.range 2048).filter fun i => (x.1 + i) % x.2 == 0).length) = [82, 82, 17, 16, 4, 3] := by decide +kernel

theorem test_noiseInit : see (exec (.noiseInit false) State.reset) (fun t => (t.nz.wp, t.nz.bl)) = some (58, false) := by
  decide +kernel

/-- R162: one pair of values for two samples, and none for a pair that is not there. -/
theorem test_noiseAdd : left (noiseAdd [] (noiseInit true) [fOne, fOne] fOne fOne [dec 75 100, dec 5 10, fZero]) = some [fZero] ∧
    left (noiseAdd [] (noiseInit true) [fOne, fOne] fOne fOne [dec 75 100]) = none := by decide +kernel

/-- V-R1: the squares of 32.0 and 32.0 sum to 2048.0; an impulse (the zeros after it add nothing). -/
theorem test_blockRms : blockRms [dec 32 1, dec 32 1] = fOne ∧ rmsUpdate [dec 32 1, dec 32 1] fOne = fOne ∧
    blockRms [fOne, fZero] = dec 2209708691207961 (10 ^ 17) ∧ fmul f0p05 (blockRms [fOne]) = dec 11048543456039807 (10 ^ 19) := by
  decide +kernel

/-- V-A1, with TARGET_RMS = 0.5. -/
theorem test_agcGains : [(false, fTwo, dec 25 100), (true, fTwo, dec 25 100), (true, fOne, dec 25 100),
      (true, dec 5 10, dec 25 100), (true, fZero, dec 25 100), (true, fTwo, dec 267534910616295 (10 ^ 323))].map
      (fun x => agcGains (dec 5 10) x.1 x.2.1 x.2.2) =
    [(fOne, fZero), (fTwo, dec 25 100), (fTwo, dec 5 10), (fOne, dec 5 10), (fZero, dec 5 10),
      (0x7FF0000000000000#64, 0x7FF0000000000000#64)] := by decide +kernel

/-- V-S1. -/
theorem test_pathAccumulate : pathAccumulate [[⟨dec (10 ^ 16) 1, fOne⟩], [⟨fOne, fOne⟩], [⟨fneg (dec (10 ^ 16) 1), fOne⟩]] = [fZero] ∧
    pathAccumulate [[⟨dec 25 100, fOne⟩], [⟨fneg (dec 5 10), fOne⟩]] = [fneg (dec 25 100)] := by decide +kernel

/-! ### Commands and the bus (V-C1, V-B1) -/

theorem test_nop : see (exec .nop { State.reset with status := { Status.reset with cmdDropped := true } })
    (fun t => (t.status.cmdDropped, t.status.errCode)) = some (false, .ok) := by decide +kernel

theorem test_nop_busy : see (exec .nop (running .init)) (fun t => (t.status.cmdDropped, t.seq)) = some (true, .run .init) := by
  decide +kernel

theorem test_illegal : see (exec (.illegal 0x3#64) State.reset) (fun t => t.status.errCode) = some .illegalCmd := by decide +kernel

theorem test_processBlock : see (exec .processBlock State.reset) (fun t => t.status.errCode) = some .notConfigured ∧
    stopOf (exec .processBlock { State.reset with status := { Status.reset with configured := true } }) = some .unwrittenSample := by
  decide +kernel

theorem test_issue : see (exec (.issue 0x100#64) State.reset) (fun t => t.status.errCode) = some .illegalCmd ∧
    see (exec (.issue 0x2#64) State.reset) (fun t => t.status.errCode) = some .notConfigured := by decide +kernel

/-- INIT with an infinite SNR and noise on is rejected with 0x04. -/
theorem test_init : see (exec .init { State.reset with noiseCtrl := 1#64, snr := 0x7FF0000000000000#64 })
    (fun t => (t.status.errCode, t.seq)) = some (.cfgNonfinite, .idle) := by
  have h4 : isFinite 0x7FF0000000000000#64 = false := by decide
  have e : ∀ s : State, s.numPaths = 0#64 → s.noiseCtrl = 1#64 → s.snr = 0x7FF0000000000000#64 → initValidate s = .cfgNonfinite := by
    intro s h1 h2 h3
    simp [initValidate, h1, h2, h3, h4]
  have e := e { State.reset with noiseCtrl := 1#64, snr := 0x7FF0000000000000#64 } rfl rfl rfl
  rw [exec, init_taken _ rfl, if_neg (by rw [e]; decide)]
  exact congrArg (fun c => some (c, Seq.idle)) e

/-- Noise on with SNR = −1.0 is 0x06, and with SNR = 0.0 is accepted. -/
theorem test_initValidate : ∀ s : State, s.numPaths = 0#64 → s.noiseCtrl = 1#64 →
    (s.snr = fneg fOne → initValidate s = .cfgSnrNegative) ∧ (s.snr = fZero → initValidate s = .ok) := by
  intro s h1 h2
  have h3 : isFinite (fneg fOne) = true ∧ flt (fneg fOne) fZero = true ∧ isFinite fZero = true ∧ flt fZero fZero = false := by decide
  exact ⟨fun h => by simp [initValidate, h1, h2, h, h3], fun h => by simp [initValidate, h1, h2, h, h3]⟩

theorem test_complete : see (exec .complete { running .init with finished := some .init }) (fun t =>
    (t.seq, statusWord { t.status with directMode := true })) = some (.idle, 0x6#64) := by decide +kernel

theorem test_chanInit : see (exec .chanInit State.reset) (fun t => (t.hil.wp, t.nz.wp, t.finished)) = some (0, 58, some .init) := by
  decide +kernel

/-- A direct-mode block hands its samples on. -/
theorem test_chanProcess : see (exec .chanProcess State.reset) (fun t => t.rng) = some [] := by decide +kernel

theorem test_busRead : see (exec (.busRead 0x00008#17 8) { State.reset with status := ⟨true, true, false, true, false, .ok, 3#8⟩ })
      (fun t => t.resp) = some [.read false 0x3000B#64] ∧
    [(0x00008#17, 4), (0x0000C#17, 8), (0x00040#17, 8), (0x000F8#17, 8)].map (fun x =>
      see (exec (.busRead x.1 x.2) State.reset) fun t => t.resp) = List.replicate 4 (some [.read true 0#64]) := by decide +kernel

theorem test_busWrite : see (exec (.busWrite 0x00018#17 8 0x5#64) State.reset) (fun t => t.noiseCtrl) = some 1#64 ∧
    see (exec (.busWrite 0x00008#17 8 0x123#64) State.reset) (fun t => (t.status, t.resp)) =
      some (Status.reset, [.write false]) := by decide +kernel

/-- 20_memory.md R62: the registers of a path's slot, and its reserved place. -/
theorem test_map : decodePathOffset 0x118 = none ∧ decodePathOffset 0x120 = some (.pathDelay 1) ∧
    decodePathOffset 0x130 = some (.pathOffset 1) ∧ decodePathOffset 0x4E8 = some (.pathSpread 31) := by decide

/-- R65: the low byte at the low address. -/
theorem test_littleEndian : writeWord [] 0x10000 0x0102030405060708#64 =
    [(0x10000, 8#8), (0x10001, 7#8), (0x10002, 6#8), (0x10003, 5#8), (0x10004, 4#8), (0x10005, 3#8), (0x10006, 2#8), (0x10007, 1#8)] := by
  decide +kernel

/-- RUN(INIT) of one path at 0.1 Hz, with these RNG_IN values waiting and these turns to come. -/
def starving (rng : List F64) (turns : List Turn) : State :=
  { latchedPaths 1 f0p1 with
    seq := .run .init, status := { Status.reset with busy := true }, rng := rng, turns := turns }

/-- R231: a draw takes one value of two; a reset after it leaves the other. With no value waiting the command holds. -/
theorem test_draw : see (step (starving [fZero, fOne] [.draw])) (fun t => (t.drawn, t.rng, t.holding)) = some ([fZero], [fOne], false) ∧
    see (step { starving [fOne] [.reset] with drawn := [fZero] }) (fun t => (t.drawn, t.rng, t.seq)) = some ([], [fOne], .idle) ∧
    see (step (starving [] [.draw])) (fun t => (t.drawn, t.holding)) = some ([], true) := by decide +kernel

/-- R36, R95, R210: a program's RNG value ends a hold, and a bad one is BAD_RNG. -/
theorem test_withProgram :
    see (step (State.withProgram { starving [] [] with holding := true } [.rng [fZero]])) (fun t => (t.rng, t.holding, t.turns)) =
      some ([fZero], false, []) ∧
    stopOf (step (State.withProgram State.reset [.rng [fOne]])) = some .badRng := by decide +kernel

/-- A busy SAMPLE_BUF read stays the host's next access. -/
theorem test_held : see (exec (.busRead 0x10000#17 8) (running .init)) (fun t => t.bus) = some [.read 0x10000#17 8] := by
  have h : admitted 0x10000#17 8 = some (.sample 0) := by
    have : ¬ (0x10000 : Nat) < 0x100 + 0x20 * maxPaths := by unfold maxPaths; omega
    simp [admitted, decodeOffset, this]
  show see (execBusRead 0x10000#17 8 (running .init)) _ = _
  rw [execBusRead, h]
  rfl

/-! ### For every statement with hypotheses, states and operands that meet them -/

/-- The host is to make the accesses b, and it moves next. -/
def hostState (b : List BusAccess) : State := { State.reset with turns := [.host], bus := b }

/-- A block has been finished, or INIT's work. -/
def finishing (c : Command) (f : Finished) : State := { running c with finished := some f }

/-- Configured and idle. -/
def configured (s : State) : State := { s with status := { s.status with configured := true } }

/-- An accepted pair of V-N1. -/
def good : F64 × F64 := (0x3FE8000000000000#64, 0x3FE0000000000000#64)

/-- Three rejected pairs of V-N1. -/
def poor : List (F64 × F64) :=
  [(fZero, 0x3FE0000000000000#64), (0x3FE0000000000000#64, 0x3FE0000000000000#64), (0x3FEE666666666666#64, 0x3FEE666666666666#64)]

theorem good_accepted : accepted good = true := by decide +kernel

theorem poor_all : poor.all rejected = true := by decide +kernel

theorem poor_rejected : ∀ q, q ∈ poor → rejected q = true := fun q h => List.all_eq_true.mp poor_all q h

theorem all_of {α : Type} {p : α → Bool} {l : List α} (h : l.all p = true) : ∀ a, a ∈ l → p a = true := List.all_eq_true.mp h

theorem maxPaths_bounds : 1 ≤ maxPaths ∧ maxPaths ≤ 32 := by unfold maxPaths; omega

theorem flatBlock_length (v : F64) : (flatBlock v).length = 2048 := List.length_replicate
theorem filled_mem : filled.mem = writeBlock [] (flatBlock fZero) := by rw [filled]

theorem filled_word (i : Nat) (h : i < 2048) : readWord filled.mem (0x10000 + 8 * i) = some fZero := by
  have hl : i < (flatBlock fZero).length := by rw [flatBlock_length]; exact h
  have e := readWord_writeBlock [] (flatBlock fZero) i hl
  rw [List.eq_of_mem_replicate (List.getElem_mem hl), sampleOff] at e
  rw [filled_mem, e]

theorem filled_valid (i : Nat) (h : i < 2048) : sampleValid filled.mem i = true := by
  rw [sampleValid, sampleOff, filled_word i h, Option.isSome_some]

theorem configured_filled_mem : (configured filled).mem = filled.mem := by rw [configured]

theorem rng_empty {s : State} (h : s.drawn ++ s.rng = []) : s.rngWf := by
  intro v hv
  rw [h] at hv
  cases hv

theorem fading_wf : fading.wf := by
  have f : ∀ rate, Ups.wf rate (upsInit rate) := upsInit_wf
  exact ⟨⟨by decide, List.length_replicate, List.length_replicate, show (0 : Nat) < 15 by decide⟩, le_rfl,
    show (0 : Nat) < mPeriod by decide, .cons (f _) (.cons (f _) (.cons (f _) (.cons (f _) .nil)))⟩

theorem latched_wf (spread : F64) : (latchedPaths 1 spread).lat.wf :=
  ⟨maxPaths_bounds.1, rfl, rfl, rfl, rfl, rfl⟩

theorem reset_paths (P : Nat) (spread : F64) : (latchedPaths P spread).paths.length = 32 ∧
    ∀ p, p < 32 → (latchedPaths P spread).paths[p]? = some Path.reset := by
  refine ⟨List.length_replicate, fun p h => ?_⟩
  show (List.replicate 32 Path.reset)[p]? = _
  rw [List.getElem?_replicate, if_pos h]

theorem witness_DecodeAndEncodeAgree : (Instr.illegal 3#64).wf = true ∧
    encodeBytes (.illegal 3#64) = some [3#8, 0#8, 0#8, 0#8, 0#8, 0#8, 0#8, 0#8] := by decide

theorem witness_StepRunsTheDecodedCommand : decodeBytes [2#8, 0#8, 0#8, 0#8, 0#8, 0#8, 0#8, 0#8] = .ok .processBlock ∧
    (hostState [.write 0x00000#17 8 (wordOfBytes [2#8, 0#8, 0#8, 0#8, 0#8, 0#8, 0#8, 0#8])]).turns = .host :: [] ∧
    (hostState [.write 0x00000#17 8 (wordOfBytes [2#8, 0#8, 0#8, 0#8, 0#8, 0#8, 0#8, 0#8])]).bus =
      .write 0x00000#17 8 (wordOfBytes [2#8, 0#8, 0#8, 0#8, 0#8, 0#8, 0#8, 0#8]) :: [] := ⟨rfl, rfl, rfl⟩

theorem witness_StepServesTheHost : (hostState []).turns = .host :: [] ∧ (hostState []).bus = [] ∧
    (hostState [.read 8#17 8]).bus = .read 8#17 8 :: [] ∧ (hostState [.write 0#17 8 1#64]).bus = .write 0#17 8 1#64 :: [] ∧
    (hostState [.poll]).bus = .poll :: [] := ⟨rfl, rfl, rfl, rfl, rfl⟩

theorem witness_StepRunsTheSequencer :
    ({ State.reset with turns := [.sequencer] } : State).turns = .sequencer :: [] ∧ State.reset.seq = .idle ∧
    (running .init).seq = .run .init ∧ (running .init).finished = none ∧ (running .processBlock).seq = .run .processBlock ∧
    (running .processBlock).finished = none ∧ (finishing .init .init).finished = some .init := ⟨rfl, rfl, rfl, rfl, rfl, rfl, rfl⟩

theorem witness_StepWithoutATurn : State.reset.turns = [] ∧ State.reset.seq = .idle ∧ (running .init).turns = [] ∧
    (running .init).seq ≠ .idle ∧ (running .init).holding = false ∧ ({ running .init with holding := true } : State).holding = true :=
  ⟨rfl, rfl, rfl, by decide, rfl, rfl⟩

/-- +0.0 and the greatest value below 1.0; NaN, a negative value, 1.0. -/
theorem witness_StepSuppliesTheStream : ({ State.reset with turns := [.supply fZero] } : State).turns = .supply fZero :: [] ∧
    isFinite fZero = true ∧ fle fZero fZero = true ∧ flt fZero fOne = true ∧
    isFinite 0x3FEFFFFFFFFFFFFF#64 = true ∧ fle fZero 0x3FEFFFFFFFFFFFFF#64 = true ∧ flt 0x3FEFFFFFFFFFFFFF#64 fOne = true ∧
    isFinite 0x7FF8000000000000#64 = false ∧ fle fZero 0x8000000000000001#64 = false ∧ flt fOne fOne = false := by
  refine ⟨rfl, ?_⟩
  decide +kernel

theorem starving_starved : initPaths (starving [] []).lat 0 1 (starving [] []).paths [] = .starved := by decide +kernel

theorem starving_holds (s : State) (h1 : s.lat = (starving [] []).lat) (h2 : s.paths = (starving [] []).paths)
    (h3 : s.drawn = []) (h4 : s.rng = []) : NextWith (exec .chanInit s) fun t => t.holding = true := by
  have e : chanInitWork s (s.drawn ++ s.rng) = .starved := by
    have hP : s.lat.P = 1 := by rw [h1]; rfl
    rw [chanInitWork, hP, if_neg (by decide), h1, h2, h3, h4, List.append_nil, starving_starved]
    rfl
  refine ⟨{ s with drawn := s.drawn ++ s.rng, holding := true, rng := [] }, ?_, rfl⟩
  show execChanInit s = _
  rw [execChanInit, runDraws_starved e]

/-- A work that needs a value, with none and with one waiting. -/
theorem witness_StepSuppliesTheStream_draw (rng : List F64) : (starving rng [.draw]).turns = .draw :: [] ∧
    isWork (starving rng [.draw]) .chanInit ∧
    (NextWith (exec .chanInit { starving rng [.draw] with rng := [] }) fun t => t.holding = true) ∧
    (starving [] [.draw]).rng = [] ∧ (starving [fZero] [.draw]).rng = fZero :: [] ∧ rngGood fZero = true :=
  ⟨rfl, ⟨rfl, .inl ⟨rfl, rfl⟩⟩, starving_holds _ rfl rfl rfl rfl, rfl, rfl, by decide +kernel⟩

theorem witness_ResetValues : ({ running .init with turns := [.reset] } : State).turns = .reset :: [] := rfl

theorem witness_StepKeepsWellFormed : ({ State.reset with numPaths := 1#64 } : State).Inv ∧
    step { State.reset with numPaths := 1#64 } = .next { State.reset with numPaths := 1#64 } := by
  refine ⟨⟨⟨⟨List.length_replicate, show (0 : Nat) < 59 by decide⟩,
      ⟨List.length_replicate, show (0 : Nat) < delayLen by decide, (fun r h => by cases h), maxPaths_bounds.1⟩,
      List.length_replicate, ?_, ⟨List.length_replicate, show (0 : Nat) < 59 by decide⟩, Nat.zero_le _, rfl, rfl, rfl, rfl, rfl⟩,
    ⟨(fun d h => by cases h), (fun d h => by cases h), (fun d h => by cases h)⟩, ⟨rfl, List.length_replicate, rfl, (fun a b h => by cases h)⟩, ⟨(fun h => by cases h), (fun h => absurd rfl h)⟩, rfl,
    (fun h => by cases h), (fun h => by cases h), (fun v h => by cases h)⟩, rfl⟩
  intro q hq
  rw [List.eq_of_mem_replicate hq]
  have f : ∀ rate, Ups.wf rate ⟨rate, List.replicate 10 czero, 0⟩ := fun rate =>
    ⟨rfl, List.length_replicate, show (0 : Nat) < 50 by decide⟩
  exact ⟨⟨by decide, List.length_replicate, List.length_replicate, show (0 : Nat) < 15 by decide⟩, Nat.zero_le _,
    show (0 : Nat) < mPeriod by decide, .cons (f _) (.cons (f _) (.cons (f _) (.cons (f _) .nil)))⟩

theorem witness_OnlyInitConfigures : step (finishing .init .init) = .next (completeInit (finishing .init .init)) ∧
    (finishing .init .init).status.configured = false ∧ (completeInit (finishing .init .init)).status.configured = true :=
  ⟨rfl, rfl, rfl⟩

theorem witness_OnlyCompletionEndsACommand : step (finishing .init .init) = .next (completeInit (finishing .init .init)) ∧
    (finishing .init .init).seq = .run .init := ⟨rfl, rfl⟩

theorem witness_DspOperationsLeaveTheHostSide : isDspOperation .hilbertInit = true ∧
    exec .hilbertInit State.reset = .next { State.reset with hil := hilbertZero } := ⟨rfl, rfl⟩

theorem witness_ConfigurationNotSeenAfterInit : Instr.complete = .processBlock ∨ Instr.complete = .chanInit ∨
    Instr.complete = .chanProcess ∨ Instr.complete = .complete := .inr (.inr (.inr rfl))

theorem witness_NopCommand : State.reset.seq = .idle ∧ (running .init).seq ≠ .idle := ⟨rfl, by decide⟩

theorem witness_DroppedWhileBusy : (running .init).busyWf ∧ (running .init).status.busy = true ∧ State.reset.busyWf ∧
    State.reset.status.busy = false ∧ exec .nop State.reset = .next State.reset :=
  ⟨⟨fun _ => (by decide : Seq.run .init ≠ .idle), fun _ => rfl⟩, rfl, ⟨(fun h => by cases h), (fun h => absurd rfl h)⟩, rfl, rfl⟩

theorem witness_IllegalRejected : State.reset.seq = .idle ∧ rsvOf 0x100#64 ≠ 0#56 ∧ 3 ≤ (opcOf 0x3#64).toNat := by
  refine ⟨rfl, ?_⟩
  decide

theorem witness_ProcessBlockNotConfigured : State.reset.seq = .idle ∧ State.reset.status.configured = false := ⟨rfl, rfl⟩

theorem witness_ProcessBlockStarts : (configured filled).seq = .idle ∧ (configured filled).status.configured = true ∧
    (∀ i, i < 2048 → sampleValid (configured filled).mem i = true) ∧
    (configured State.reset).seq = .idle ∧ (configured State.reset).status.configured = true ∧
    ∃ i, i < 2048 ∧ sampleValid (configured State.reset).mem i = false :=
  ⟨rfl, rfl, (by rw [configured_filled_mem]; exact filled_valid), rfl, rfl, 2047, by decide, rfl⟩

/-- A configuration of the registers. -/
def config (P : Word) (noise : Word) (snr delay : F64) : State :=
  { State.reset with numPaths := P, noiseCtrl := noise, snr := snr, pathRegs := ⟨delay, fZero, fZero⟩ :: List.replicate 31 ⟨fZero, fZero, fZero⟩ }

theorem config_pathReg (P noise : Word) (snr delay : F64) : (config P noise snr delay).pathReg 0 = ⟨delay, fZero, fZero⟩ := rfl

theorem config_finite (noise : Word) (snr delay : F64) (hd : isFinite delay = true)
    (hs : noise.getLsbD 0 = true → isFinite snr = true) : ¬ nonfinite (config 1#64 noise snr delay) := by
  rintro (⟨p, hp, h⟩ | ⟨h1, h2⟩)
  · have h0 : p = 0 := Nat.lt_one_iff.mp hp
    rw [h0, nonfinitePath, config_pathReg] at h
    have hz : isFinite fZero = true := by decide
    simp [hd, hz] at h
  · rw [show isFinite (config 1#64 noise snr delay).snr = isFinite snr from rfl, hs h1] at h2
    cases h2

theorem config_delay (noise : Word) (snr delay : F64) (hd : flt delay fZero = false ∧ fgt delay f50 = false) :
    ¬ delayOut (config 1#64 noise snr delay) := by
  rintro ⟨p, hp, h⟩
  have h0 : p = 0 := Nat.lt_one_iff.mp hp
  rw [h0, config_pathReg] at h
  simp [hd] at h

/-- MAX_PATHS paths are accepted by the first check. -/
theorem witness_InitValidateCodes_max (noise : Word) (snr delay : F64) :
    (config (BitVec.ofNat 64 maxPaths) noise snr delay).numPaths.toNat = maxPaths ∧
    (config (BitVec.ofNat 64 maxPaths) noise snr delay).numPaths.toNat ≤ maxPaths := by
  have h : (config (BitVec.ofNat 64 maxPaths) noise snr delay).numPaths.toNat = maxPaths := by
    show (BitVec.ofNat 64 maxPaths).toNat = maxPaths
    rw [BitVec.toNat_ofNat, Nat.mod_eq_of_lt (lt_of_le_of_lt maxPaths_bounds.2 (by decide))]
  exact ⟨h, h.le⟩

/-- 33 paths; a NaN delay, and an infinite SNR with noise on; −0.5 ms; SNR −1.0; 50 ms with the SNR +0.0. -/
theorem witness_InitValidateCodes : (∀ P noise snr delay, (config P noise snr delay).pathRegs.length = 32) ∧
    maxPaths < (config 33#64 0#64 fZero fZero).numPaths.toNat ∧
    (∀ noise snr delay, (config 1#64 noise snr delay).numPaths.toNat ≤ maxPaths) ∧
    nonfinite (config 1#64 0#64 fZero 0x7FF8000000000000#64) ∧ nonfinite (config 1#64 1#64 0x7FF0000000000000#64 fZero) ∧
    ¬ nonfinite (config 1#64 0#64 fZero (fneg (dec 5 10))) ∧ delayOut (config 1#64 0#64 fZero (fneg (dec 5 10))) ∧
    ¬ nonfinite (config 1#64 1#64 (fneg fOne) fZero) ∧ ¬ delayOut (config 1#64 1#64 (fneg fOne) fZero) ∧
    snrNegative (config 1#64 1#64 (fneg fOne) fZero) ∧
    ¬ nonfinite (config 1#64 1#64 fZero f50) ∧ ¬ delayOut (config 1#64 1#64 fZero f50) ∧
    ¬ snrNegative (config 1#64 1#64 fZero f50) := by
  refine ⟨fun _ _ _ _ => rfl, Nat.lt_succ_of_le maxPaths_bounds.2, fun _ _ _ => maxPaths_bounds.1, .inl ⟨0, by decide, .inl (by decide)⟩,
    .inr ⟨by decide, by decide⟩, config_finite _ _ _ (by decide +kernel) (fun h => absurd h (by decide)), ⟨0, by decide, .inl (by decide +kernel)⟩,
    config_finite _ _ _ (by decide +kernel) (fun _ => by decide +kernel), config_delay _ _ _ (by decide +kernel), ⟨by decide, by decide +kernel⟩,
    config_finite _ _ _ (by decide +kernel) (fun _ => by decide +kernel), config_delay _ _ _ (by decide +kernel), ?_⟩
  rintro ⟨-, h⟩
  revert h
  decide +kernel

theorem witness_InitRejected : (config 33#64 0#64 fZero fZero).seq = .idle ∧ initValidate (config 33#64 0#64 fZero fZero) ≠ .ok := by
  refine ⟨rfl, ?_⟩
  have h : maxPaths < (config 33#64 0#64 fZero fZero).numPaths.toNat := Nat.lt_succ_of_le maxPaths_bounds.2
  simp [initValidate, h]

theorem witness_InitStarts : State.reset.seq = .idle ∧ State.reset.pathRegs.length = 32 ∧ initValidate State.reset = .ok :=
  ⟨rfl, List.length_replicate, initValidate_zero _ rfl rfl⟩

theorem witness_Completion : (finishing .init .init).seq = .run .init ∧ (finishing .init .init).finished = some .init ∧
    (finishing .processBlock (.block (flatBlock fOne) fZero)).seq = .run .processBlock ∧
    (finishing .processBlock (.block (flatBlock fOne) fZero)).finished = some (.block (flatBlock fOne) fZero) ∧
    (flatBlock fOne).length = 2048 := ⟨rfl, rfl, rfl, rfl, flatBlock_length _⟩

theorem witness_DirectModeWorks : State.reset.lat.P = 0 ∧ State.reset.lat.direct = true ∧ State.reset.lat.noiseOn = false :=
  ⟨rfl, rfl, rfl⟩

/-- A configured direct-mode state with its block written and PROCESS_BLOCK to come. -/
def identityState : State :=
  { configured filled with bus := [.write 0x00000#17 8 0x2#64], turns := [.host, .sequencer, .sequencer] }

theorem identityState_mem : identityState.mem = filled.mem := by rw [identityState, configured_filled_mem]

theorem witness_DirectPathIdentity : identityState.seq = .idle ∧ identityState.status.busy = false ∧
    identityState.status.configured = true ∧ identityState.lat.direct = true ∧ identityState.lat.noiseOn = false ∧
    (∀ i, i < 2048 → sampleValid identityState.mem i = true) ∧ identityState.bus = .write 0x00000#17 8 0x2#64 :: [] ∧
    identityState.turns = .host :: .sequencer :: .sequencer :: [] :=
  ⟨rfl, rfl, rfl, rfl, rfl, (by rw [identityState_mem]; exact filled_valid), rfl, rfl⟩

theorem witness_ChanInitWithoutSpread : 1 ≤ (latchedPaths 2 fZero).lat.P ∧ (latchedPaths 2 fZero).lat.P ≤ 32 ∧
    (latchedPaths 2 fZero).lat.delayMs.length = (latchedPaths 2 fZero).lat.P ∧ (latchedPaths 2 fZero).paths.length = 32 ∧
    (∀ p, p < (latchedPaths 2 fZero).lat.P → flt ((latchedPaths 2 fZero).lat.spreadRaw.getD p fZero) f0p1 = true) ∧
    0 + 1 < (latchedPaths 2 fZero).lat.P ∧ (latchedPaths 2 fZero).paths[31]? = some Path.reset := by
  refine ⟨by decide, by decide, rfl, (reset_paths 2 _).1, ?_, by decide, (reset_paths 2 _).2 31 (by decide)⟩
  show ∀ p, p < 2 → flt ([fZero, fZero].getD p fZero) f0p1 = true
  decide

theorem witness_ChanInitHolds : (latchedPaths 1 f0p1).lat.wf ∧ (latchedPaths 1 f0p1).paths.length = 32 ∧
    (latchedPaths 1 f0p1).rngWf ∧ ((latchedPaths 1 f0p1).drawn ++ (latchedPaths 1 f0p1).rng).length < 500 ∧
    ∃ p, p < (latchedPaths 1 f0p1).lat.P ∧ fle f0p1 ((latchedPaths 1 f0p1).lat.spreadRaw.getD p fZero) = true :=
  ⟨latched_wf _, (reset_paths 1 _).1, rng_empty rfl, (by decide : 0 < 500), 0, by decide, by decide⟩

theorem witness_ChanInitIsItsOperations : onePath.lat.wf ∧ onePath.paths.length = 32 ∧
    (∀ d, d ∈ onePath.lat.delayMs → delayInRange d = true) ∧ onePath.drawn = [] ∧ onePath.holding = false ∧
    onePath.finished = none := by
  refine ⟨latched_wf _, (reset_paths 1 _).1, ?_, rfl, rfl, rfl⟩
  exact all_of (l := [fZero]) (by decide +kernel)

theorem witness_ChanProcessIsItsOperations : onePath.lat.wf ∧ onePath.paths.length = 32 ∧ onePath.drawn = [] ∧
    onePath.holding = false ∧ onePath.finished = none := ⟨latched_wf _, (reset_paths 1 _).1, rfl, rfl, rfl⟩

theorem witness_BlockRms : (flatBlock fOne).length = 2048 ∧ isFinite ({ State.reset with sigAvg := fOne } : State).sigAvg = true ∧
    flt fZero ({ State.reset with sigAvg := fOne } : State).sigAvg = true := ⟨flatBlock_length _, by decide, by decide⟩

/-- Noise off; on with SNR 1.0; on with the greatest SNR below 1.0. -/
theorem witness_AgcGains : State.reset.lat.noiseOn = false ∧ fge fOne fOne = true ∧ fge 0x3FEFFFFFFFFFFFFF#64 fOne = false ∧
    ∀ snr, ({ State.reset with lat := { State.reset.lat with noiseOn := true, snr := snr } } : State).lat.noiseOn = true ∧
      ({ State.reset with lat := { State.reset.lat with noiseOn := true, snr := snr } } : State).lat.snr = snr :=
  ⟨rfl, by decide, by decide, fun _ => ⟨rfl, rfl⟩⟩

theorem witness_PathAccumulate : (List.replicate 2048 czero).length = 2048 ∧
    ∀ y, y ∈ [List.replicate 2048 czero] → y.length = 2048 :=
  ⟨List.length_replicate, fun y h => by rw [List.mem_singleton.mp h]; exact List.length_replicate⟩

theorem witness_FirApply : 0 < onePath.lat.P ∧ onePath.paths[0]? = some Path.reset ∧ Path.reset.gf.wf ∧ State.reset.nz.wf ∧
    (0 : Nat) < 1 ∧ (58 : Nat) < 59 :=
  ⟨by decide, (reset_paths 1 _).2 0 (by decide), ⟨by decide, List.length_replicate, List.length_replicate, show (0 : Nat) < 15 by decide⟩,
    ⟨List.length_replicate, show (0 : Nat) < 59 by decide⟩, by decide, by decide⟩

theorem witness_HilbertFilterBlock : (flatBlock fOne).length = 2048 ∧ State.reset.hil.wf :=
  ⟨flatBlock_length _, List.length_replicate, show (0 : Nat) < 59 by decide⟩

theorem witness_HilbertImpulse : ({ State.reset with hil := hilbertZero } : State).hil = ⟨List.replicate 59 czero, 58⟩ := rfl

theorem witness_DelayAdd : (∀ d, d ∈ [fneg fZero, fZero, fOne, f50] → delayInRange d = true) ∧ State.reset.dl.w < 2448 := by
  exact ⟨all_of (by decide +kernel), show (0 : Nat) < 2448 by decide⟩

/-- Taps that trail by 0 and by 400 samples. -/
def twoTaps : State := { State.reset with dl := ⟨List.replicate 2448 czero, 2447, [2447, 2047]⟩ }

theorem witness_DelayBlock : (List.replicate 2048 czero).length = 2048 ∧ twoTaps.dl.buf.length = 2448 ∧ twoTaps.dl.w < 2448 ∧
    (∀ r, r ∈ twoTaps.dl.r → r < 2448) ∧ twoTaps.dl.r[0]? = some 2447 ∧ trails twoTaps.dl 2447 0 ∧
    twoTaps.dl.r[1]? = some 2047 ∧ trails twoTaps.dl 2047 400 := by
  refine ⟨List.length_replicate, List.length_replicate, show (2447 : Nat) < 2448 by decide, ?_, rfl, rfl, rfl, rfl⟩
  show ∀ r, r ∈ [2447, 2047] → r < 2448
  decide

theorem witness_GaussInit : gaussDomain f12p8 f0p1 = true ∧ gaussDomain f320 f30 = true ∧ 0 < onePath.lat.P ∧
    onePath.paths[0]? = some Path.reset := ⟨by decide, by decide, by decide, (reset_paths 1 _).2 0 (by decide)⟩

theorem witness_GaussTable : gaussDomain f12p8 f0p1 = true ∧ 0 ≤ ((gaussInit f12p8 f0p1).len - 1) / 2 := ⟨by decide, Nat.zero_le _⟩

/-- The spreads at both ends of each range: 0.1, 0.4, the next value, 2.0, the next value, 30.0. -/
theorem witness_GaussLengths : (∀ s, s ∈ [f0p1, f0p4, 0x3FD999999999999B#64, fTwo, 0x4000000000000001#64, f30] →
      (fle f0p1 s && fle s f30) = true) ∧
    fle f0p4 f0p4 = true ∧ fgt 0x3FD999999999999B#64 f0p4 = true ∧ fle 0x3FD999999999999B#64 fTwo = true ∧
    fle fTwo fTwo = true ∧ fgt 0x4000000000000001#64 fTwo = true ∧ fgt f30 fTwo = true := by
  refine ⟨all_of (by decide +kernel), ?_⟩
  decide +kernel

/-- A stream of three rejected pairs, then an accepted one; and one value more than rejected pairs. -/
theorem witness_Cnormal : (∀ q, q ∈ poor → rejected q = true) ∧ accepted good = true ∧
    ({ State.reset with rng := flat poor ++ good.1 :: good.2 :: [] } : State).drawn ++
      ({ State.reset with rng := flat poor ++ good.1 :: good.2 :: [] } : State).rng = flat poor ++ good.1 :: good.2 :: [] ∧
    ([fZero] : List F64).length ≤ 1 ∧ (∀ v, v ∈ [fZero] → rngGood v = true) ∧
    ({ State.reset with rng := flat poor ++ [fZero] } : State).drawn ++
      ({ State.reset with rng := flat poor ++ [fZero] } : State).rng = flat poor ++ [fZero] :=
  ⟨poor_rejected, good_accepted, rfl, by decide, all_of (by decide +kernel), rfl⟩

theorem witness_RayleighInitWithoutSpread : isFinite fZero = true ∧ flt fZero f0p1 = true ∧ isFinite 0x3FB9999999999999#64 = true ∧
    flt 0x3FB9999999999999#64 f0p1 = true ∧ 0 < onePath.lat.P ∧ onePath.paths[0]? = some Path.reset :=
  ⟨by decide, by decide, by decide, by decide, by decide, (reset_paths 1 _).2 0 (by decide)⟩

/-- A stream of n accepted pairs, each after three rejected ones. -/
def mixed (n : Nat) : List (F64 × F64) := (List.replicate n (poor ++ [good])).flatten

theorem mixed_accepts (n : Nat) : accepts (mixed n) (List.replicate n good) := by
  have hp : ∀ q ∈ poor, accepted q = true ∨ rejected q = true := fun q h => .inr (poor_rejected q h)
  have hf : (poor ++ [good]).filter accepted = [good] := by decide +kernel
  refine ⟨?_, ?_, ?_⟩
  · intro p h
    obtain ⟨l, hl, hm⟩ := List.mem_flatten.mp h
    rw [List.eq_of_mem_replicate hl] at hm
    rcases List.mem_append.mp hm with hm | hm
    · exact hp p hm
    · rw [List.mem_singleton.mp hm]
      exact .inl good_accepted
  · induction n with
    | zero => rfl
    | succ n ih =>
      rw [mixed, List.replicate_succ, List.flatten_cons, List.filter_append, hf, List.replicate_succ, ← ih]
      rfl
  · intro p h
    cases n with
    | zero => cases h
    | succ n =>
      rw [mixed, List.replicate_succ', List.flatten_append, List.flatten_singleton, ← List.append_assoc,
        List.getLast?_concat] at h
      cases h
      exact good_accepted

/-- Streams for the pre-roll; the spreads at the ends of the three ranges, and one that is clamped. -/
theorem witness_RayleighInitWithSpread : (∀ s, s ∈ [f0p1, f0p4, 0x3FD999999999999B#64, fTwo, 0x4000000000000001#64, f30, dec 45 1] →
      (isFinite s && fle f0p1 s) = true) ∧
    fle f0p4 f0p4 = true ∧ fle 0x3FD999999999999B#64 f0p4 = false ∧ fle fTwo fTwo = true ∧ fle 0x4000000000000001#64 fTwo = false ∧
    (if fgt (dec 45 1) f30 then f30 else dec 45 1) = f30 ∧ 0 < onePath.lat.P ∧ onePath.paths[0]? = some Path.reset ∧
    (List.replicate 250 good).length = 250 ∧ accepts (mixed 250) (List.replicate 250 good) ∧
    ({ onePath with rng := flat (mixed 250) ++ [] } : State).drawn ++ ({ onePath with rng := flat (mixed 250) ++ [] } : State).rng =
      flat (mixed 250) ++ [] :=
  ⟨all_of (by decide +kernel), by decide, by decide, by decide, by decide, by decide +kernel, by decide, (reset_paths 1 _).2 0 (by decide),
    List.length_replicate, mixed_accepts 250, rfl⟩

theorem witness_RayleighSample : 0 < onePath.lat.P ∧ onePath.paths[0]? = some Path.reset ∧ Path.reset.nospread = true ∧
    0 < fadingState.lat.P ∧ fadingState.paths[0]? = some fading ∧ fading.nospread = false ∧ fading.gf.wf ∧ accepts (mixed 1) [good] ∧
    ({ fadingState with rng := flat (mixed 1) ++ [] } : State).drawn ++ ({ fadingState with rng := flat (mixed 1) ++ [] } : State).rng =
      flat (mixed 1) ++ [] :=
  ⟨by decide, (reset_paths 1 _).2 0 (by decide), rfl, by decide, rfl, rfl, fading_wf.1, mixed_accepts 1, rfl⟩

theorem witness_UpSampler : 0 < fadingState.lat.P ∧ fadingState.paths[0]? = some fading ∧ fading.ups[3]? = some (upsInit 5) ∧
    stageRates[3]? = some 5 ∧ (upsInit 5).ptr < 50 ∧ (9 : Nat) < 10 := ⟨by decide, rfl, rfl, rfl, by decide, by decide⟩

/-- A spread of 0, and one of 0.1 with a stream for the pre-roll. -/
theorem witness_PathInit : 0 < onePath.lat.P ∧ onePath.paths[0]? = some Path.reset ∧
    flt (onePath.lat.spreadRaw.getD 0 fZero) f0p1 = true ∧ 0 < (latchedPaths 1 f0p1).lat.P ∧
    (latchedPaths 1 f0p1).paths[0]? = some Path.reset ∧ f0p1 = (latchedPaths 1 f0p1).lat.spreadRaw.getD 0 fZero ∧
    isFinite f0p1 = true ∧ fle f0p1 f0p1 = true ∧ accepts (mixed 250) (List.replicate 250 good) ∧
    (List.replicate 250 good).length = 250 ∧
    ({ latchedPaths 1 f0p1 with rng := flat (mixed 250) ++ [] } : State).drawn ++
      ({ latchedPaths 1 f0p1 with rng := flat (mixed 250) ++ [] } : State).rng = flat (mixed 250) ++ [] :=
  ⟨by decide, (reset_paths 1 _).2 0 (by decide), by decide, by decide, (reset_paths 1 _).2 0 (by decide), rfl, by decide, by decide,
    mixed_accepts 250, List.length_replicate, rfl⟩

theorem witness_NcoStep : 0 < onePath.lat.P ∧ onePath.paths[0]? = some Path.reset ∧ Path.reset.theta = fZero ∧
    Path.reset.dtheta = fZero := ⟨by decide, (reset_paths 1 _).2 0 (by decide), rfl, rfl⟩

theorem witness_NcoPhaseInRange : 0 < onePath.lat.P ∧ onePath.paths[0]? = some Path.reset ∧ isFinite Path.reset.dtheta = true ∧
    fle fZero Path.reset.theta = true ∧ flt Path.reset.theta fTwoPi = true :=
  ⟨by decide, (reset_paths 1 _).2 0 (by decide), by decide, by decide, by decide⟩

theorem witness_PathCalcWithoutSpread : 0 < onePath.lat.P ∧ onePath.paths[0]? = some Path.reset ∧
    (List.replicate 2048 czero).length = 2048 ∧ Path.reset.nospread = true ∧ Path.reset.mIndex < 1280000 :=
  ⟨by decide, (reset_paths 1 _).2 0 (by decide), List.length_replicate, rfl, by decide⟩

/-- 82 accepted pairs for the first block at 320 Hz; and no value at all, where it holds. -/
theorem witness_PathCalcDraws : 0 < fadingState.lat.P ∧ fadingState.paths[0]? = some fading ∧ fading.wf ∧
    (List.replicate 2048 czero).length = 2048 ∧ fading.nospread = false ∧ stageRates[fading.s0]? = some 25 ∧
    82 = ((List.range 2048).filter fun i => (fading.mIndex + i) % 25 == 0).length ∧
    (List.replicate 82 good).length = 82 ∧ accepts (mixed 82) (List.replicate 82 good) ∧
    ({ fadingState with rng := flat (mixed 82) ++ [] } : State).drawn ++
      ({ fadingState with rng := flat (mixed 82) ++ [] } : State).rng = flat (mixed 82) ++ [] ∧
    fadingState.rngWf ∧ (fadingState.drawn ++ fadingState.rng).length < 2 * 82 ∧ fadingState.drawn = [] ∧
    fadingState.holding = false :=
  ⟨by decide, rfl, fading_wf, List.length_replicate, rfl, rfl, by decide +kernel, List.length_replicate, mixed_accepts 82, rfl,
    rng_empty rfl, show (0 : Nat) < 164 by decide, rfl, rfl⟩

/-- The noise generator with BL = 1 and with BL = 0, and 1024 accepted pairs. -/
def noisy (bl : Bool) : State := { State.reset with nz := noiseInit bl, rng := flat (mixed 1024) ++ [] }

theorem witness_NoiseAdd : (flatBlock fOne).length = 2048 ∧ (∀ bl, (noisy bl).nz.wf ∧ (noisy bl).nz.bl = bl ∧
      (noisy bl).drawn ++ (noisy bl).rng = flat (mixed 1024) ++ []) ∧
    (List.replicate 1024 good).length = 1024 ∧ accepts (mixed 1024) (List.replicate 1024 good) :=
  ⟨flatBlock_length _, fun bl => ⟨noiseInit_wf bl, rfl, rfl⟩, List.length_replicate, mixed_accepts 1024⟩

theorem witness_BusReads : 0 < maxPaths ∧ (0 : Nat) < 2048 ∧ (2047 : Nat) < 2048 ∧ filled.status.busy = false ∧
    readWord filled.mem (0x10000 + 8 * 0) = some fZero ∧ readWord filled.mem (0x10000 + 8 * 2047) = some fZero ∧
    (running .init).status.busy = true :=
  ⟨maxPaths_bounds.1, by decide, by decide, rfl, filled_word 0 (by decide), filled_word 2047 (by decide), rfl⟩

theorem witness_BusWrites : State.reset.pathRegs.length = 32 ∧ 0 < maxPaths := ⟨List.length_replicate, maxPaths_bounds.1⟩

theorem witness_SampleWrites : (0 : Nat) < 2048 ∧ (2047 : Nat) < 2048 ∧ State.reset.status.busy = false ∧
    (running .init).status.busy = true := ⟨by decide, by decide, rfl, rfl⟩

/-- Another width, a misaligned offset, and both ends of each reserved range. -/
theorem witness_BusErrors : (4 : Nat) ≠ 8 ∧ (0x0000C#17).toNat % 8 ≠ 0 ∧ reservedOffset 0x00040#17 ∧ reservedOffset 0x000F8#17 ∧
    reservedOffset 0x00118#17 ∧ reservedOffset (at17 (0x100 + 0x20 * maxPaths)) ∧ reservedOffset 0x0FFF8#17 ∧
    reservedOffset 0x14000#17 ∧ reservedOffset 0x1FFF8#17 := by
  obtain ⟨h1, h2⟩ := maxPaths_bounds
  have h : (at17 (0x100 + 0x20 * maxPaths)).toNat = 0x100 + 0x20 * maxPaths := by
    rw [at17, BitVec.toNat_ofNat, Nat.mod_eq_of_lt (by omega)]
  refine ⟨by decide, by decide, .inl (by decide), .inl (by decide), .inr (.inl ⟨by decide, ?_, by decide⟩), .inr (.inr (.inl ?_)),
    .inr (.inr (.inl ?_)), .inr (.inr (.inr (by decide))), .inr (.inr (.inr (by decide)))⟩
  · show (0x118 : Nat) < _
    omega
  · rw [h]
    omega
  · show _ ≤ (0xFFF8 : Nat) ∧ (0xFFF8 : Nat) < _
    omega

/-- One sample too few, the values just outside the domains, the path after the last, the stage after the last. -/
theorem witness_OperandsOutsideTheRules : onePath.lat.P ≤ 1 ∧ onPathNumber 1 (.ncoStep 1) ∧ (List.replicate 2047 fZero).length ≠ 2048 ∧
    (List.replicate 2047 czero).length ≠ 2048 ∧ List.replicate 2047 czero ∈ [List.replicate 2047 czero] ∧
    isFinite 0x7FF0000000000000#64 = false ∧ flt 0x8000000000000001#64 fZero = true ∧ fgt 0x4049000000000001#64 f50 = true ∧
    gaussDomain f64p0 0x3FB9999999999999#64 = false ∧ stageRates[0]? ≠ some 5 ∧ 0 < fadingState.lat.P ∧
    fadingState.paths[0]? = some fading ∧ fading.ups[4]? = none :=
  ⟨le_rfl, .inr (.inr (.inr (.inr (.inl rfl)))), by rw [List.length_replicate]; decide, by rw [List.length_replicate]; decide,
    List.mem_singleton.mpr rfl, by decide, by decide, by decide, by decide, by decide, by decide, rfl, rfl⟩

/-- Ordinary numbers, with a positive, a negative and a zero sum; the root of a number and of −0.0. -/
theorem witness_RoundsToNearestEven : isFinite fOne = true ∧ isFinite fTwo = true ∧ fsigned fTwo - fsigned fOne > 0 ∧
    fsigned fOne - fsigned fTwo < 0 ∧ fsigned fOne - fsigned fOne = 0 ∧ isFinite (fadd fOne fTwo) = true ∧
    isFinite (fsub fOne fTwo) = true ∧ isFinite (fmul fOne fTwo) = true ∧ fmag fOne < infMag ∧ 0 < fmag fTwo ∧
    isFinite (fdiv fOne fTwo) = true ∧ fsign fTwo = false ∧ fmag (fneg fZero) = 0 ∧ isFinite (fneg fZero) = true ∧
    fmag fOne ≠ fmag (fsqrt fTwo) := by decide +kernel

end Sys2Proof.Tests
end

namespace Sys2Proof.Proofs.Bus
open Sys2Proof Sys2Proof.Machine Sys2Proof.Claims

/-! ### The reserved ranges of the address map (20_memory.md R62) -/

/-- The last place of a path's slot of 0x20 bytes names no register. -/
theorem decodePathOffset_eq_none {o : Nat} (h : 0x18 ≤ o % 0x20) : decodePathOffset o = none := by
  rw [decodePathOffset, if_neg (by omega), if_neg (by omega), if_neg (by omega)]

/-- Past the eight single registers the map holds the path registers and SAMPLE_BUF. -/
theorem decodeOffset_of_le {off : Offset} (h : 0x40 ≤ off.toNat) :
    decodeOffset off =
      if 0x100 ≤ off.toNat ∧ off.toNat < 0x100 + 0x20 * maxPaths then decodePathOffset off.toNat
      else if 0x10000 ≤ off.toNat ∧ off.toNat < 0x14000 then some (.sample ((off.toNat - 0x10000) / 8))
      else none := by
  dsimp only [decodeOffset]
  iterate 8 rw [if_neg (by omega)]

/-- The path slots end below SAMPLE_BUF, since MAX_PATHS is at most 32; so each reserved range misses every mapped row. -/
theorem decodeOffset_of_reserved {off : Offset} (h : reservedOffset off) : decodeOffset off = none := by
  have hmax : maxPaths ≤ 32 := Config.maxPathsPred.isLt
  rcases h with ⟨hlo, hhi⟩ | ⟨hlo, hhi, hplace⟩ | ⟨hlo, hhi⟩ | hlo
  · rw [decodeOffset_of_le hlo, if_neg (by omega), if_neg (by omega)]
  · rw [decodeOffset_of_le (by omega), if_pos ⟨hlo, hhi⟩, decodePathOffset_eq_none hplace]
  · rw [decodeOffset_of_le (by omega), if_neg (by omega), if_neg (by omega)]
  · rw [decodeOffset_of_le (by omega), if_neg (by omega), if_neg (by omega)]

/-! ### Accesses that name nothing (20_memory.md R64) -/

theorem admitted_eq_none {off : Offset} {w : Nat} (h : w ≠ 8 ∨ off.toNat % 8 ≠ 0 ∨ reservedOffset off) :
    admitted off w = none := by
  rcases h with hwidth | halign | hres
  · exact if_neg fun ok => hwidth ok.1
  · exact if_neg fun ok => halign ok.2
  · rw [admitted, decodeOffset_of_reserved hres, ite_self]

theorem exec_busRead_of_admitted_eq_none {off : Offset} {w : Nat} (h : admitted off w = none) (s : State) :
    exec (.busRead off w) s = .next (s.respond (.read true 0#64)) := by
  rw [exec, execBusRead, h]

theorem exec_busWrite_of_admitted_eq_none {off : Offset} {w : Nat} (h : admitted off w = none) (v : Word) (s : State) :
    exec (.busWrite off w v) s = .next (s.respond (.write true)) := by
  rw [exec, execBusWrite, h]

/-- Settles O57: each of the three conditions leaves the access naming nothing, and such an access is only answered. -/
theorem busErrors : Obligations.BusErrors := by
  intro s off w v h
  have hnone := admitted_eq_none h
  exact ⟨exec_busRead_of_admitted_eq_none hnone s, exec_busWrite_of_admitted_eq_none hnone v s⟩

end Sys2Proof.Proofs.Bus

namespace Sys2Proof.Proofs.Encoding
open Sys2Proof Sys2Proof.Laws

/-! ### The opcode map (30_encoding.md R82) -/

/-- Settles O2: the three command words decode by evaluation; what is none of them is illegal by `decode_other`. -/
theorem opcodeMap : Obligations.OpcodeMap := by
  intro w
  split_ifs with hnop hinit hprocess
  · rw [hnop]; rfl
  · rw [hinit]; rfl
  · rw [hprocess]; rfl
  · exact decode_other w hnop hinit hprocess

end Sys2Proof.Proofs.Encoding

namespace Sys2Proof.Proofs.FirHilbert
open Sys2Proof Sys2Proof.Machine

/-! ### What the unit resets leave (41_fir_hilbert.md R102, 42_delay_line.md R110, 45_noise.md R160) -/

theorem exec_hilbertInit (s : State) : exec .hilbertInit s = .next { s with hil := hilbertZero } := by
  rw [exec, execHilbertInit]

theorem exec_delayInit (s : State) : exec .delayInit s = .next { s with dl := delayZero } := by
  rw [exec, execDelayInit]

theorem exec_noiseInit (bl : Bool) (s : State) : exec (.noiseInit bl) s = .next { s with nz := noiseInit bl } := by
  rw [exec, execNoiseInit]

/-- R110's `length - 1` in numbers: the line has 2448 samples, so the write pointer starts at 2447. -/
theorem delayZero_eq : delayZero = ⟨List.replicate 2448 czero, 2447, []⟩ := by
  rw [delayZero, delayLen]

/-- Settles O34: each reset puts its unit's constant in place of that unit alone, and the constants are those of the rules. -/
theorem unitResets : Obligations.UnitResets := by
  intro s bl
  refine ⟨?hilbert, ?delay, ?noise⟩
  case hilbert => rw [exec_hilbertInit, hilbertZero]
  case delay => rw [exec_delayInit, delayZero_eq]
  case noise => rw [exec_noiseInit, noiseInit]

end Sys2Proof.Proofs.FirHilbert

namespace Sys2Proof.Proofs.DelayLine
open Sys2Proof Sys2Proof.Machine Sys2Proof.Laws

/-! ### Patterns with a given sign and magnitude -/

theorem fmag_ofSignMag {m : Nat} (h : m ≤ infMag) (s : Bool) : fmag (ofSignMag s m) = m := by
  have hm : m < 2 ^ 63 := h.trans_lt (by decide)
  cases s with
  | false => exact (ofSignMag_false h).1
  | true =>
    rw [fmag, ofSignMag, if_pos rfl, BitVec.toNat_ofNat]
    omega

theorem fsign_ofSignMag {m : Nat} (h : m ≤ infMag) (s : Bool) : fsign (ofSignMag s m) = s := by
  have hm : m < 2 ^ 63 := h.trans_lt (by decide)
  cases s with
  | false => exact (ofSignMag_false h).2
  | true =>
    rw [fsign, ofSignMag, if_pos rfl, BitVec.toNat_ofNat]
    exact decide_eq_true (by omega)

/-- `trunc` of a finite pattern (00_scope.md R8). -/
theorem ftrunc_ofSignMag {m : Nat} (h : m < infMag) (s : Bool) :
    ftrunc (ofSignMag s m) =
      if s then -((unitsOfMag m / unitsPerOne : Nat) : Int) else (unitsOfMag m / unitsPerOne : Nat) := by
  have hfin : isFinite (ofSignMag s m) = true := by
    rw [isFinite, fmag_ofSignMag h.le]
    exact decide_eq_true h
  rw [ftrunc, if_pos hfin, funits, fmag_ofSignMag h.le, fsign_ofSignMag h.le]

/-! ### Doubling a magnitude is exact -/

/-- The magnitude bits of twice the number: a subnormal is shifted, a normal number takes the next exponent. -/
def doubleMag (m : Nat) : Nat := if m / 2 ^ 52 = 0 then 2 * m else m + 2 ^ 52

theorem doubleMag_le (m : Nat) : doubleMag m ≤ m + 2 ^ 52 := by
  unfold doubleMag
  split <;> omega

theorem unitsOfMag_of_lt {m : Nat} (h : m < 2 ^ 52) : unitsOfMag m = m := by
  rw [unitsOfMag, if_pos (Nat.div_eq_of_lt h), Nat.mod_eq_of_lt h]

theorem unitsOfMag_of_binade {e f : Nat} (h : f < 2 ^ 52) :
    unitsOfMag ((e + 1) * 2 ^ 52 + f) = (2 ^ 52 + f) * 2 ^ e := by
  have hdiv : ((e + 1) * 2 ^ 52 + f) / 2 ^ 52 = e + 1 := by omega
  have hmod : ((e + 1) * 2 ^ 52 + f) % 2 ^ 52 = f := by omega
  rw [unitsOfMag, hdiv, hmod, if_neg (Nat.succ_ne_zero e), Nat.add_sub_cancel]

/-- A subnormal doubled stays subnormal or enters the lowest binade; a normal number keeps its fraction. -/
theorem unitsOfMag_doubleMag (m : Nat) : unitsOfMag (doubleMag m) = 2 * unitsOfMag m := by
  unfold doubleMag
  split
  case isTrue hsub =>
    have hm : m < 2 ^ 52 := by omega
    rw [unitsOfMag_of_lt hm]
    rcases Nat.lt_or_ge (2 * m) (2 ^ 52) with hlow | hhigh
    · exact unitsOfMag_of_lt hlow
    · have hsplit : 2 * m = (0 + 1) * 2 ^ 52 + (2 * m - 2 ^ 52) := by omega
      rw [hsplit, unitsOfMag_of_binade (by omega)]
      omega
  case isFalse hnorm =>
    obtain ⟨e, f, hf, rfl⟩ : ∃ e f, f < 2 ^ 52 ∧ m = (e + 1) * 2 ^ 52 + f :=
      ⟨m / 2 ^ 52 - 1, m % 2 ^ 52, Nat.mod_lt _ (by decide), by omega⟩
    have hnext : (e + 1) * 2 ^ 52 + f + 2 ^ 52 = (e + 1 + 1) * 2 ^ 52 + f := by omega
    rw [hnext, unitsOfMag_of_binade hf, unitsOfMag_of_binade hf, pow_succ]
    ring

/-- The magnitude bits of eight times the number. -/
def octupleMag (m : Nat) : Nat := doubleMag (doubleMag (doubleMag m))

theorem unitsOfMag_octupleMag (m : Nat) : unitsOfMag (octupleMag m) = 8 * unitsOfMag m := by
  simp only [octupleMag, unitsOfMag_doubleMag]
  omega

theorem octupleMag_le (m : Nat) : octupleMag m ≤ m + 3 * 2 ^ 52 := by
  have h1 := doubleMag_le m
  have h2 := doubleMag_le (doubleMag m)
  have h3 := doubleMag_le (doubleMag (doubleMag m))
  unfold octupleMag
  omega

/-! ### The delays that INIT admits (46_channel_commands.md R180) -/

theorem unitsPerOne_pos : 0 < unitsPerOne := by
  unfold unitsPerOne
  positivity

/-- A number that is the integer c: its mantissa is c shifted into the binade. -/
theorem unitsOfMag_of_integer {e k f c : Nat} (he : e + k = 1074) (hf : f < 2 ^ 52) (hc : 2 ^ 52 + f = c * 2 ^ k) :
    unitsOfMag ((e + 1) * 2 ^ 52 + f) = c * unitsPerOne := by
  rw [unitsOfMag_of_binade hf, hc, unitsPerOne, ← he, pow_add]
  ring

theorem funits_fEight : funits fEight = 8 * unitsPerOne := by
  have hmag : fmag fEight = (1025 + 1) * 2 ^ 52 + 0 := by decide
  rw [funits, hmag, unitsOfMag_of_integer (k := 49) (c := 8) rfl (by decide) (by decide)]

theorem funits_f50 : funits f50 = 50 * unitsPerOne := by
  have hmag : fmag f50 = (1027 + 1) * 2 ^ 52 + 9 * 2 ^ 48 := by decide
  rw [funits, hmag, unitsOfMag_of_integer (k := 47) (c := 50) rfl (by decide) (by decide)]

/-- An admitted delay is at most 50.0 in magnitude, and the only one with a sign is −0.0. -/
theorem delayInRange_bounds {d : F64} (h : delayInRange d = true) :
    fmag d ≤ fmag f50 ∧ (fsign d = true → fmag d = 0) := by
  have hz : isNaN fZero = false ∧ fkey fZero = 0 := by decide
  have h50 : isNaN f50 = false ∧ fkey f50 = fmag f50 := by decide
  have hfin : isFinite d = true := by simp_all [delayInRange]
  have hnan : isNaN d = false := decide_eq_false (of_decide_eq_true hfin).le.not_gt
  have hkey : 0 ≤ fkey d ∧ fkey d ≤ fmag f50 := by
    simpa [delayInRange, flt, fgt, hfin, hnan, hz, h50] using h
  rw [fkey] at hkey
  cases hs : fsign d with
  | false =>
    rw [if_neg (by simp [hs])] at hkey
    exact ⟨by omega, nofun⟩
  | true =>
    rw [if_pos hs] at hkey
    exact ⟨by omega, fun _ => by omega⟩

/-- The product 8.0 × d is exact over the admitted magnitudes: it raises the exponent, far below overflow. -/
theorem fmul_fEight {d : F64} (h : fmag d ≤ fmag f50) :
    fmul fEight d = ofSignMag (fsign d) (octupleMag (fmag d)) ∧ octupleMag (fmag d) < infMag := by
  have h8 : fsign fEight = false ∧ isNaN fEight = false ∧ isInf fEight = false := by decide
  have hroom : fmag f50 + 3 * 2 ^ 52 < infMag := by decide
  have hoct : octupleMag (fmag d) < infMag := by
    have := octupleMag_le (fmag d)
    omega
  have hlt : fmag d < infMag := by omega
  have hnan : isNaN d = false := decide_eq_false hlt.le.not_gt
  have hinf : isInf d = false := beq_eq_false_iff_ne.mpr hlt.ne
  have hexact : funits fEight * funits d = unitsOfMag (octupleMag (fmag d)) * unitsPerOne := by
    rw [funits_fEight, unitsOfMag_octupleMag, funits]
    ring
  refine ⟨?_, hoct⟩
  rw [fmul]
  simp [h8, hnan, hinf, hexact, roundMag_unitsOfMag _ _ hoct.le unitsPerOne_pos]

/-- The delay in samples is floor(8·d); −0.0 gives 0 (42_delay_line.md R111). -/
theorem delaySamples_eq {d : F64} (h : delayInRange d = true) :
    delaySamples d = (8 * funits d / unitsPerOne : Nat) := by
  obtain ⟨hmag, hsign⟩ := delayInRange_bounds h
  obtain ⟨hmul, hfin⟩ := fmul_fEight hmag
  rw [delaySamples, hmul, ftrunc_ofSignMag hfin, unitsOfMag_octupleMag, funits]
  cases hs : fsign d with
  | false => rfl
  | true =>
    have hzero : unitsOfMag 0 = 0 := unitsOfMag_of_lt (by decide)
    rw [hsign hs, hzero]
    simp

theorem funits_le_of_delayInRange {d : F64} (h : delayInRange d = true) : funits d ≤ 50 * unitsPerOne :=
  funits_f50 ▸ unitsOfMag_mono (delayInRange_bounds h).1

/-! ### The read pointer -/

/-- Behind a write pointer in the buffer by no more than its length, R111's integer remainder is a sum of naturals. -/
theorem readPointer_eq {w D : Nat} (h : D ≤ 2448) :
    (((w : Int) - (D : Int)) % (delayLen : Int)).toNat = (w + 2448 - D) % 2448 := by
  rw [delayLen]
  omega

theorem exec_delayAdd {d : F64} (h : delayInRange d = true) (s : State) :
    exec (.delayAdd d) s = .next { s with dl := delayAdd s.dl d } := by
  rw [exec, execDelayAdd, guarded, if_pos h]

/-- Settles O38: 8.0 × d is exact, so its truncation is the floor of 8·d, and the pointer is that far behind. -/
theorem delayAdd : Obligations.DelayAdd := by
  intro s d hd _
  have hD : 8 * funits d / unitsPerOne ≤ 400 := by
    refine Nat.div_le_of_le_mul ?_
    have := funits_le_of_delayInRange hd
    omega
  refine ⟨8 * funits d / unitsPerOne, hD, Nat.div_mul_le_self _ _, ?_, ?_⟩
  · exact (Nat.div_lt_iff_lt_mul unitsPerOne_pos).mp (Nat.lt_succ_self _)
  · rw [exec_delayAdd hd, Machine.delayAdd, delaySamples_eq hd, readPointer_eq (by omega)]

end Sys2Proof.Proofs.DelayLine

namespace Sys2Proof.Proofs.SampleBuffer
open Sys2Proof Sys2Proof.Machine Sys2Proof.Laws

/-! ### Words and their bytes (20_memory.md R65) -/

/-- The number that little-endian bytes spell, as `wordOfBytes` reads them. -/
def numberOfBytes (bs : List Byte) : Nat := bs.foldr (fun b acc => b.toNat + 256 * acc) 0

theorem numberOfBytes_cons (b : Byte) (bs : List Byte) : numberOfBytes (b :: bs) = b.toNat + 256 * numberOfBytes bs := rfl

theorem numberOfBytes_lt (bs : List Byte) : numberOfBytes bs < 256 ^ bs.length := by
  induction bs with
  | nil => exact Nat.one_pos
  | cons b bs ih =>
    have hb : b.toNat < 256 := b.isLt
    rw [numberOfBytes_cons, List.length_cons, pow_succ]
    omega

/-- Byte k is digit k in base 256. -/
theorem numberOfBytes_digit {bs : List Byte} {k : Nat} (hk : k < bs.length) :
    numberOfBytes bs / 256 ^ k % 256 = bs[k].toNat := by
  induction bs generalizing k with
  | nil => exact absurd hk (Nat.not_lt_zero k)
  | cons b bs ih =>
    have hb : b.toNat < 256 := b.isLt
    rw [numberOfBytes_cons]
    cases k with
    | zero =>
      rw [pow_zero, Nat.div_one, List.getElem_cons_zero]
      omega
    | succ k =>
      have hshift : (b.toNat + 256 * numberOfBytes bs) / 256 = numberOfBytes bs := by omega
      rw [pow_succ', ← Nat.div_div_eq_div_mul, hshift, List.getElem_cons_succ, ih]

/-- A word put together from eight bytes has those bytes. -/
theorem byteOfWord_wordOfBytes {bs : List Byte} (hlen : bs.length = 8) {k : Nat} (hk : k < bs.length) :
    byteOfWord (wordOfBytes bs) k = bs[k] := by
  have hword : (wordOfBytes bs).toNat = numberOfBytes bs := by
    have hlt := numberOfBytes_lt bs
    rw [hlen] at hlt
    exact Nat.mod_eq_of_lt hlt
  apply BitVec.eq_of_toNat_eq
  rw [byteOfWord, BitVec.extractLsb'_toNat, hword, Nat.shiftRight_eq_div_pow, pow_mul]
  exact numberOfBytes_digit hk

/-- A map that succeeds on a whole list gives the values it has on the elements. -/
theorem map_some_of_mapM {α β : Type} {f : α → Option β} {xs : List α} {ys : List β} (h : xs.mapM f = some ys) :
    ys.map some = xs.map f := by
  induction xs generalizing ys with
  | nil =>
    rw [List.mapM_nil] at h
    cases h
    rfl
  | cons x xs ih =>
    obtain ⟨y, hy, zs, hzs, rfl⟩ : ∃ y, f x = some y ∧ ∃ zs, xs.mapM f = some zs ∧ y :: zs = ys := by
      simpa [Option.bind_eq_some_iff] using h
    rw [List.map_cons, List.map_cons, hy, ih hzs]

/-- The bytes of a word that is read are the bytes that are read. -/
theorem readByte_of_readWord {m : Memory} {a k : Nat} {v : Word} (h : readWord m a = some v) (hk : k < 8) :
    readByte m (a + k) = some (byteOfWord v k) := by
  obtain ⟨bs, hbs, rfl⟩ := Option.map_eq_some_iff.mp h
  have hread := map_some_of_mapM hbs
  have hlen : bs.length = 8 := by simpa using congrArg List.length hread
  have hkb : k < bs.length := by omega
  have hbyte : some bs[k] = readByte m (a + k) := by
    simpa [hk, hkb] using congrArg (·[k]?) hread
  rw [byteOfWord_wordOfBytes hlen hkb, hbyte]

/-! ### Writing what is already held (46_channel_commands.md R183) -/

theorem readByte_writeWord_self {m : Memory} {a : Nat} {v : Word} (h : readWord m a = some v) (x : Nat) :
    readByte (writeWord m a v) x = readByte m x := by
  rw [readByte_writeWord]
  split
  case isTrue hx =>
    rw [← readByte_of_readWord h (by omega), Nat.add_sub_cancel' hx.1]
  case isFalse => rfl

theorem readByte_writeBlockFrom_self {y : List F64} {m : Memory} {i : Nat}
    (h : ∀ k (hk : k < y.length), readWord m (sampleOff (i + k)) = some y[k]) (x : Nat) :
    readByte (writeBlockFrom m i y) x = readByte m x := by
  induction y generalizing m i with
  | nil => rfl
  | cons v y ih =>
    have hfirst : readWord m (sampleOff i) = some v := h 0 (by simp)
    have hkeep := readByte_writeWord_self hfirst
    rw [writeBlockFrom, ih, hkeep]
    intro k hk
    rw [readWord_congr _ m _ fun j _ => hkeep _, Nat.add_assoc, Nat.add_comm 1]
    exact h (k + 1) (by simpa using hk)

theorem readWord_of_sampleValid {s : State} {i : Nat} (h : sampleValid s.mem i = true) :
    readWord s.mem (sampleOff i) = some (sampleRead s i) := by
  obtain ⟨v, hv⟩ := Option.isSome_iff_exists.mp h
  rw [sampleRead, hv, Option.getD_some]

/-- Writing back the block that stands in SAMPLE_BUF changes no byte. -/
theorem readByte_writeBlock_readBlock {s : State} (h : ∀ i, i < 2048 → sampleValid s.mem i = true) (x : Nat) :
    readByte (writeBlock s.mem (readBlock s)) x = readByte s.mem x := by
  refine readByte_writeBlockFrom_self (fun k hk => ?_) x
  rw [readBlock_length] at hk
  simp [readBlock, readWord_of_sampleValid (h k hk)]

end Sys2Proof.Proofs.SampleBuffer

namespace Sys2Proof.Proofs.ChannelCommands
open Sys2Proof Sys2Proof.Machine Sys2Proof.Claims Sys2Proof.Laws Sys2Proof.Proofs.SampleBuffer

/-! ### ISSUE and NOP (46_channel_commands.md R192, R193) -/

theorem exec_issue (w : Word) (s : State) : exec (.issue w) s = exec (decode w) s := by
  rw [← execIssue_eq_decode, exec]

theorem exec_nop_of_idle {s : State} (h : s.seq = .idle) :
    exec .nop s = .next { s with status := { s.status with errCode := .ok, cmdDropped := false } } := by
  rw [exec, execNop, takeCommand_idle _ h, State.setErr]

theorem exec_nop_of_running {s : State} (h : s.seq ≠ .idle) :
    exec .nop s = .next { s with status := { s.status with cmdDropped := true } } := by
  rw [exec, execNop, takeCommand_busy _ h]

/-- Settles O16: NOP is taken or dropped by the sequencer's state, and the word 0 issues NOP. -/
theorem nopCommand : Obligations.NopCommand := by
  intro s
  have hword : exec (.issue 0x0#64) s = exec .nop s := exec_issue 0x0#64 s
  rw [hword]
  exact ⟨fun hidle => ⟨exec_nop_of_idle hidle, exec_nop_of_idle hidle⟩,
    fun hrun => ⟨exec_nop_of_running hrun, exec_nop_of_running hrun⟩⟩

/-! ### AGC_GAINS (R174) -/

theorem agcGains_noise_off (target snr r : F64) : Machine.agcGains target false snr r = (fOne, fZero) := by
  rw [Machine.agcGains, if_neg Bool.false_ne_true]

theorem agcGains_signal_stronger {snr : F64} (h : fge snr fOne = true) (target r : F64) :
    Machine.agcGains target true snr r = (fdiv target r, fdiv (fmul (fdiv target r) r) snr) := by
  rw [Machine.agcGains, if_pos rfl, if_pos h]

theorem agcGains_noise_stronger {snr : F64} (h : fge snr fOne = false) (target r : F64) :
    Machine.agcGains target true snr r = (fdiv (fmul target snr) r, target) := by
  rw [Machine.agcGains, if_pos rfl, if_neg (by simp [h])]

theorem exec_agcGains {s : State} {sg nr : F64}
    (h : Machine.agcGains targetRms s.lat.noiseOn s.lat.snr s.sigAvg = (sg, nr)) :
    exec .agcGains s = .next { s with result := .gains sg nr } := by
  rw [exec, execAgcGains, h, State.returning]

/-- Settles O32: the three cases of R174 are the branches of the gain formula, and the operation only returns the gains. -/
theorem agcGains : Obligations.AgcGains := by
  intro s
  refine ⟨fun hoff => ?off, fun hon hsnr => ?signal, fun hon hsnr => ?noise⟩
  case off => exact exec_agcGains (by rw [hoff, agcGains_noise_off])
  case signal => exact exec_agcGains (by rw [hon, agcGains_signal_stronger hsnr])
  case noise => exact exec_agcGains (by rw [hon, agcGains_noise_stronger hsnr])

/-! ### PATH_ACCUMULATE (R176) -/

/-- The real parts of a block, by sample index. -/
theorem map_re_eq_map_range {y : List Cplx} {n : Nat} (h : y.length = n) :
    y.map Cplx.re = (List.range n).map fun i => (y.getD i czero).re := by
  subst h
  apply List.ext_getElem <;> simp +contextual

/-- Blocks added one after the other, sample by sample: each sample is a sum of its own, in the same order. -/
theorem foldl_zipWith_fadd {n : Nat} {ys : List (List Cplx)} (h : ∀ y ∈ ys, y.length = n) (f : Nat → F64) :
    ys.foldl (fun acc y => List.zipWith fadd acc (y.map Cplx.re)) ((List.range n).map f) =
      (List.range n).map fun i => ys.foldl (fun acc y => fadd acc (y.getD i czero).re) (f i) := by
  induction ys generalizing f with
  | nil => rfl
  | cons y ys ih =>
    obtain ⟨hy, hys⟩ := List.forall_mem_cons.mp h
    simp only [List.foldl_cons]
    rw [map_re_eq_map_range hy, List.zipWith_map, List.zipWith_self, ih hys]

theorem pathAccumulate_cons {n : Nat} {y0 : List Cplx} {ys : List (List Cplx)} (h0 : y0.length = n)
    (hys : ∀ y ∈ ys, y.length = n) :
    Machine.pathAccumulate (y0 :: ys) =
      (List.range n).map fun i => ys.foldl (fun acc y => fadd acc (y.getD i czero).re) (y0.getD i czero).re := by
  rw [Machine.pathAccumulate, map_re_eq_map_range h0, foldl_zipWith_fadd hys]

theorem isBlock_iff {α : Type} {xs : List α} : isBlock xs = true ↔ xs.length = 2048 := by
  rw [isBlock, beq_iff_eq, blockLen]

theorem exec_pathAccumulate {y0 : List Cplx} {ys : List (List Cplx)} (h0 : y0.length = 2048)
    (hys : ∀ y ∈ ys, y.length = 2048) (s : State) :
    exec (.pathAccumulate (y0 :: ys)) s = .next { s with result := .samples (Machine.pathAccumulate (y0 :: ys)) } := by
  have hall : (y0 :: ys).all isBlock = true :=
    List.all_eq_true.mpr (List.forall_mem_cons.mpr ⟨isBlock_iff.mpr h0, fun y hy => isBlock_iff.mpr (hys y hy)⟩)
  have hdom : (!(y0 :: ys).isEmpty && (y0 :: ys).all isBlock) = true := by rw [hall]; rfl
  rw [exec, execPathAccumulate, guarded, if_pos hdom, State.returning]

/-- Settles O33: by `foldl_zipWith_fadd` the sum of the blocks is at each sample the sum of its real parts in path order. -/
theorem pathAccumulate : Obligations.PathAccumulate := by
  intro s y0 ys h0 hys
  rw [exec_pathAccumulate h0 hys, pathAccumulate_cons h0 hys]

/-! ### INIT_VALIDATE (R180) -/

/-- A check over the registers of the first P paths asks for one of those paths. -/
theorem any_take_pathRegs {s : State} {P : Nat} (hP : P ≤ s.pathRegs.length) (f : PathRegs → Bool) :
    (s.pathRegs.take P).any f = true ↔ ∃ p, p < P ∧ f (s.pathReg p) = true := by
  have hreg : ∀ p (h : p < s.pathRegs.length), s.pathReg p = s.pathRegs[p] := fun p h => by
    rw [State.pathReg, List.getD_eq_getElem _ _ h]
  rw [List.any_eq_true]
  constructor
  · rintro ⟨r, hr, hf⟩
    obtain ⟨p, hp, rfl⟩ := List.mem_take_iff_getElem.mp hr
    refine ⟨p, by omega, ?_⟩
    rwa [hreg p (by omega)]
  · rintro ⟨p, hp, hf⟩
    rw [hreg p (by omega)] at hf
    exact ⟨_, List.mem_take_iff_getElem.mpr ⟨p, by omega, rfl⟩, hf⟩

theorem nonfinite_iff {s : State} (hP : s.numPaths.toNat ≤ s.pathRegs.length) :
    ((s.pathRegs.take s.numPaths.toNat).any (fun r => !isFinite r.delayMs || !isFinite r.spreadHz || !isFinite r.offsetHz) ||
      (s.noiseCtrl.getLsbD 0 && !isFinite s.snr)) = true ↔ nonfinite s := by
  rw [Bool.or_eq_true, any_take_pathRegs hP]
  simp [nonfinite, nonfinitePath, noiseEnabled, or_assoc]

theorem delayOut_iff {s : State} (hP : s.numPaths.toNat ≤ s.pathRegs.length) :
    (s.pathRegs.take s.numPaths.toNat).any (fun r => flt r.delayMs fZero || fgt r.delayMs f50) = true ↔ delayOut s := by
  rw [any_take_pathRegs hP]
  simp [delayOut]

theorem snrNegative_iff (s : State) : (s.noiseCtrl.getLsbD 0 && flt s.snr fZero) = true ↔ snrNegative s := by
  rw [Bool.and_eq_true, snrNegative, noiseEnabled]

theorem initValidate_of_tooManyPaths {s : State} (h : maxPaths < s.numPaths.toNat) : initValidate s = .cfgPathCount :=
  if_pos h

/-- Past the path count, the checks are the causes of R204, R205 and R206, in that order. -/
theorem initValidate_eq {s : State} [Decidable (nonfinite s)] [Decidable (delayOut s)] [Decidable (snrNegative s)]
    (hlen : s.pathRegs.length = 32) (hP : s.numPaths.toNat ≤ maxPaths) :
    initValidate s =
      if nonfinite s then .cfgNonfinite else if delayOut s then .cfgDelayRange else if snrNegative s then .cfgSnrNegative
      else .ok := by
  have hregs : s.numPaths.toNat ≤ s.pathRegs.length := by
    have hmax : maxPaths ≤ 32 := Config.maxPathsPred.isLt
    omega
  simp only [initValidate, if_neg hP.not_gt, nonfinite_iff hregs, delayOut_iff hregs, snrNegative_iff]

theorem exec_initValidate {s : State} {e : ErrCode} (h : initValidate s = e) :
    exec .initValidate s = .next { s with result := .code e } := by
  rw [exec, execInitValidate, h, State.returning]

/-- Settles O21: the code is the branch of `initValidate_eq` that the causes select, and the operation only returns it. -/
theorem initValidateCodes : Obligations.InitValidateCodes := by
  classical
  intro s hlen
  refine ⟨fun hmax => ?pathCount, fun hP hfin => ?nonfinite, fun hP hfin hdelay => ?delayRange,
    fun hP hfin hdelay hsnr => ?snrNegative, fun hP hfin hdelay hsnr => ?ok⟩ <;> apply exec_initValidate
  case pathCount => exact initValidate_of_tooManyPaths hmax
  case nonfinite => rw [initValidate_eq hlen hP, if_pos hfin]
  case delayRange => rw [initValidate_eq hlen hP, if_neg hfin, if_pos hdelay]
  case snrNegative => rw [initValidate_eq hlen hP, if_neg hfin, if_neg hdelay, if_pos hsnr]
  case ok => rw [initValidate_eq hlen hP, if_neg hfin, if_neg hdelay, if_neg hsnr]

/-! ### PROCESS_BLOCK in direct mode without noise (R182, R183, R195, R196) -/

theorem exec_processBlock_of_ready {s : State} (hidle : s.seq = .idle) (hconf : s.status.configured = true)
    (hvalid : ∀ i, i < 2048 → sampleValid s.mem i = true) :
    exec .processBlock s =
      .next (startCommand .processBlock { s with status := { s.status with cmdDropped := false } }) := by
  have hall : allValid s.mem = true := List.all_eq_true.mpr fun i hi => hvalid i (List.mem_range.mp hi)
  rw [exec, execProcessBlock, takeCommand_idle _ hidle]
  dsimp only
  rw [if_pos hconf, if_pos hall]

theorem chanProcessWork_direct {s : State} (hdirect : s.lat.direct = true) (hoff : s.lat.noiseOn = false) (rng : List F64) :
    chanProcessWork s rng =
      .ok ⟨⟨s.hil, s.dl, s.paths, readBlock s⟩, s.nz, rmsUpdate (readBlock s) s.sigAvg, readBlock s, fZero⟩ rng := by
  simp [chanProcessWork, pathBank, noiseStage, hdirect, hoff]

theorem exec_chanProcess_direct {s : State} (hdirect : s.lat.direct = true) (hoff : s.lat.noiseOn = false) :
    exec .chanProcess s = .next { s with
      sigAvg := rmsUpdate (readBlock s) s.sigAvg, finished := some (.block (readBlock s) fZero)
      drawn := [], holding := false, rng := s.drawn ++ s.rng } := by
  rw [exec, execChanProcess, runDraws_ok (chanProcessWork_direct hdirect hoff _)]

theorem exec_complete_block {s : State} {y : List F64} {nrd : F64} (hseq : s.seq = .run .processBlock)
    (hfin : s.finished = some (.block y nrd)) : exec .complete s = .next (completeBlock y nrd s) := by
  rw [exec, execComplete, hseq, hfin]

/-! ### The steps that lead there (R191, R192; 10_state.md R35) -/

theorem exec_busWrite_cmd (v : Word) (s : State) :
    exec (.busWrite 0x00000#17 8 v) s = exec (decode v) (s.respond (.write false)) := by
  have hcmd : admitted 0x00000#17 8 = some .cmd := rfl
  rw [← execIssue_eq_decode, exec, execBusWrite, hcmd]

theorem step_host_write {s : State} {off : Offset} {w : Nat} {v : Word} {rest : List BusAccess} {ts : List Turn}
    (hturn : s.turns = .host :: ts) (hbus : s.bus = .write off w v :: rest) :
    step s = exec (.busWrite off w v) { s with bus := rest, turns := ts } := by
  simp [step, fetch, hostTurn, hturn, hbus]

theorem step_sequencer_work {s : State} {ts : List Turn} (hturn : s.turns = .sequencer :: ts)
    (hseq : s.seq = .run .processBlock) (hfin : s.finished = none) :
    step s = exec .chanProcess { s with turns := ts } := by
  simp [step, fetch, sequencerTurn, hturn, hseq, hfin]

theorem step_sequencer_complete {s : State} {c : Command} {f : Finished} {ts : List Turn}
    (hturn : s.turns = .sequencer :: ts) (hseq : s.seq = .run c) (hfin : s.finished = some f) :
    step s = exec .complete { s with turns := ts } := by
  simp [step, fetch, sequencerTurn, hturn, hseq, hfin]

/-- The state while PROCESS_BLOCK runs, after the host's write of its word is taken: `ts` are the turns still to come and `rest`
the accesses still to be made. -/
def processing (s : State) (rest : List BusAccess) (ts : List Turn) : State :=
  { s with
    status := { s.status with errCode := .ok, busy := true, cmdDropped := false }
    seq := .run .processBlock, drawn := [], holding := false, finished := none
    bus := rest, resp := s.resp ++ [.write false], turns := ts }

/-- The state when the direct-mode work of that command is done. -/
def processed (s : State) (rest : List BusAccess) (ts : List Turn) : State :=
  { processing s rest ts with
    sigAvg := rmsUpdate (readBlock s) s.sigAvg, finished := some (.block (readBlock s) fZero) }

theorem step_starts_processBlock {s : State} {rest : List BusAccess} {ts : List Turn} (hidle : s.seq = .idle)
    (hconf : s.status.configured = true) (hvalid : ∀ i, i < 2048 → sampleValid s.mem i = true)
    (hbus : s.bus = .write 0x00000#17 8 0x2#64 :: rest) (hturn : s.turns = .host :: ts) :
    step s = .next (processing s rest ts) := by
  have hdecode : decode 0x2#64 = .processBlock := rfl
  rw [step_host_write hturn hbus, exec_busWrite_cmd, hdecode]
  exact exec_processBlock_of_ready hidle hconf hvalid

theorem step_processes_direct {s : State} (hdirect : s.lat.direct = true) (hoff : s.lat.noiseOn = false)
    (rest : List BusAccess) (ts : List Turn) :
    step (processing s rest (.sequencer :: ts)) = .next (processed s rest ts) := by
  have hstep := step_sequencer_work (s := processing s rest (.sequencer :: ts)) rfl rfl rfl
  rw [hstep]
  exact exec_chanProcess_direct hdirect hoff

theorem step_completes_direct (s : State) (rest : List BusAccess) (ts : List Turn) :
    step (processed s rest (.sequencer :: ts)) = .next (completeBlock (readBlock s) fZero (processed s rest ts)) := by
  have hstep := step_sequencer_complete (s := processed s rest (.sequencer :: ts)) rfl rfl rfl
  rw [hstep]
  exact exec_complete_block rfl rfl

/-- Settles O26: three steps take, work and complete; the work passes the block through (`chanProcessWork_direct`), and writing it
back changes no byte (`readByte_writeBlock_readBlock`). -/
theorem directPathIdentity : Obligations.DirectPathIdentity := by
  intro s rest ts hidle hbusy hconf hdirect hoff hvalid hbus hturn
  refine ⟨_, step_starts_processBlock hidle hconf hvalid hbus hturn, rfl,
    _, step_processes_direct hdirect hoff rest _, rfl, _, step_completes_direct s rest ts, ?memory, ?frame⟩
  case memory =>
    intro x
    rw [completeBlock_mem]
    exact readByte_writeBlock_readBlock hvalid x
  case frame =>
    simp only [completeBlock, processed, processing, hidle, hbusy]

end Sys2Proof.Proofs.ChannelCommands

namespace Sys2Proof.Proofs.Exceptions
open Sys2Proof Sys2Proof.Machine Sys2Proof.Laws Sys2Proof.Proofs.ChannelCommands

/-! ### Taken and dropped commands (60_exceptions.md R209) -/

/-- The four commands that a word of CMD can spell. -/
def IsCommand (i : Instr) : Prop := i = .nop ∨ i = .init ∨ i = .processBlock ∨ ∃ w, i = .illegal w

theorem isCommand_decode (w : Word) : IsCommand (decode w) := by
  rcases decode_cases w with h | h | h | h
  · exact .inl h
  · exact .inr (.inl h)
  · exact .inr (.inr (.inl h))
  · exact .inr (.inr (.inr ⟨w, h⟩))

/-- What a taken command does leaves CMD_DROPPED as the taking set it. -/
def KeepsCmdDropped (effect : State → Outcome) : Prop :=
  ∀ s t, effect s = .next t → t.status.cmdDropped = s.status.cmdDropped

/-- Every command goes through `takeCommand`, and nothing but the taking writes CMD_DROPPED. -/
theorem exec_command {i : Instr} (hi : IsCommand i) :
    ∃ effect, KeepsCmdDropped effect ∧ ∀ s, exec i s = takeCommand s effect := by
  rcases hi with rfl | rfl | rfl | ⟨w, rfl⟩
  case inl =>
    refine ⟨_, ?_, fun s => by rw [exec, execNop]⟩
    intro s t h
    cases h
    rfl
  case inr.inl =>
    refine ⟨_, ?_, fun s => by rw [exec, execInit]⟩
    intro s t h
    dsimp only at h
    split_ifs at h <;> cases h <;> rfl
  case inr.inr.inl =>
    refine ⟨_, ?_, fun s => by rw [exec, execProcessBlock]⟩
    intro s t h
    dsimp only at h
    split_ifs at h <;> cases h <;> rfl
  case inr.inr.inr =>
    refine ⟨_, ?_, fun s => by rw [exec, execIllegal]⟩
    intro s t h
    cases h
    rfl

theorem exec_command_of_running {i : Instr} (hi : IsCommand i) {s : State} (hrun : s.seq ≠ .idle) :
    exec i s = .next { s with status := { s.status with cmdDropped := true } } := by
  obtain ⟨effect, -, hexec⟩ := exec_command hi
  rw [hexec, takeCommand_busy _ hrun]

theorem cmdDropped_of_taken {i : Instr} (hi : IsCommand i) {s t : State} (hidle : s.seq = .idle)
    (h : exec i s = .next t) : t.status.cmdDropped = false := by
  obtain ⟨effect, hkeeps, hexec⟩ := exec_command hi
  rw [hexec, takeCommand_idle _ hidle] at h
  exact hkeeps _ _ h

theorem busyWf_idle {s : State} (hwf : s.busyWf) (hbusy : s.status.busy = false) : s.seq = .idle :=
  not_not.mp fun hrun => Bool.false_ne_true (hbusy.symm.trans (hwf.mpr hrun))

/-- Settles O17: ISSUE is the command its word decodes to, and of a command the sequencer's state decides whether it is dropped
(`exec_command_of_running`) or taken (`cmdDropped_of_taken`). -/
theorem droppedWhileBusy : Obligations.DroppedWhileBusy := by
  intro s w i hwf hi
  have hcommand : ∃ c, IsCommand c ∧ exec i s = exec c s := by
    rcases hi with h | h | h | h | rfl
    · exact ⟨i, .inl h, rfl⟩
    · exact ⟨i, .inr (.inl h), rfl⟩
    · exact ⟨i, .inr (.inr (.inl h)), rfl⟩
    · exact ⟨i, .inr (.inr (.inr ⟨w, h⟩)), rfl⟩
    · exact ⟨decode w, isCommand_decode w, exec_issue w s⟩
  obtain ⟨c, hc, heq⟩ := hcommand
  rw [heq]
  exact ⟨fun hbusy => exec_command_of_running hc (hwf.mp hbusy),
    fun hbusy _ => cmdDropped_of_taken hc (busyWf_idle hwf hbusy)⟩

/-! ### Reserved words (60_exceptions.md R201) -/

/-- The words 0, 1 and 2, which `decode_other` leaves out, have a zero reserved field and an opcode below 3. -/
theorem decode_of_reserved {w : Word} (h : rsvOf w ≠ 0#56 ∨ 3 ≤ (opcOf w).toNat) : decode w = .illegal w := by
  apply decode_other <;> (rintro rfl; revert h; decide)

theorem exec_illegal_of_idle (w : Word) {s : State} (hidle : s.seq = .idle) :
    exec (.illegal w) s = .next { s with status := { s.status with errCode := .illegalCmd, cmdDropped := false } } := by
  rw [exec, execIllegal, takeCommand_idle _ hidle, rejectCommand, State.setErr]

/-- Settles O18: a reserved word issues ILLEGAL (`decode_of_reserved`), and that is rejected when taken. -/
theorem illegalRejected : Obligations.IllegalRejected := by
  intro s w hidle hreserved
  rw [exec_issue, decode_of_reserved hreserved]
  exact ⟨exec_illegal_of_idle w hidle, exec_illegal_of_idle w hidle⟩

/-! ### PROCESS_BLOCK while not configured (60_exceptions.md R202) -/

theorem exec_processBlock_of_not_configured {s : State} (hidle : s.seq = .idle) (hconf : s.status.configured = false) :
    exec .processBlock s =
      .next { s with status := { s.status with errCode := .notConfigured, cmdDropped := false } } := by
  rw [exec, execProcessBlock, takeCommand_idle _ hidle]
  dsimp only
  rw [if_neg (by simp [hconf]), rejectCommand, State.setErr]

/-- Settles O19: the word 2 issues PROCESS_BLOCK, whose first check rejects it. -/
theorem processBlockNotConfigured : Obligations.ProcessBlockNotConfigured := by
  intro s hidle hconf
  have hword : exec (.issue 0x2#64) s = exec .processBlock s := exec_issue 0x2#64 s
  rw [hword]
  exact ⟨exec_processBlock_of_not_configured hidle hconf, exec_processBlock_of_not_configured hidle hconf⟩

end Sys2Proof.Proofs.Exceptions

section
/-! The declarations of this section are elaborated one after the other: the tests above already keep many threads waiting for the
kernel, and the check bounds the memory that their stacks may take. -/
set_option Elab.async false

namespace Sys2Proof.Proofs.Arithmetic
open Sys2Proof Sys2Proof.Machine Sys2Proof.Claims Sys2Proof.Laws Sys2Proof.Proofs.DelayLine

/-! ### Signs and magnitudes -/

theorem fmag_lt_of_isFinite {x : F64} (h : isFinite x = true) : fmag x < infMag := of_decide_eq_true h

theorem isNaN_of_isFinite {x : F64} (h : isFinite x = true) : isNaN x = false :=
  decide_eq_false (fmag_lt_of_isFinite h).le.not_gt

theorem isInf_of_isFinite {x : F64} (h : isFinite x = true) : isInf x = false :=
  beq_eq_false_iff_ne.mpr (fmag_lt_of_isFinite h).ne

theorem isFinite_ofSignMag {m : Nat} (h : m < infMag) (s : Bool) : isFinite (ofSignMag s m) = true := by
  rw [isFinite, fmag_ofSignMag h.le]
  exact decide_eq_true h

theorem fsign_eq_msb (x : F64) : fsign x = x.msb := (BitVec.msb_eq_decide x).symm

theorem fmag_eq_setWidth (x : F64) : fmag x = (x.setWidth 63).toNat := (BitVec.toNat_setWidth 63 x).symm

theorem fsign_fneg (x : F64) : fsign (fneg x) = !fsign x := by
  have hmask : (0x8000000000000000#64).msb = true := by decide
  rw [fsign_eq_msb, fsign_eq_msb, fneg, BitVec.msb_xor, hmask, Bool.xor_true]

theorem fmag_fneg (x : F64) : fmag (fneg x) = fmag x := by
  have hmask : (0x8000000000000000#64).setWidth 63 = 0#63 := by decide
  rw [fmag_eq_setWidth, fmag_eq_setWidth, fneg, BitVec.setWidth_xor, hmask, BitVec.xor_zero]

theorem isFinite_fneg (x : F64) : isFinite (fneg x) = isFinite x := by
  rw [isFinite, isFinite, fmag_fneg]

theorem fsigned_fneg (x : F64) : fsigned (fneg x) = -fsigned x := by
  rw [fsigned, fsigned, funits, funits, fsign_fneg, fmag_fneg]
  cases fsign x <;> simp

/-- A pattern is its sign and its magnitude. -/
theorem ofSignMag_fsign_fmag (x : F64) : ofSignMag (fsign x) (fmag x) = x := by
  apply BitVec.eq_of_toNat_eq
  have hx := x.isLt
  by_cases hs : 2 ^ 63 ≤ x.toNat
  · have hsign : fsign x = true := decide_eq_true hs
    rw [hsign, ofSignMag, if_pos rfl, fmag, BitVec.toNat_ofNat]
    omega
  · have hsign : fsign x = false := decide_eq_false hs
    rw [hsign, ofSignMag, if_neg Bool.false_ne_true, fmag, BitVec.toNat_ofNat]
    omega

theorem natAbs_fsigned (x : F64) : (fsigned x).natAbs = funits x := by
  unfold fsigned
  split <;> simp

theorem funits_ofSignMag {m : Nat} (h : m ≤ infMag) (s : Bool) : funits (ofSignMag s m) = unitsOfMag m := by
  rw [funits, fmag_ofSignMag h]

/-! ### The operations on finite operands (00_scope.md R9) -/

theorem roundMag_le (num den : Nat) : roundMag num den ≤ infMag := Nat.min_le_left _ _

theorem fadd_of_isFinite {a b : F64} (ha : isFinite a = true) (hb : isFinite b = true) :
    fadd a b =
      if fsigned a + fsigned b = 0 then ofSignMag (fsign a && fsign b) 0
      else ofSignMag (decide (fsigned a + fsigned b < 0)) (roundMag (fsigned a + fsigned b).natAbs 1) := by
  simp [fadd, faddCore, isNaN_of_isFinite ha, isNaN_of_isFinite hb, isInf_of_isFinite ha, isInf_of_isFinite hb]

theorem fsub_of_isFinite {a b : F64} (ha : isFinite a = true) (hb : isFinite b = true) :
    fsub a b = fadd a (fneg b) := by
  have hb' : isFinite (fneg b) = true := by rw [isFinite_fneg, hb]
  rw [fadd_of_isFinite ha hb']
  simp [fsub, faddCore, isNaN_of_isFinite ha, isNaN_of_isFinite hb', isInf_of_isFinite ha, isInf_of_isFinite hb']

theorem fmul_of_isFinite {a b : F64} (ha : isFinite a = true) (hb : isFinite b = true) :
    fmul a b = ofSignMag (fsign a != fsign b) (roundMag (funits a * funits b) unitsPerOne) := by
  simp [fmul, isNaN_of_isFinite ha, isNaN_of_isFinite hb, isInf_of_isFinite ha, isInf_of_isFinite hb]

theorem fdiv_of_isFinite {a b : F64} (ha : isFinite a = true) (hb : isFinite b = true) (hpos : 0 < fmag b) :
    fdiv a b = ofSignMag (fsign a != fsign b) (roundMag (funits a * unitsPerOne) (funits b)) := by
  simp [fdiv, isNaN_of_isFinite ha, isNaN_of_isFinite hb, isInf_of_isFinite ha, isInf_of_isFinite hb, hpos.ne']

theorem ffmod_of_isFinite {a b : F64} (ha : isFinite a = true) (hb : isFinite b = true) (hpos : 0 < fmag b) :
    ffmod a b = ofSignMag (fsign a) (roundMag (funits a % funits b) 1) := by
  simp [ffmod, isNaN_of_isFinite ha, isNaN_of_isFinite hb, isInf_of_isFinite ha, isInf_of_isFinite hb, hpos.ne']

theorem fsqrt_of_fmag_zero {a : F64} (h : fmag a = 0) : fsqrt a = a := by
  have hnan : isNaN a = false := decide_eq_false (by rw [h]; decide)
  simp [fsqrt, hnan, h]

/-- The root is rounded from twice the integer root, to which a one is added where the integer root is not exact. -/
theorem fsqrt_of_positive {a : F64} (h : positive a) :
    fsqrt a = ofSignMag false (roundMag
      (2 * isqrt (funits a * unitsPerOne) +
        if isqrt (funits a * unitsPerOne) * isqrt (funits a * unitsPerOne) = funits a * unitsPerOne then 0 else 1) 2) := by
  obtain ⟨-, hnan, hinf⟩ := positive_facts h
  obtain ⟨-, hsign, hmag⟩ := h
  simp [fsqrt, hnan, hinf, hsign, hmag.ne']

/-! ### The numbers of a binade -/

/-- The exponent field less one and the mantissa, a mantissa of 2^53 included, which is the next binade's first. -/
theorem unitsOfMag_shift {k N : Nat} (hN : N ≤ 2 ^ 53) (hk : 0 < k → 2 ^ 52 ≤ N) : unitsOfMag (k * 2 ^ 52 + N) = N * 2 ^ k := by
  rcases Nat.lt_or_ge N (2 ^ 52) with hlow | hhigh
  · obtain rfl : k = 0 := by omega
    rw [Nat.zero_mul, Nat.zero_add, unitsOfMag_of_lt hlow, pow_zero, Nat.mul_one]
  · rcases Nat.lt_or_ge N (2 ^ 53) with hlt | htop
    · have hsplit : k * 2 ^ 52 + N = (k + 1) * 2 ^ 52 + (N - 2 ^ 52) := by omega
      rw [hsplit, unitsOfMag_of_binade (by omega), Nat.add_sub_cancel' hhigh]
    · have hsplit : k * 2 ^ 52 + N = (k + 1 + 1) * 2 ^ 52 + 0 := by omega
      rw [hsplit, unitsOfMag_of_binade (by decide), le_antisymm hN htop, pow_succ]
      ring

/-- Every magnitude is a shift and a mantissa below 2^53. -/
theorem exists_shift_mantissa (m : Nat) : ∃ k N, m = k * 2 ^ 52 + N ∧ N < 2 ^ 53 ∧ (0 < k → 2 ^ 52 ≤ N) := by
  rcases Nat.eq_zero_or_pos (m / 2 ^ 52) with h | h
  · exact ⟨0, m, by omega, by omega, by omega⟩
  · exact ⟨m / 2 ^ 52 - 1, 2 ^ 52 + m % 2 ^ 52, by omega, by omega, by omega⟩

/-- A greater magnitude is at least one unit of the mantissa away. -/
theorem unitsOfMag_above {k N m : Nat} (hN : N ≤ 2 ^ 53) (hk : 0 < k → 2 ^ 52 ≤ N) (hm : k * 2 ^ 52 + N < m) :
    (N + 1) * 2 ^ k ≤ unitsOfMag m := by
  refine le_trans ?_ (unitsOfMag_mono hm)
  rcases Nat.lt_or_ge N (2 ^ 53) with hlt | htop
  · rw [Nat.succ_eq_add_one, Nat.add_assoc, unitsOfMag_shift (by omega) (by omega)]
  · have hsplit : (k * 2 ^ 52 + N).succ = (k + 1) * 2 ^ 52 + (2 ^ 52 + 1) := by omega
    rw [hsplit, unitsOfMag_shift (by decide) (by omega)]
    calc (N + 1) * 2 ^ k ≤ (2 ^ 52 + 1) * 2 * 2 ^ k := Nat.mul_le_mul_right _ (by omega)
      _ = (2 ^ 52 + 1) * 2 ^ (k + 1) := by rw [pow_succ']; ring

/-- A smaller magnitude is at least one unit of the mantissa away, if the mantissa is not its binade's first. -/
theorem unitsOfMag_below {k N m : Nat} (hN : N ≤ 2 ^ 53) (hk : 0 < k → 2 ^ 52 < N) (hm : m < k * 2 ^ 52 + N) :
    unitsOfMag m + 2 ^ k ≤ N * 2 ^ k := by
  obtain ⟨M, rfl⟩ : ∃ M, N = M + 1 := ⟨N - 1, by omega⟩
  have hle : unitsOfMag m ≤ M * 2 ^ k := by
    rw [← unitsOfMag_shift (k := k) (N := M) (by omega) (by omega)]
    exact unitsOfMag_mono (by omega)
  rw [Nat.add_mul, Nat.one_mul]
  omega

theorem unitsOfMag_strictMono {m n : Nat} (h : m < n) : unitsOfMag m < unitsOfMag n := by
  obtain ⟨k, N, rfl, hN, hk⟩ := exists_shift_mantissa m
  have hstep := unitsOfMag_above hN.le hk h
  have hpos := Nat.two_pow_pos k
  rw [unitsOfMag_shift hN.le hk]
  rw [Nat.add_mul, Nat.one_mul] at hstep
  omega

/-! ### Rounding to nearest, ties to even -/

/-- Where the quotient lies half-way between two integers the even one is taken. -/
theorem roundNat_even_of_tie {num den : Nat} (hd : 0 < den)
    (h : 2 * num = 2 * (roundNat num den * den) + den ∨ 2 * (roundNat num den * den) = 2 * num + den) :
    roundNat num den % 2 = 0 := by
  have hdiv := Nat.div_add_mod num den
  have hmod := Nat.mod_lt num hd
  have hcomm : num / den * den = den * (num / den) := Nat.mul_comm _ _
  unfold roundNat at h ⊢
  dsimp only at h ⊢
  split at h
  · rw [if_pos (by assumption)]
    rw [Nat.add_mul, Nat.one_mul] at h
    omega
  · rw [if_neg (by assumption)]
    omega

/-- A finite rounded magnitude as its shift and mantissa; above the lowest binade the quotient reaches the shift's first number. -/
theorem roundMag_eq_shift {num den : Nat} (hd : 0 < den) (hfin : roundMag num den < infMag) :
    ∃ k, roundMag num den = k * 2 ^ 52 + roundNat num (den * 2 ^ k) ∧ roundNat num (den * 2 ^ k) ≤ 2 ^ 53 ∧
      (0 < k → 2 ^ 52 ≤ roundNat num (den * 2 ^ k)) ∧ (0 < k → 2 ^ 52 * (den * 2 ^ k) ≤ num) := by
  obtain ⟨hle, hge⟩ := mantissa_bounds num den hd
  obtain ⟨-, hlow⟩ := shift_bounds (num / den)
  refine ⟨Nat.log2 (num / den) - 52, ?_, hle, hge, fun hk => ?_⟩
  · unfold roundMag at hfin ⊢
    dsimp only at hfin ⊢
    exact min_eq_right (by omega)
  · have hq := (Nat.le_div_iff_mul_le hd).mp (hlow hk)
    rw [pow_add] at hq
    calc 2 ^ 52 * (den * 2 ^ (Nat.log2 (num / den) - 52))
        = 2 ^ 52 * 2 ^ (Nat.log2 (num / den) - 52) * den := by ring
      _ ≤ num := hq

/-- The rounded magnitude is a nearest one, and the even one where two are nearest. -/
theorem nearest_roundMag {num den : Nat} (hd : 0 < den) (hfin : roundMag num den < infMag) :
    nearest (roundMag num den) num den := by
  obtain ⟨k, hr, hN, hk, hlow⟩ := roundMag_eq_shift hd hfin
  have hD : 0 < den * 2 ^ k := Nat.mul_pos hd (Nat.two_pow_pos k)
  have hhalf := roundNat_half num _ hD
  have htie := roundNat_even_of_tie (num := num) hD
  rw [hr]
  generalize roundNat num (den * 2 ^ k) = N at *
  have hunits : unitsOfMag (k * 2 ^ 52 + N) * den = N * (den * 2 ^ k) := by
    rw [unitsOfMag_shift hN hk]
    ring
  intro m _
  simp only [abs_eq_max_neg, ← Int.natCast_mul, hunits]
  rcases Nat.lt_trichotomy m (k * 2 ^ 52 + N) with hbelow | heq | habove
  · by_cases hfirst : 0 < k ∧ N = 2 ^ 52
    · -- the first number of a binade: the exact value lies at or above it
      have hlt : unitsOfMag m * den < N * (den * 2 ^ k) :=
        hunits ▸ Nat.mul_lt_mul_of_pos_right (unitsOfMag_strictMono hbelow) hd
      have hnum : N * (den * 2 ^ k) ≤ num := hfirst.2 ▸ hlow hfirst.1
      omega
    · have hstep : unitsOfMag m * den + den * 2 ^ k ≤ N * (den * 2 ^ k) := by
        have := Nat.mul_le_mul_right den (unitsOfMag_below hN (by omega) hbelow)
        calc unitsOfMag m * den + den * 2 ^ k = (unitsOfMag m + 2 ^ k) * den := by ring
          _ ≤ N * 2 ^ k * den := this
          _ = N * (den * 2 ^ k) := by ring
      omega
  · rw [heq, hunits]
    exact ⟨le_refl _, fun _ h => absurd rfl h⟩
  · have hstep : N * (den * 2 ^ k) + den * 2 ^ k ≤ unitsOfMag m * den := by
      have := Nat.mul_le_mul_right den (unitsOfMag_above hN hk habove)
      calc N * (den * 2 ^ k) + den * 2 ^ k = (N + 1) * 2 ^ k * den := by ring
        _ ≤ unitsOfMag m * den := this
    omega

/-! ### Sums, products and quotients -/

theorem nearestSum_ofSignMag (z : Int) (neg : Bool) :
    nearestSum (if z = 0 then ofSignMag neg 0 else ofSignMag (decide (z < 0)) (roundMag z.natAbs 1)) z neg := by
  have hzero : (0 : Nat) < infMag := by decide
  split
  case isTrue hz =>
    subst hz
    refine ⟨nofun, nofun, fun _ => ⟨fsign_ofSignMag hzero.le neg, fmag_ofSignMag hzero.le neg⟩, fun _ => ?_⟩
    rw [fmag_ofSignMag hzero.le]
    intro m _
    simp [unitsOfMag]
  case isFalse hz =>
    have hle := roundMag_le z.natAbs 1
    have hsign := fsign_ofSignMag hle (decide (z < 0))
    refine ⟨fun h => hsign.trans (decide_eq_true h), fun h => hsign.trans (decide_eq_false h.le.not_gt), fun h => absurd h hz,
      fun hfin => ?_⟩
    have hlt := fmag_lt_of_isFinite hfin
    rw [fmag_ofSignMag hle] at hlt ⊢
    rw [Int.abs_eq_natAbs]
    exact nearest_roundMag Nat.one_pos hlt

theorem nearestSum_fadd {a b : F64} (ha : isFinite a = true) (hb : isFinite b = true) :
    nearestSum (fadd a b) (fsigned a + fsigned b) (fsign a && fsign b) := by
  rw [fadd_of_isFinite ha hb]
  exact nearestSum_ofSignMag _ _

theorem nearestSum_fsub {a b : F64} (ha : isFinite a = true) (hb : isFinite b = true) :
    nearestSum (fsub a b) (fsigned a - fsigned b) (fsign a && !fsign b) := by
  have h := nearestSum_fadd ha ((isFinite_fneg b).trans hb)
  rwa [fsigned_fneg, fsign_fneg, ← sub_eq_add_neg, ← fsub_of_isFinite ha hb] at h

/-- A magnitude rounded once, under a sign: the sign is kept and a finite result is a nearest one. -/
theorem rounded_of_eq {x : F64} {s : Bool} {num den : Nat} (hd : 0 < den) (h : x = ofSignMag s (roundMag num den)) :
    fsign x = s ∧ (isFinite x = true → nearest (fmag x) num den) := by
  have hle := roundMag_le num den
  subst h
  refine ⟨fsign_ofSignMag hle s, fun hfin => ?_⟩
  have hlt := fmag_lt_of_isFinite hfin
  rw [fmag_ofSignMag hle] at hlt ⊢
  exact nearest_roundMag hd hlt

theorem rounded_fmul {a b : F64} (ha : isFinite a = true) (hb : isFinite b = true) :
    fsign (fmul a b) = (fsign a != fsign b) ∧
      (isFinite (fmul a b) = true → nearest (fmag (fmul a b)) ((funits a : Int) * (funits b : Int)) (unitsPerOne : Int)) := by
  rw [← Int.natCast_mul]
  exact rounded_of_eq unitsPerOne_pos (fmul_of_isFinite ha hb)

theorem rounded_fdiv {a b : F64} (ha : isFinite a = true) (hb : isFinite b = true) (hpos : 0 < fmag b) :
    fsign (fdiv a b) = (fsign a != fsign b) ∧
      (isFinite (fdiv a b) = true → nearest (fmag (fdiv a b)) ((funits a : Int) * (unitsPerOne : Int)) (funits b : Int)) := by
  rw [← Int.natCast_mul]
  exact rounded_of_eq (unitsOfMag_pos hpos) (fdiv_of_isFinite ha hb hpos)

/-! ### The root -/

theorem unitsOfMag_even_or_small (m : Nat) : unitsOfMag m % 2 = 0 ∨ unitsOfMag m < 2 ^ 53 := by
  obtain ⟨k, N, rfl, hN, hk⟩ := exists_shift_mantissa m
  rw [unitsOfMag_shift hN.le hk]
  cases k with
  | zero => exact .inr (by simpa using hN)
  | succ k => exact .inl (by rw [pow_succ, ← Nat.mul_assoc, Nat.mul_mod_left])

/-- What the floor of a root of more than 54 bits, doubled and made odd where it is not exact, tells of the root itself: a midpoint
between a nearest magnitude and another lies on the same side of both. -/
theorem root_side_of_nearest {n r R m : Nat} (hr : r * r ≤ n ∧ n < (r + 1) * (r + 1)) (hbig : 2 ^ 54 ≤ r)
    (hnear : nearest R ((2 * r + if r * r = n then 0 else 1 : Nat) : Int) (2 : Nat)) (hm : m < infMag) (hne : m ≠ R) :
    (m < R → (unitsOfMag R + unitsOfMag m) ^ 2 ≤ 4 * n) ∧ (R < m → 4 * n ≤ (unitsOfMag R + unitsOfMag m) ^ 2) ∧
      ((unitsOfMag R + unitsOfMag m) ^ 2 = 4 * n → R % 2 = 0) := by
  -- 2^54 as a binary64: the nearest magnitude is no farther away than it
  obtain ⟨hanchor, -⟩ := hnear (3 * 2 ^ 52) (by decide)
  obtain ⟨c, hc, hc1⟩ : ∃ c, c = 2 ^ 53 ∧ 1 < c := ⟨2 ^ 53, rfl, by decide⟩
  have hunits : unitsOfMag (3 * 2 ^ 52) = 2 * c := by
    rw [hc]
    decide
  have hlarge : 2 * c ≤ r := by omega
  obtain ⟨hclose, htie⟩ := hnear m hm
  rw [hunits] at hanchor
  simp only [abs_eq_max_neg] at hanchor hclose htie
  have hR := unitsOfMag_even_or_small R
  have hM := unitsOfMag_even_or_small m
  have hlt : m < R → unitsOfMag m < unitsOfMag R := unitsOfMag_strictMono
  have hgt : R < m → unitsOfMag R < unitsOfMag m := unitsOfMag_strictMono
  rw [← hc] at hR hM
  clear hbig hc
  generalize unitsOfMag R = U at *
  generalize unitsOfMag m = V at *
  have hexact : r * r = n ∨ r * r ≠ n := em _
  refine ⟨fun h => ?_, fun h => ?_, fun h => ?_⟩
  · have hle : U + V ≤ 2 * r := by
      have := hlt h
      split at hclose <;> split at hanchor <;> omega
    nlinarith
  · have hge : 2 * r ≤ U + V ∧ (r * r ≠ n → 2 * r + 2 ≤ U + V) := by
      have := hgt h
      split at hclose <;> split at hanchor <;> omega
    rcases hexact with he | he
    · nlinarith
    · nlinarith [hge.2 he]
  · obtain ⟨h2, hS⟩ : ∃ h2, U + V = 2 * h2 := by
      rcases Nat.even_or_odd' (U + V) with ⟨c, hc | hc⟩
      · exact ⟨c, hc⟩
      · rw [hc] at h
        ring_nf at h
        omega
    have hsq : h2 * h2 = n := by
      rw [hS] at h
      nlinarith
    have hroot : h2 = r := by
      apply le_antisymm
      · by_contra hc
        nlinarith
      · by_contra hc
        nlinarith
    subst hroot
    rw [if_pos hsq] at htie
    have := Nat.lt_or_gt_of_ne hne
    refine htie ?_ hne
    omega

/-- The integer root of a positive number, in units: more than 54 bits, and far below overflow. -/
theorem isqrt_units_bounds {m : Nat} (hpos : 0 < m) (hfin : m < infMag) :
    2 ^ 54 ≤ isqrt (unitsOfMag m * unitsPerOne) ∧ isqrt (unitsOfMag m * unitsPerOne) < 2 ^ 1600 := by
  obtain ⟨hle, hlt⟩ := isqrt_spec (unitsOfMag m * unitsPerOne)
  have hlow : 2 ^ 54 * 2 ^ 54 ≤ unitsPerOne := by decide +kernel
  have hhigh : unitsOfMag infMag * unitsPerOne < 2 ^ 1600 * 2 ^ 1600 := by decide +kernel
  have hmin : unitsPerOne ≤ unitsOfMag m * unitsPerOne := Nat.le_mul_of_pos_left _ (unitsOfMag_pos hpos)
  have hmax : unitsOfMag m * unitsPerOne ≤ unitsOfMag infMag * unitsPerOne := Nat.mul_le_mul_right _ (unitsOfMag_mono hfin.le)
  generalize isqrt (unitsOfMag m * unitsPerOne) = r at *
  constructor
  · by_contra hc
    have := Nat.mul_le_mul (Nat.succ_le_of_lt (not_le.mp hc)) (Nat.succ_le_of_lt (not_le.mp hc))
    exact absurd (hlow.trans hmin) (not_le.mpr (lt_of_lt_of_le hlt this))
  · by_contra hc
    have := Nat.mul_le_mul (not_lt.mp hc) (not_lt.mp hc)
    exact absurd (hle.trans hmax) (not_le.mpr (lt_of_lt_of_le hhigh this))

/-- The magnitude of a root: finite, and its midpoints with other magnitudes lie on the right side. -/
theorem rounded_fsqrt {a : F64} (ha : isFinite a = true) (hnonneg : fsign a = false ∨ fmag a = 0) :
    isFinite (fsqrt a) = true ∧ fsign (fsqrt a) = fsign a ∧
    ∀ m, m < infMag → m ≠ fmag (fsqrt a) →
      (m < fmag (fsqrt a) → (funits (fsqrt a) + unitsOfMag m) ^ 2 ≤ 4 * (funits a * unitsPerOne)) ∧
      (fmag (fsqrt a) < m → 4 * (funits a * unitsPerOne) ≤ (funits (fsqrt a) + unitsOfMag m) ^ 2) ∧
      ((funits (fsqrt a) + unitsOfMag m) ^ 2 = 4 * (funits a * unitsPerOne) → fmag (fsqrt a) % 2 = 0) := by
  rcases Nat.eq_zero_or_pos (fmag a) with hzero | hpos
  · have hunits : unitsOfMag 0 = 0 := by decide
    rw [fsqrt_of_fmag_zero hzero, funits, hzero, hunits]
    refine ⟨ha, rfl, fun m _ _ => ⟨nofun, fun _ => ?_, fun _ => rfl⟩⟩
    rw [Nat.zero_mul, Nat.mul_zero]
    exact Nat.zero_le _
  · have hsign : fsign a = false := hnonneg.resolve_right hpos.ne'
    obtain ⟨hbig, hsmall⟩ := isqrt_units_bounds hpos (fmag_lt_of_isFinite ha)
    have hroot := isqrt_spec (unitsOfMag (fmag a) * unitsPerOne)
    rw [fsqrt_of_positive ⟨ha, hsign, hpos⟩, hsign, funits]
    generalize unitsOfMag (fmag a) * unitsPerOne = n at *
    generalize isqrt n = r at *
    have hfin : roundMag (2 * r + if r * r = n then 0 else 1) 2 < infMag := by
      have htop : roundMag (2 ^ 1600) 1 < infMag := by decide +kernel
      refine lt_of_le_of_lt (roundMag_mono (by decide) (by decide) ?_) htop
      split <;> omega
    rw [fsign_ofSignMag hfin.le, fmag_ofSignMag hfin.le, funits_ofSignMag hfin.le]
    refine ⟨isFinite_ofSignMag hfin false, rfl, fun m hm hne => ?_⟩
    exact root_side_of_nearest hroot hbig (nearest_roundMag (by decide) hfin) hm hne

/-! ### The remainder -/

/-- A number of at most 53 bits, shifted, is kept by rounding. -/
theorem unitsOfMag_roundMag_of_mantissa {N k : Nat} (hN : N < 2 ^ 53) (hfin : roundMag (N * 2 ^ k) 1 < infMag) :
    unitsOfMag (roundMag (N * 2 ^ k) 1) = N * 2 ^ k := by
  obtain ⟨j, hr, hle, hge, hlow⟩ := roundMag_eq_shift Nat.one_pos hfin
  rw [hr, unitsOfMag_shift hle hge]
  have hjk : j ≤ k := by
    by_contra hc
    have hlow' := hlow (by omega)
    rw [Nat.one_mul, ← pow_add] at hlow'
    have hlt : N * 2 ^ k < 2 ^ (53 + k) := by
      rw [pow_add]
      exact Nat.mul_lt_mul_of_pos_right hN (Nat.two_pow_pos k)
    have := Nat.pow_le_pow_right (n := 2) (by decide) (show 53 + k ≤ 52 + j by omega)
    omega
  have hsplit : N * 2 ^ k = N * 2 ^ (k - j) * (1 * 2 ^ j) := by
    rw [Nat.one_mul, Nat.mul_assoc, ← pow_add, Nat.sub_add_cancel hjk]
  rw [hsplit, roundNat_exact _ _ (by positivity), Nat.one_mul]

/-- A remainder has at most 53 bits above the lower of the two shifts. -/
theorem exists_mantissa_mod (m n : Nat) (hn : 0 < n) :
    ∃ N k, N < 2 ^ 53 ∧ unitsOfMag m % unitsOfMag n = N * 2 ^ k := by
  obtain ⟨k, N, rfl, hN, hk⟩ := exists_shift_mantissa m
  obtain ⟨j, M, rfl, hM, hj⟩ := exists_shift_mantissa n
  rw [unitsOfMag_shift hN.le hk, unitsOfMag_shift hM.le hj]
  rcases Nat.le_total k j with h | h
  · refine ⟨N % (M * 2 ^ (j - k)), k, lt_of_le_of_lt (Nat.mod_le _ _) hN, ?_⟩
    rw [← Nat.mul_mod_mul_right, Nat.mul_assoc, ← pow_add, Nat.sub_add_cancel h]
  · refine ⟨N * 2 ^ (k - j) % M, j, lt_trans (Nat.mod_lt _ (by omega)) hM, ?_⟩
    rw [← Nat.mul_mod_mul_right, Nat.mul_assoc, ← pow_add, Nat.sub_add_cancel h]

/-- Rounding keeps the remainder of two finite magnitudes. -/
theorem exact_mod {m n : Nat} (hn : 0 < n) (hfin : n < infMag) :
    roundMag (unitsOfMag m % unitsOfMag n) 1 < infMag ∧
      unitsOfMag (roundMag (unitsOfMag m % unitsOfMag n) 1) = unitsOfMag m % unitsOfMag n := by
  have hlt : roundMag (unitsOfMag m % unitsOfMag n) 1 < infMag := by
    have hmod := Nat.mod_lt (unitsOfMag m) (unitsOfMag_pos hn)
    have hkeep := roundMag_unitsOfMag n 1 hfin.le Nat.one_pos
    rw [Nat.mul_one] at hkeep
    refine lt_of_le_of_lt ?_ hfin
    rw [← hkeep]
    refine roundMag_mono Nat.one_pos Nat.one_pos ?_
    rw [hkeep]
    omega
  refine ⟨hlt, ?_⟩
  obtain ⟨N, k, hN, heq⟩ := exists_mantissa_mod m n hn
  rw [heq] at hlt ⊢
  exact unitsOfMag_roundMag_of_mantissa hN hlt

theorem exact_ffmod {a b : F64} (ha : isFinite a = true) (hb : isFinite b = true) (hpos : 0 < fmag b) :
    isFinite (ffmod a b) = true ∧ fsign (ffmod a b) = fsign a ∧ funits (ffmod a b) = funits a % funits b := by
  obtain ⟨hlt, heq⟩ := exact_mod (m := fmag a) hpos (fmag_lt_of_isFinite hb)
  rw [ffmod_of_isFinite ha hb hpos, funits, funits, funits_ofSignMag hlt.le]
  exact ⟨isFinite_ofSignMag hlt _, fsign_ofSignMag hlt.le _, heq⟩

/-- Settles O60: every operation rounds its exact result once, by `nearest_roundMag`; the root does through `root_side_of_nearest`, and
a remainder needs no rounding (`exact_mod`). -/
theorem roundsToNearestEven : Obligations.RoundsToNearestEven :=
  ⟨fun _ _ ha hb => ⟨nearestSum_fadd ha hb, nearestSum_fsub ha hb⟩, fun _ _ => rounded_fmul, fun _ _ => rounded_fdiv,
    fun _ => rounded_fsqrt, fun _ _ => exact_ffmod⟩

end Sys2Proof.Proofs.Arithmetic

namespace Sys2Proof.Proofs.Arithmetic
open Sys2Proof Sys2Proof.Machine Sys2Proof.Claims Sys2Proof.Laws Sys2Proof.Proofs.DelayLine

/-! ### Comparisons of numbers -/

theorem fle_iff {x y : F64} (hx : isNaN x = false) (hy : isNaN y = false) : fle x y = true ↔ fkey x ≤ fkey y := by
  simp [fle, hx, hy]

theorem flt_iff {x y : F64} (hx : isNaN x = false) (hy : isNaN y = false) : flt x y = true ↔ fkey x < fkey y := by
  simp [flt, hx, hy]

theorem fkey_of_fsign_false {x : F64} (h : fsign x = false) : fkey x = fmag x := if_neg (by simp [h])

theorem fkey_of_fsign_true {x : F64} (h : fsign x = true) : fkey x = -(fmag x : Int) := if_pos h

theorem fmag_lt_of_funits_lt {x y : F64} (h : funits x < funits y) : fmag x < fmag y := by
  by_contra hc
  exact absurd (unitsOfMag_mono (not_lt.mp hc)) h.not_ge

/-! ### Integers and zeros as operands -/

/-- An integer of at most 53 bits is a binary64. -/
theorem fofNat_exact {n : Nat} (h : n < 2 ^ 53) :
    isFinite (fofNat n) = true ∧ fsign (fofNat n) = false ∧ funits (fofNat n) = n * unitsPerOne := by
  have htop : roundMag (2 ^ 53 * 2 ^ 1074) 1 < infMag := by decide +kernel
  have hlt : roundMag (n * 2 ^ 1074) 1 < infMag :=
    lt_of_le_of_lt (roundMag_mono Nat.one_pos Nat.one_pos (Nat.mul_le_mul_right _ (Nat.mul_le_mul_right _ h.le))) htop
  rw [fofNat, unitsPerOne, funits_ofSignMag hlt.le]
  exact ⟨isFinite_ofSignMag hlt _, fsign_ofSignMag hlt.le _, unitsOfMag_roundMag_of_mantissa h hlt⟩

theorem funits_eq_zero_iff {x : F64} : funits x = 0 ↔ fmag x = 0 := by
  constructor
  · intro h
    by_contra hc
    exact (unitsOfMag_pos (Nat.pos_of_ne_zero hc)).ne' h
  · intro h
    rw [funits, h]
    decide

theorem fsigned_eq_zero_iff {x : F64} : fsigned x = 0 ↔ fmag x = 0 := by
  rw [← Int.natAbs_eq_zero, natAbs_fsigned, funits_eq_zero_iff]

theorem isFinite_of_fmag_zero {x : F64} (h : fmag x = 0) : isFinite x = true := by
  rw [isFinite, h]
  decide

theorem roundMag_funits (x : F64) (h : isFinite x = true) : roundMag (funits x) 1 = fmag x := by
  have hkeep := roundMag_unitsOfMag (fmag x) 1 (fmag_lt_of_isFinite h).le Nat.one_pos
  rwa [Nat.mul_one] at hkeep

/-- A number other than 0 is kept by adding a zero on the left. -/
theorem fadd_zero_left {z x : F64} (hz : fmag z = 0) (hx : isFinite x = true) :
    fadd z x = if fmag x = 0 then ofSignMag (fsign z && fsign x) 0 else x := by
  rw [fadd_of_isFinite (isFinite_of_fmag_zero hz) hx, fsigned_eq_zero_iff.mpr hz, Int.zero_add, natAbs_fsigned,
    roundMag_funits x hx]
  simp only [fsigned_eq_zero_iff]
  split
  case isTrue => rfl
  case isFalse hne =>
    have hsign : decide (fsigned x < 0) = fsign x := by
      have hpos : 0 < funits x := unitsOfMag_pos (Nat.pos_of_ne_zero hne)
      cases hs : fsign x with
      | false =>
        rw [fsigned, hs]
        exact decide_eq_false (by simp)
      | true =>
        rw [fsigned, hs]
        exact decide_eq_true (by simpa using hpos)
    rw [hsign, ofSignMag_fsign_fmag]

theorem fmag_fmul_of_zero {z x : F64} (hz : fmag z = 0) (hx : isFinite x = true) : fmag (fmul z x) = 0 := by
  have hround : roundMag 0 unitsPerOne = 0 := by decide +kernel
  rw [fmul_of_isFinite (isFinite_of_fmag_zero hz) hx, funits_eq_zero_iff.mpr hz, Nat.zero_mul, hround,
    fmag_ofSignMag (by decide)]

theorem fmul_one_left {x : F64} (hx : isFinite x = true) : fmul fOne x = x := by
  have hone : isFinite fOne = true ∧ fsign fOne = false ∧ funits fOne = unitsPerOne := by decide +kernel
  rw [fmul_of_isFinite hone.1 hx, hone.2.1, hone.2.2, Nat.mul_comm, funits,
    roundMag_unitsOfMag _ _ (fmag_lt_of_isFinite hx).le unitsPerOne_pos, Bool.false_bne, ofSignMag_fsign_fmag]

/-- Zero divided by a number other than 0, an infinity included, is a zero. -/
theorem fmag_fdiv_of_zero {z d : F64} (hz : fmag z = 0) (hd : positive d) : fmag (fdiv z d) = 0 := by
  obtain ⟨hfin, -, hpos⟩ := hd
  have hround : roundMag 0 (funits d) = 0 := by
    have hmono := roundMag_mono (n1 := 0) (n2 := 0) (unitsOfMag_pos hpos) Nat.one_pos (by simp)
    have hzero : roundMag 0 1 = 0 := by decide +kernel
    exact Nat.le_zero.mp (hzero ▸ hmono)
  rw [fdiv_of_isFinite (isFinite_of_fmag_zero hz) hfin hpos, funits_eq_zero_iff.mpr hz, Nat.zero_mul, hround,
    fmag_ofSignMag (by decide)]

/-! ### Products and quotients between bounds -/

/-- A positive number with bounds. -/
def Within (lo hi x : F64) : Prop := positive x ∧ fmag lo ≤ fmag x ∧ fmag x ≤ fmag hi

theorem within_self {x : F64} (h : positive x) : Within x x x := ⟨h, le_refl _, le_refl _⟩

theorem fmag_fmul_positive {x y : F64} (hx : positive x) (hy : positive y) :
    fmul x y = ofSignMag false (fmag (fmul x y)) ∧ fmag (fmul x y) = roundMag (funits x * funits y) unitsPerOne := by
  have hmul := fmul_of_isFinite hx.1 hy.1
  rw [hx.2.1, hy.2.1] at hmul
  rw [hmul]
  change _ = ofSignMag false (fmag (ofSignMag false _)) ∧ _
  rw [fmag_ofSignMag (roundMag_le _ _)]
  exact ⟨rfl, fmag_ofSignMag (roundMag_le _ _) _⟩

theorem fmag_fdiv_positive {x y : F64} (hx : positive x) (hy : positive y) :
    fdiv x y = ofSignMag false (fmag (fdiv x y)) ∧ fmag (fdiv x y) = roundMag (funits x * unitsPerOne) (funits y) := by
  rw [fdiv_positive hx hy, fmag_ofSignMag (roundMag_le _ _)]
  exact ⟨rfl, rfl⟩

/-- Between positive numbers there is only a positive one. -/
theorem within_of_fmag {lo hi x : F64} (hlo : positive lo) (hhi : positive hi) (hx : x = ofSignMag false (fmag x))
    (h1 : fmag lo ≤ fmag x) (h2 : fmag x ≤ fmag hi) : Within lo hi x := by
  have hfin : fmag x < infMag := lt_of_le_of_lt h2 (fmag_lt_of_isFinite hhi.1)
  refine ⟨⟨decide_eq_true hfin, ?_, lt_of_lt_of_le hlo.2.2 h1⟩, h1, h2⟩
  rw [hx]
  exact fsign_ofSignMag hfin.le false

theorem fmul_within {a b x c d y : F64} (ha : positive a) (hb : positive b) (hc : positive c) (hd : positive d)
    (hx : Within a b x) (hy : Within c d y) (hlo : positive (fmul a c)) (hhi : positive (fmul b d)) :
    Within (fmul a c) (fmul b d) (fmul x y) := by
  obtain ⟨px, hax, hxb⟩ := hx
  obtain ⟨py, hcy, hyd⟩ := hy
  obtain ⟨hsign, hmag⟩ := fmag_fmul_positive px py
  refine within_of_fmag hlo hhi hsign ?_ ?_
  · rw [(fmag_fmul_positive ha hc).2, hmag]
    exact roundMag_mono unitsPerOne_pos unitsPerOne_pos
      (Nat.mul_le_mul_right _ (Nat.mul_le_mul (unitsOfMag_mono hax) (unitsOfMag_mono hcy)))
  · rw [(fmag_fmul_positive hb hd).2, hmag]
    exact roundMag_mono unitsPerOne_pos unitsPerOne_pos
      (Nat.mul_le_mul_right _ (Nat.mul_le_mul (unitsOfMag_mono hxb) (unitsOfMag_mono hyd)))

theorem fdiv_within {a b x c d y : F64} (ha : positive a) (hb : positive b) (hc : positive c) (hd : positive d)
    (hx : Within a b x) (hy : Within c d y) (hlo : positive (fdiv a d)) (hhi : positive (fdiv b c)) :
    Within (fdiv a d) (fdiv b c) (fdiv x y) := by
  obtain ⟨px, hax, hxb⟩ := hx
  obtain ⟨py, hcy, hyd⟩ := hy
  obtain ⟨hsign, hmag⟩ := fmag_fdiv_positive px py
  refine within_of_fmag hlo hhi hsign ?_ ?_
  · rw [(fmag_fdiv_positive ha hd).2, hmag]
    exact roundMag_mono (unitsOfMag_pos hd.2.2) (unitsOfMag_pos py.2.2)
      (Nat.mul_le_mul (Nat.mul_le_mul_right _ (unitsOfMag_mono hax)) (unitsOfMag_mono hyd))
  · rw [(fmag_fdiv_positive hb hc).2, hmag]
    exact roundMag_mono (unitsOfMag_pos py.2.2) (unitsOfMag_pos hc.2.2)
      (Nat.mul_le_mul (Nat.mul_le_mul_right _ (unitsOfMag_mono hxb)) (unitsOfMag_mono hcy))

end Sys2Proof.Proofs.Arithmetic

namespace Sys2Proof.Proofs.Phase
open Sys2Proof Sys2Proof.Machine Sys2Proof.Claims Sys2Proof.Laws Sys2Proof.Proofs.DelayLine Sys2Proof.Proofs.Arithmetic

/-! ### NCO_STEP (44_upsampler_path.md R151) -/

theorem exec_ncoStep {s : State} {p : Nat} {q : Path} (hp : p < s.lat.P) (hq : s.paths[p]? = some q) :
    exec (.ncoStep p) s = .next { s with
      paths := s.paths.set p { q with theta := nextPhase q.theta q.dtheta }
      result := .cplx ⟨fcos q.theta, fsin q.theta⟩ } := by
  rw [exec, execNcoStep, onPath_some hp hq]
  rfl

/-- Settles O49: the operation is its rule's formula, which evaluates to +0.0 at phase and step +0.0. -/
theorem ncoStep : Obligations.NcoStep := by
  intro s p q hp hq
  refine ⟨exec_ncoStep hp hq, fun htheta hstep => ?_⟩
  have hstay : nextPhase fZero fZero = fZero := by decide +kernel
  rw [htheta, hstep]
  exact ⟨hstay, if_pos rfl, if_pos rfl⟩

/-- θ in [0, TWO_PI). -/
def InTurn (theta : F64) : Prop := fle fZero theta = true ∧ flt theta fTwoPi = true

/-- Less than a turn added to a finite number cannot overflow: it is less than half a unit of the largest one. -/
theorem isFinite_fadd_phase {theta dtheta : F64} (htheta : InTurn theta) (hstep : isFinite dtheta = true) :
    isFinite theta = true ∧ isFinite (fadd theta dtheta) = true := by
  have hturn : isNaN fZero = false ∧ isNaN fTwoPi = false ∧ fkey fZero = 0 ∧ fkey fTwoPi = fmag fTwoPi ∧ fmag fTwoPi < infMag := by
    decide
  obtain ⟨hzero, htwo, hkey0, hkey2, hfin2⟩ := hturn
  obtain ⟨hlow, hhigh⟩ := htheta
  obtain ⟨-, hnan⟩ := not_nan_of_fle hlow
  rw [fle_iff hzero hnan, hkey0] at hlow
  rw [flt_iff hnan htwo, hkey2] at hhigh
  have hmag : fmag theta ≤ fmag fTwoPi := by
    cases hs : fsign theta with
    | false =>
      rw [fkey_of_fsign_false hs] at hhigh
      omega
    | true =>
      rw [fkey_of_fsign_true hs] at hlow
      omega
  have hfin : isFinite theta = true := decide_eq_true (by omega)
  refine ⟨hfin, ?_⟩
  rw [fadd_of_isFinite hfin hstep]
  split
  · exact isFinite_ofSignMag (by decide) _
  · have htop : roundMag (unitsOfMag (fmag fTwoPi) + unitsOfMag (infMag - 1)) 1 < infMag := by decide +kernel
    refine isFinite_ofSignMag (lt_of_le_of_lt (roundMag_mono Nat.one_pos Nat.one_pos (Nat.mul_le_mul_right _ ?_)) htop) _
    have hstep' := fmag_lt_of_isFinite hstep
    calc (fsigned theta + fsigned dtheta).natAbs ≤ (fsigned theta).natAbs + (fsigned dtheta).natAbs := Int.natAbs_add_le _ _
      _ = funits theta + funits dtheta := by rw [natAbs_fsigned, natAbs_fsigned]
      _ ≤ _ := Nat.add_le_add (unitsOfMag_mono hmag) (unitsOfMag_mono (by omega))

/-- Adding a turn to a negative number above −TWO_PI gives a number in [0, TWO_PI]: rounding cannot pass TWO_PI. -/
theorem fadd_turn {t turn : F64} (hturn : positive turn) (hfin : isFinite t = true) (hmag : fmag t < fmag turn)
    (hneg : fsign t = true) : isFinite (fadd t turn) = true ∧ fsign (fadd t turn) = false := by
  have hlt : funits t < funits turn := unitsOfMag_strictMono hmag
  have hsum : fsigned t + fsigned turn = ((funits turn - funits t : Nat) : Int) := by
    rw [fsigned, fsigned, hneg, hturn.2.1, if_pos rfl, if_neg Bool.false_ne_true]
    omega
  have hround : roundMag (funits turn - funits t) 1 ≤ fmag turn := by
    rw [← roundMag_funits turn hturn.1]
    exact roundMag_mono Nat.one_pos Nat.one_pos (Nat.mul_le_mul_right _ (Nat.sub_le _ _))
  have hroom := lt_of_le_of_lt hround (fmag_lt_of_isFinite hturn.1)
  rw [fadd_of_isFinite hfin hturn.1, hsum, if_neg (by omega), Int.natAbs_natCast, decide_eq_false (by omega)]
  exact ⟨isFinite_ofSignMag hroom _, fsign_ofSignMag hroom.le _⟩

/-- What is not negative and does not reach TWO_PI by the comparison of R151 is in range, and +0.0 is. -/
theorem inTurn_of_le {t : F64} (hfin : isFinite t = true) (hnonneg : flt t fZero = false) :
    InTurn (if fge t fTwoPi then fZero else t) := by
  have hturn : isNaN fZero = false ∧ isNaN fTwoPi = false ∧ InTurn fZero := by
    unfold InTurn
    decide
  obtain ⟨hzero, htwo, hin⟩ := hturn
  have hnan := isNaN_of_isFinite hfin
  split
  case isTrue => exact hin
  case isFalse hlt =>
    rw [fge, fle_iff htwo hnan] at hlt
    rw [← Bool.not_eq_true, flt_iff hnan hzero] at hnonneg
    exact ⟨(fle_iff hzero hnan).mpr (by omega), (flt_iff hnan htwo).mpr (by omega)⟩

theorem positive_fTwoPi : positive fTwoPi := by
  unfold positive
  decide

theorem inTurn_phaseAdvance {theta dtheta : F64} (htheta : InTurn theta) (hstep : isFinite dtheta = true) :
    InTurn (phaseAdvance theta dtheta) := by
  have hzero : isNaN fZero = false ∧ fkey fZero = 0 := by decide
  obtain ⟨hnan0, hkey0⟩ := hzero
  obtain ⟨hfin2, -, hpos2⟩ := positive_fTwoPi
  obtain ⟨-, hsum⟩ := isFinite_fadd_phase htheta hstep
  obtain ⟨hfin, -, hunits⟩ := exact_ffmod hsum hfin2 hpos2
  have hmag : fmag (ffmod (fadd theta dtheta) fTwoPi) < fmag fTwoPi := by
    apply fmag_lt_of_funits_lt
    rw [hunits]
    exact Nat.mod_lt _ (unitsOfMag_pos hpos2)
  rw [phaseAdvance]
  generalize ffmod (fadd theta dtheta) fTwoPi = t at hfin hmag
  by_cases hneg : flt t fZero = true
  · rw [if_pos hneg]
    have hsign : fsign t = true := by
      rw [flt_iff (isNaN_of_isFinite hfin) hnan0, hkey0] at hneg
      by_contra hc
      rw [fkey_of_fsign_false (Bool.eq_false_of_not_eq_true hc)] at hneg
      omega
    obtain ⟨hfin', hsign'⟩ := fadd_turn positive_fTwoPi hfin hmag hsign
    refine inTurn_of_le hfin' ?_
    rw [← Bool.not_eq_true, flt_iff (isNaN_of_isFinite hfin') hnan0, hkey0, fkey_of_fsign_false hsign']
    omega
  · rw [if_neg hneg]
    exact inTurn_of_le hfin (Bool.eq_false_of_not_eq_true hneg)

/-- Settles O50: FMOD brings the sum below a turn in magnitude, and the two corrections of R151 bring it into range. -/
theorem ncoPhaseInRange : Obligations.NcoPhaseInRange := by
  intro s p q hp hq hstep hlow hhigh
  obtain ⟨hlen, -⟩ := List.getElem?_eq_some_iff.mp hq
  have hin := inTurn_phaseAdvance ⟨hlow, hhigh⟩ hstep
  exact ⟨_, exec_ncoStep hp hq, { q with theta := nextPhase q.theta q.dtheta }, List.getElem?_set_self hlen, hin.1, hin.2⟩

end Sys2Proof.Proofs.Phase

namespace Sys2Proof.Proofs.Gaussian
open Sys2Proof Sys2Proof.Machine Sys2Proof.Claims Sys2Proof.Laws Sys2Proof.Proofs.DelayLine Sys2Proof.Proofs.Arithmetic

/-! ### The operands that R122 admits (43_gauss_rayleigh.md R121, R126) -/

theorem within_gaussDomain {fs bw : F64} (h : gaussDomain fs bw = true) : Within f12p8 f320 fs ∧ Within f0p1 f30 bw := by
  have hlit : positive f0p1 ∧ positive f30 ∧ Within f12p8 f320 f12p8 ∧ Within f12p8 f320 f64p0 ∧ Within f12p8 f320 f320 := by
    unfold Within positive
    decide
  obtain ⟨hlo, hhi, hslow, hmid, hfast⟩ := hlit
  simp only [gaussDomain, Bool.and_eq_true, beq_iff_eq] at h
  obtain ⟨⟨hge, hle⟩, rfl⟩ := h
  refine ⟨?_, positive_between hlo hhi hge hle⟩
  unfold rateOf
  split
  · exact hslow
  · split
    · exact hmid
    · exact hfast

/-- (1.4 × fs) / bw is finite over the whole domain. -/
theorem positive_gaussRatio {fs bw : F64} (h : gaussDomain fs bw = true) : positive (fdiv (fmul fGaussLenK fs) bw) := by
  obtain ⟨hfs, hbw⟩ := within_gaussDomain h
  have hlit : positive f12p8 ∧ positive f320 ∧ positive f0p1 ∧ positive f30 ∧ positive fGaussLenK ∧
      positive (fmul fGaussLenK f12p8) ∧ positive (fmul fGaussLenK f320) ∧
      positive (fdiv (fmul fGaussLenK f12p8) f30) ∧ positive (fdiv (fmul fGaussLenK f320) f0p1) := by
    unfold positive
    decide +kernel
  obtain ⟨h1, h2, h3, h4, hk, hlo, hhi, hqlo, hqhi⟩ := hlit
  have hmul := fmul_within hk hk h1 h2 (within_self hk) hfs hlo hhi
  exact (fdiv_within hlo hhi h3 h4 hmul hbw hqlo hqhi).1

/-- The divisor (2.0 × sigma) × sigma is a positive number: neither 0 nor a NaN. -/
theorem positive_gaussDivisor {fs bw : F64} (h : gaussDomain fs bw = true) :
    positive (fmul (fmul fTwo (gaussSigma fs bw)) (gaussSigma fs bw)) := by
  obtain ⟨hfs, hbw⟩ := within_gaussDomain h
  have hin : positive f12p8 ∧ positive f320 ∧ positive f0p1 ∧ positive f30 ∧ positive fTwo ∧ positive (fsqrt fTwo) ∧
      positive (fmul fTwo fPi) := by
    unfold positive
    decide +kernel
  obtain ⟨h1, h2, h3, h4, htwo, hroot, hpi⟩ := hin
  have hnum : positive (fmul f12p8 (fsqrt fTwo)) ∧ positive (fmul f320 (fsqrt fTwo)) ∧
      positive (fmul (fmul fTwo fPi) f0p1) ∧ positive (fmul (fmul fTwo fPi) f30) := by
    unfold positive
    decide +kernel
  obtain ⟨hnlo, hnhi, hdlo, hdhi⟩ := hnum
  have hsig : positive (gaussSigma f12p8 f30) ∧ positive (gaussSigma f320 f0p1) ∧
      positive (fmul fTwo (gaussSigma f12p8 f30)) ∧ positive (fmul fTwo (gaussSigma f320 f0p1)) ∧
      positive (fmul (fmul fTwo (gaussSigma f12p8 f30)) (gaussSigma f12p8 f30)) ∧
      positive (fmul (fmul fTwo (gaussSigma f320 f0p1)) (gaussSigma f320 f0p1)) := by
    unfold positive
    decide +kernel
  obtain ⟨hslo, hshi, h2lo, h2hi, hplo, hphi⟩ := hsig
  have hsigma : Within (gaussSigma f12p8 f30) (gaussSigma f320 f0p1) (gaussSigma fs bw) :=
    fdiv_within hnlo hnhi hdlo hdhi (fmul_within h1 h2 hroot hroot hfs (within_self hroot) hnlo hnhi)
      (fmul_within hpi hpi h3 h4 (within_self hpi) hbw hdlo hdhi) hslo hshi
  have hdouble := fmul_within htwo htwo hslo hshi (within_self htwo) hsigma h2lo h2hi
  exact (fmul_within h2lo h2hi hslo hshi hdouble hsigma hplo hphi).1

/-! ### The length -/

/-- The least odd integer from a number on, the number in units of 1/d. -/
theorem odd_ceil_bounds {u d : Nat} (hd : 0 < d) :
    let l : Int := ((u + d - 1) / d : Nat)
    let len := (if l % 2 = 0 then l + 1 else l).toNat
    len % 2 = 1 ∧ u ≤ len * d ∧ len * d < u + 2 * d := by
  have hdiv := Nat.div_add_mod (u + d - 1) d
  have hmod := Nat.mod_lt (u + d - 1) hd
  generalize (u + d - 1) / d = q at hdiv
  have hcomm : d * q = q * d := Nat.mul_comm d q
  dsimp only
  split
  case isTrue heven =>
    have hlen : ((q : Int) + 1).toNat = q + 1 := by omega
    rw [hlen, Nat.add_mul, Nat.one_mul]
    omega
  case isFalse hodd =>
    rw [Int.toNat_natCast]
    omega

theorem gaussLen_ceil {fs bw : F64} (h : gaussDomain fs bw = true) :
    gaussLen fs bw % 2 = 1 ∧ funits (fdiv (fmul fGaussLenK fs) bw) ≤ gaussLen fs bw * unitsPerOne ∧
      gaussLen fs bw * unitsPerOne < funits (fdiv (fmul fGaussLenK fs) bw) + 2 * unitsPerOne := by
  obtain ⟨hfin, hsign, -⟩ := positive_gaussRatio h
  have hceil : fceil (fdiv (fmul fGaussLenK fs) bw) =
      ((funits (fdiv (fmul fGaussLenK fs) bw) + unitsPerOne - 1) / unitsPerOne : Nat) := by
    rw [fceil, if_pos hfin, if_neg (by simp [hsign])]
  rw [gaussLen, hceil]
  exact odd_ceil_bounds unitsPerOne_pos

theorem not_fle_of_fgt {a b : F64} (h : fgt a b = true) : fle a b = false := by
  rw [fgt, flt, Bool.and_eq_true, Bool.and_eq_true, Bool.not_eq_true', Bool.not_eq_true', decide_eq_true_eq] at h
  obtain ⟨⟨hb, ha⟩, hlt⟩ := h
  rw [← Bool.not_eq_true, fle_iff ha hb]
  omega

theorem fle_of_fgt {a b : F64} (h : fgt a b = true) : fle b a = true := by
  rw [fgt, flt, Bool.and_eq_true, Bool.and_eq_true, Bool.not_eq_true', Bool.not_eq_true', decide_eq_true_eq] at h
  obtain ⟨⟨hb, ha⟩, hlt⟩ := h
  exact (fle_iff hb ha).mpr hlt.le

theorem rateOf_slow {s : F64} (h : fle s f0p4 = true) : rateOf s = (f12p8, 0) := if_pos h

theorem rateOf_middle {s : F64} (h1 : fle s f0p4 = false) (h2 : fle s fTwo = true) : rateOf s = (f64p0, 1) := by
  rw [rateOf, if_neg (by simp [h1]), if_pos h2]

/-- Above 2.0 a number is above 0.4 too. -/
theorem rateOf_fast {s : F64} (h : fle s fTwo = false) (hnan : isNaN s = false) : rateOf s = (f320, 2) := by
  have hlit : isNaN fTwo = false ∧ isNaN f0p4 = false ∧ fkey f0p4 ≤ fkey fTwo := by decide
  obtain ⟨htwo, h04, hkey⟩ := hlit
  have h1 : fle s f0p4 = false := by
    rw [← Bool.not_eq_true, fle_iff hnan htwo] at h
    rw [← Bool.not_eq_true, fle_iff hnan h04]
    omega
  rw [rateOf, if_neg (by simp [h1]), if_neg (by simp [h])]

theorem gaussLen_slow {s : F64} (hlow : fle f0p1 s = true) (hhigh : fle s f0p4 = true) :
    45 ≤ gaussLen f12p8 s ∧ gaussLen f12p8 s ≤ 181 := by
  have hpos : positive (fmul fGaussLenK f12p8) ∧ positive f0p1 ∧ positive f0p4 ∧
      isFinite (fdiv (fmul fGaussLenK f12p8) f0p1) = true := by
    unfold positive
    decide +kernel
  obtain ⟨hnum, hlo, hhi, hfin⟩ := hpos
  exact (gaussLen_between 45 181 (by decide) (by decide) hnum hlo hhi hfin (by decide +kernel) (by decide +kernel) hlow hhigh).2

theorem gaussLen_middle {s : F64} (hlow : fle f0p4 s = true) (hhigh : fle s fTwo = true) :
    45 ≤ gaussLen f64p0 s ∧ gaussLen f64p0 s ≤ 225 := by
  have hpos : positive (fmul fGaussLenK f64p0) ∧ positive f0p4 ∧ positive fTwo ∧
      isFinite (fdiv (fmul fGaussLenK f64p0) f0p4) = true := by
    unfold positive
    decide +kernel
  obtain ⟨hnum, hlo, hhi, hfin⟩ := hpos
  exact (gaussLen_between 45 225 (by decide) (by decide) hnum hlo hhi hfin (by decide +kernel) (by decide +kernel) hlow hhigh).2

theorem gaussLen_fast {s : F64} (hlow : fle fTwo s = true) (hhigh : fle s f30 = true) :
    15 ≤ gaussLen f320 s ∧ gaussLen f320 s ≤ 225 := by
  have hpos : positive (fmul fGaussLenK f320) ∧ positive fTwo ∧ positive f30 ∧
      isFinite (fdiv (fmul fGaussLenK f320) fTwo) = true := by
    unfold positive
    decide +kernel
  obtain ⟨hnum, hlo, hhi, hfin⟩ := hpos
  exact (gaussLen_between 15 225 (by decide) (by decide) hnum hlo hhi hfin (by decide +kernel) (by decide +kernel) hlow hhigh).2

/-- Settles O42: the length falls as the bandwidth grows, so the two ends of each row of the rate table bound it. -/
theorem gaussLengths : Obligations.GaussLengths := by
  intro s hlow hhigh
  refine ⟨fun h04 => ⟨rateOf_slow h04, gaussLen_slow hlow h04⟩, fun h04 h2 => ?_, fun h2 => ?_⟩
  · exact ⟨rateOf_middle (not_fle_of_fgt h04) h2, gaussLen_middle (fle_of_fgt h04) h2⟩
  · exact ⟨rateOf_fast (not_fle_of_fgt h2) (not_nan_of_fle hhigh).1, gaussLen_fast (fle_of_fgt h2) hhigh⟩

/-! ### The coefficient table -/

theorem gaussInit_len (fs bw : F64) : (gaussInit fs bw).len = gaussLen fs bw := rfl

/-- The first half of a duplicated table is the table. -/
theorem dupTable_getElem?_low {t : List F64} {k : Nat} (h : k < t.length) : (dupTable t)[k]? = t[k]? :=
  List.getElem?_append_left h

/-- The second half repeats the first. -/
theorem dupTable_getElem?_high {t : List F64} {k : Nat} (h : k < t.length) : (dupTable t)[k + t.length]? = (dupTable t)[k]? := by
  rw [dupTable_getElem?_low h, dupTable, List.getElem?_append_right (Nat.le_add_left _ _), Nat.add_sub_cancel]

theorem gaussInit_coeff {fs bw : F64} {k : Nat} (h : k < gaussLen fs bw) :
    (gaussInit fs bw).c2[k]? = some (gaussCoeff (gaussSigma fs bw) (gaussLen fs bw) k) := by
  rw [gaussInit, dupTable_getElem?_low (by simpa using h)]
  simp [h]

theorem exec_gaussInit {s : State} {p : Nat} {q : Path} {fs bw : F64} (hdom : gaussDomain fs bw = true) (hp : p < s.lat.P)
    (hq : s.paths[p]? = some q) :
    exec (.gaussInit p fs bw) s = .next { s with paths := s.paths.set p { q with gf := gaussInit fs bw } } := by
  rw [exec, execGaussInit, guarded, if_pos hdom, onPath_some hp hq, State.setPath]

/-- Settles O40: the filter is `Machine.gaussInit`, whose length `gaussLen_ceil` bounds and whose table `gaussInit_coeff` gives. -/
theorem gaussInit : Obligations.GaussInit := by
  intro s p q fs bw hdom hp hq
  obtain ⟨hodd, hge, hlt⟩ := gaussLen_ceil hdom
  obtain ⟨-, hlen2, -, hwp⟩ := gaussInit_wf hdom
  refine ⟨Machine.gaussInit fs bw, exec_gaussInit hdom hp hq, hodd, (positive_gaussRatio hdom).1, hge, hlt, rfl, ?_, hlen2, ?_, ?_⟩
  · change gaussLen fs bw - 1 + 1 = gaussLen fs bw
    omega
  · intro k hk
    rw [gaussInit_len] at hk
    have hdup := dupTable_getElem?_high
      (t := (List.range (gaussLen fs bw)).map (gaussCoeff (gaussSigma fs bw) (gaussLen fs bw))) (k := k) (by simpa using hk)
    rwa [List.length_map, List.length_range] at hdup
  · intro k hk
    exact gaussInit_coeff hk

/-! ### Symmetry and peak -/

/-- The square depends on the magnitude alone. -/
theorem fmul_self_congr {t u : F64} (ht : isFinite t = true) (hu : isFinite u = true) (h : fmag t = fmag u) :
    fmul t t = fmul u u := by
  rw [fmul_of_isFinite ht ht, fmul_of_isFinite hu hu, funits, funits, h]
  simp

/-- The difference of two small integers is their distance, rounded to a finite number. -/
theorem fsub_fofNat {a b : Nat} (ha : a < 2 ^ 52) (hb : b < 2 ^ 52) :
    isFinite (fsub (fofNat a) (fofNat b)) = true ∧
      fmag (fsub (fofNat a) (fofNat b)) = roundMag (((a : Int) - b).natAbs * unitsPerOne) 1 := by
  obtain ⟨hfa, hsa, hua⟩ := fofNat_exact (n := a) (by omega)
  obtain ⟨hfb, hsb, hub⟩ := fofNat_exact (n := b) (by omega)
  have hdiff : fsigned (fofNat a) + fsigned (fneg (fofNat b)) = ((a : Int) - b) * (unitsPerOne : Int) := by
    rw [fsigned_fneg, fsigned, fsigned, hsa, hsb, hua, hub, if_neg Bool.false_ne_true, if_neg Bool.false_ne_true]
    push_cast
    ring
  have hdist : (((a : Int) - b) * (unitsPerOne : Int)).natAbs = ((a : Int) - b).natAbs * unitsPerOne := by
    rw [Int.natAbs_mul, Int.natAbs_natCast]
  have hfin := (fofNat_exact (n := ((a : Int) - b).natAbs) (by omega)).1
  rw [fofNat, isFinite, fmag_ofSignMag (roundMag_le _ _), decide_eq_true_eq] at hfin
  rw [fsub_of_isFinite hfa hfb, fadd_of_isFinite hfa ((isFinite_fneg _).trans hfb), hdiff, hdist]
  split
  case isTrue hzero =>
    have hnat : ((a : Int) - b).natAbs * unitsPerOne = 0 := by
      rw [← hdist, hzero]
      rfl
    have hround : roundMag 0 1 = 0 := by decide +kernel
    rw [hnat, hround]
    exact ⟨isFinite_ofSignMag (by decide) _, fmag_ofSignMag (by decide) _⟩
  case isFalse => exact ⟨isFinite_ofSignMag hfin _, fmag_ofSignMag hfin.le _⟩

/-- Coefficients at the same distance from the centre are equal. -/
theorem gaussCoeff_symm (sigma : F64) {len c j : Nat} (hc : c = (len - 1) / 2) (hj : j ≤ c) (hsmall : len < 2 ^ 51) :
    gaussCoeff sigma len (c - j) = gaussCoeff sigma len (c + j) := by
  obtain ⟨hfl, hml⟩ := fsub_fofNat (a := c - j) (b := c) (by omega) (by omega)
  obtain ⟨hfr, hmr⟩ := fsub_fofNat (a := c + j) (b := c) (by omega) (by omega)
  have hdist : (((c - j : Nat) : Int) - c).natAbs = (((c + j : Nat) : Int) - c).natAbs := by omega
  have hmag : fmag (fsub (fofNat (c - j)) (fofNat c)) = fmag (fsub (fofNat (c + j)) (fofNat c)) := by rw [hml, hmr, hdist]
  rw [gaussCoeff, gaussCoeff, ← hc]
  rw [fmul_self_congr hfl hfr hmag]

/-- At the centre the exponent is a zero, because the divisor is a number other than 0. -/
theorem gaussCoeff_centre {sigma : F64} {len c : Nat} (hc : c = (len - 1) / 2) (hsmall : len < 2 ^ 51)
    (hdiv : positive (fmul (fmul fTwo sigma) sigma)) : gaussCoeff sigma len c = fOne := by
  obtain ⟨hfin, hmag⟩ := fsub_fofNat (a := c) (b := c) (by omega) (by omega)
  have hround : roundMag 0 1 = 0 := by decide +kernel
  have hzero : fmag (fsub (fofNat c) (fofNat c)) = 0 := by
    rw [hmag, sub_self, Int.natAbs_zero, Nat.zero_mul, hround]
  rw [gaussCoeff, ← hc]
  rw [fexp, fmag_fneg, fmag_fdiv_of_zero (fmag_fmul_of_zero hzero hfin) hdiv, if_pos rfl]

/-- Settles O41: `gaussCoeff_centre` and `gaussCoeff_symm`, at the indices of the first half of the table. -/
theorem gaussTable : Obligations.GaussTable := by
  intro fs bw hdom
  obtain ⟨hodd, -, hmax⟩ := gaussLen_bounds hdom
  have hsmall : gaussLen fs bw ≤ 225 := hmax
  rw [gaussInit_len]
  refine ⟨?peak, fun j hj => ?symmetry⟩
  case peak =>
    rw [gaussInit_coeff (by omega), gaussCoeff_centre rfl (by omega) (positive_gaussDivisor hdom)]
  case symmetry =>
    rw [gaussInit_coeff (by omega), gaussInit_coeff (by omega), gaussCoeff_symm _ rfl hj (by omega)]

end Sys2Proof.Proofs.Gaussian

namespace Sys2Proof.Proofs.SignalLevel
open Sys2Proof Sys2Proof.Machine Sys2Proof.Laws Sys2Proof.Proofs.DelayLine Sys2Proof.Proofs.Arithmetic
open Sys2Proof.Proofs.ChannelCommands

/-! ### BLOCK_RMS_UPDATE (46_channel_commands.md R173) -/

theorem exec_blockRmsUpdate {x : List F64} (h : x.length = 2048) (s : State) :
    exec (.blockRmsUpdate x) s = .next { s with sigAvg := rmsUpdate x s.sigAvg } := by
  rw [exec, execBlockRmsUpdate, guarded, if_pos (isBlock_iff.mpr h)]

/-- The sum of squares of zeros stays +0.0. -/
theorem blockRms_zeros (n : Nat) : Machine.blockRms (List.replicate n fZero) = fZero := by
  have hlit : fadd fZero (fmul fZero fZero) = fZero ∧ fsqrt (fdiv fZero f2048) = fZero := by decide +kernel
  obtain ⟨hadd, hroot⟩ := hlit
  have hsum : (List.replicate n fZero).foldl (fun acc v => fadd acc (fmul v v)) fZero = fZero := by
    induction n with
    | zero => rfl
    | succ n ih => rw [List.replicate_succ, List.foldl_cons, hadd, ih]
  rw [Machine.blockRms, hsum, hroot]

/-- A number at most 1.0 does not carry a positive one past itself, so 0.95 times the average is finite. -/
theorem fmul_f0p95 {x : F64} (hfin : isFinite x = true) (hsign : fsign x = false) :
    isFinite (fmul f0p95 x) = true ∧ fsign (fmul f0p95 x) = false := by
  have hlit : isFinite f0p95 = true ∧ fsign f0p95 = false ∧ funits f0p95 ≤ unitsPerOne := by decide +kernel
  obtain ⟨hfin95, hsign95, hle95⟩ := hlit
  have hround : roundMag (funits f0p95 * funits x) unitsPerOne ≤ fmag x := by
    rw [← roundMag_unitsOfMag (fmag x) unitsPerOne (fmag_lt_of_isFinite hfin).le unitsPerOne_pos]
    refine roundMag_mono unitsPerOne_pos unitsPerOne_pos (Nat.mul_le_mul_right _ ?_)
    rw [Nat.mul_comm, funits]
    exact Nat.mul_le_mul_left _ hle95
  have hlt := lt_of_le_of_lt hround (fmag_lt_of_isFinite hfin)
  rw [fmul_of_isFinite hfin95 hfin, hsign95, hsign]
  exact ⟨isFinite_ofSignMag hlt _, fsign_ofSignMag hlt.le _⟩

/-- +0.0 added on the left changes no number but −0.0. -/
theorem fadd_fZero_left {x : F64} (hfin : isFinite x = true) (hsign : fsign x = false) : fadd fZero x = x := by
  have hzero : fmag fZero = 0 ∧ fsign fZero = false := by decide
  rw [fadd_zero_left hzero.1 hfin, hzero.2, Bool.false_and]
  split
  case isTrue h => rw [← h, ← hsign, ofSignMag_fsign_fmag]
  case isFalse => rfl

theorem rmsUpdate_zeros {prev : F64} (n : Nat) (hfin : isFinite prev = true) (hpos : flt fZero prev = true) :
    rmsUpdate (List.replicate n fZero) prev = fmul f0p95 prev := by
  have hlit : fmul f0p05 fZero = fZero ∧ isNaN fZero = false ∧ fkey fZero = 0 := by decide +kernel
  obtain ⟨hmul, hnan, hkey⟩ := hlit
  have hsign : fsign prev = false := by
    rw [flt_iff hnan (isNaN_of_isFinite hfin), hkey] at hpos
    by_contra hc
    rw [fkey_of_fsign_true (Bool.eq_true_of_not_eq_false hc)] at hpos
    omega
  obtain ⟨hfin95, hsign95⟩ := fmul_f0p95 hfin hsign
  rw [rmsUpdate, blockRms_zeros, hmul, fadd_fZero_left hfin95 hsign95]

/-- Settles O31: the operation is its rule's formula; over zeros the new term of the average is +0.0, which adds nothing. -/
theorem blockRms : Obligations.BlockRms := by
  refine ⟨fun s x hx => exec_blockRmsUpdate hx s, fun s hfin hpos => ?_⟩
  rw [exec_blockRmsUpdate List.length_replicate, rmsUpdate_zeros _ hfin hpos]

end Sys2Proof.Proofs.SignalLevel

namespace Sys2Proof.Proofs.Encoding
open Sys2Proof Sys2Proof.Machine Sys2Proof.Laws

/-! ### Decode and encode (30_encoding.md R83, R86) -/

/-- A well-formed instruction that has a word is one of the four rows a host can write, and its word decodes to it. -/
theorem decode_of_encode {i : Instr} {w : Word} (hwf : i.wf = true) (h : encode i = some w) : decode w = i := by
  cases i with
  | nop => cases h; rfl
  | init => cases h; rfl
  | processBlock => cases h; rfl
  | illegal v =>
    cases h
    simp only [Instr.wf, Bool.and_eq_true, bne_iff_ne] at hwf
    obtain ⟨⟨h0, h1⟩, h2⟩ := hwf
    exact decode_other _ h0 h1 h2
  | _ => cases h

/-- Every word decodes to a well-formed instruction whose word it is. -/
theorem encode_decode (w : Word) : (decode w).wf = true ∧ encode (decode w) = some w := by
  by_cases h0 : w = 0#64
  · subst h0; exact ⟨rfl, rfl⟩
  by_cases h1 : w = 1#64
  · subst h1; exact ⟨rfl, rfl⟩
  by_cases h2 : w = 2#64
  · subst h2; exact ⟨rfl, rfl⟩
  rw [decode_other w h0 h1 h2]
  exact ⟨by simp [Instr.wf, h0, h1, h2], rfl⟩

theorem decodeBytes_bytesOfWord (w : Word) : decodeBytes (bytesOfWord w) = .ok (decode w) := by
  have hlen : (bytesOfWord w).length = 8 := by simp [bytesOfWord]
  rw [decodeBytes, if_pos hlen, wordOfBytes_bytesOfWord]

/-- Settles O1: `decode_of_encode` one way, `encode_decode` the other; eight bytes of a word give the word back. -/
theorem decodeAndEncodeAgree : Obligations.DecodeAndEncodeAgree := by
  refine ⟨fun i bs hwf hbs => ?_, encode_decode⟩
  obtain ⟨w, hw, rfl⟩ := Option.map_eq_some_iff.mp hbs
  refine ⟨by simp [bytesOfWord], ?_⟩
  rw [decodeBytes_bytesOfWord, decode_of_encode hwf hw]

/-- Settles O3: the six words are closed terms, so the decoder evaluates on them. -/
theorem sampleWordsDecode : Obligations.SampleWordsDecode := ⟨rfl, rfl, rfl, rfl, rfl, rfl⟩

end Sys2Proof.Proofs.Encoding

namespace Sys2Proof.Proofs.Stepping
open Sys2Proof Sys2Proof.Machine Sys2Proof.Claims Sys2Proof.Laws Sys2Proof.Proofs.ChannelCommands Sys2Proof.Proofs.Encoding

/-! ### Whose turn it is (10_state.md R34–R36; log 6) -/

theorem fetch_host {s : State} {ts : List Turn} (h : s.turns = .host :: ts) : fetch s = hostTurn { s with turns := ts } := by
  rw [fetch, h]

theorem fetch_sequencer {s : State} {ts : List Turn} (h : s.turns = .sequencer :: ts) :
    fetch s = sequencerTurn { s with turns := ts } := by
  rw [fetch, h]

/-- Settles O4: the write names CMD (`exec_busWrite_cmd`), and what the bytes decode to is what their word does. -/
theorem stepRunsTheDecodedCommand : Obligations.StepRunsTheDecodedCommand := by
  intro s bs i rest ts hdecode hturn hbus
  have hword : decode (wordOfBytes bs) = i := by
    rw [decodeBytes] at hdecode
    split at hdecode
    · exact Except.ok.inj hdecode
    · cases hdecode
  refine ⟨hword ▸ (encode_decode _).1, ?_⟩
  rw [step_host_write hturn hbus, exec_busWrite_cmd, hword]

/-- Settles O5: the turn is the host's, and each form of its first access is one branch of `hostTurn`. -/
theorem stepServesTheHost : Obligations.StepServesTheHost := by
  intro s ts rest hturn
  have hfetch := fetch_host hturn
  refine ⟨fun hbus => ?none, fun off w hbus => ?read, fun off w v hbus => ?write, fun hbus => ?poll⟩
  case none => simp [step, hfetch, hostTurn, hbus]
  case read => simp [step, hfetch, hostTurn, hbus]
  case write => exact step_host_write hturn hbus
  case poll => simp [step, hfetch, hostTurn, hbus]

/-- Settles O6: the turn is the sequencer's, and its state and the work select the branch of `sequencerTurn`. -/
theorem stepRunsTheSequencer : Obligations.StepRunsTheSequencer := by
  intro s ts hturn
  have hfetch := fetch_sequencer hturn
  refine ⟨fun hseq => ?idle, fun hseq hfin => ?initWork, fun hseq hfin => ?blockWork, fun c f hseq hfin => ?complete⟩
  case idle => simp [step, hfetch, sequencerTurn, hseq]
  case initWork => simp [step, hfetch, sequencerTurn, hseq, hfin]
  case blockWork => exact step_sequencer_work hturn hseq hfin
  case complete => exact step_sequencer_complete hturn hseq hfin

/-- Settles O7: with no turn given `fetch` chooses the agent, and that agent's turn on the list chooses the same. -/
theorem stepWithoutATurn : Obligations.StepWithoutATurn := by
  intro s hturns
  have hsame : { s with turns := [] } = s := by rw [← hturns]
  refine ⟨fun hrun hhold => ?sequencer, fun hwait => ?host⟩
  case sequencer =>
    have hchoice : fetch s = sequencerTurn s := by rw [fetch, hturns]; exact if_pos ⟨hrun, hhold⟩
    have hgiven : fetch { s with turns := [.sequencer] } = sequencerTurn { s with turns := [] } := fetch_sequencer rfl
    rw [step, step, hchoice, hgiven, hsame]
  case host =>
    have hchoice : fetch s = hostTurn s := by
      rw [fetch, hturns]
      refine if_neg fun ⟨hrun, hhold⟩ => ?_
      rcases hwait with hidle | hholding
      · exact hrun hidle
      · rw [hhold] at hholding
        exact Bool.false_ne_true hholding
    have hgiven : fetch { s with turns := [.host] } = hostTurn { s with turns := [] } := fetch_host rfl
    rw [step, step, hchoice, hgiven, hsame]

/-! ### The RNG_IN stream (10_state.md R36, R45; 60_exceptions.md R210) -/

theorem step_supply {s : State} {v : F64} {ts : List Turn} (h : s.turns = .supply v :: ts) :
    step s = supplyRng v { s with turns := ts } := by
  simp [step, fetch, h]

theorem step_draw {s : State} {ts : List Turn} (h : s.turns = .draw :: ts) : step s = drawTurn { s with turns := ts } := by
  simp [step, fetch, h]

/-- A work as a draw on the stream: `f` on the values, `k` the state it leaves. What it draws does not depend on the ports. -/
theorem exists_work {s : State} {i : Instr} (h : isWork s i) :
    ∃ (α : Type) (f : List F64 → RngResult α) (k : α → State → State), (∀ a t, (k a t).holding = t.holding) ∧
      (∀ ts, drawTurn { s with turns := ts } = drawOne { s with turns := ts } f) ∧
      ∀ drawn holding rng, exec i { s with drawn := drawn, holding := holding, rng := rng } =
        runDraws { s with drawn := drawn, holding := holding, rng := rng } f k := by
  obtain ⟨hfin, ⟨hseq, rfl⟩ | ⟨hseq, rfl⟩⟩ := h
  · refine ⟨_, chanInitWork s, _, fun a t => ?_, fun ts => ?_, fun d b r => by rw [exec, execChanInit]; rfl⟩
    · rfl
    · rw [drawTurn, hseq, hfin]
      rfl
  · refine ⟨_, chanProcessWork s, _, fun a t => ?_, fun ts => ?_, fun d b r => by rw [exec, execChanProcess]; rfl⟩
    · rfl
    · rw [drawTurn, hseq, hfin]
      rfl

/-- An operation that holds where no further value waits does not end on those drawn. -/
theorem starved_of_holding {α : Type} {s : State} {f : List F64 → RngResult α} {k : α → State → State}
    (hk : ∀ a t, (k a t).holding = t.holding) (hrng : s.rng = []) (h : NextWith (runDraws s f k) fun t => t.holding = true) :
    f s.drawn = .starved := by
  obtain ⟨t, hnext, hhold⟩ := h
  rcases runDraws_next hnext with ⟨a, rest, -, rfl⟩ | ⟨hstarved, -⟩
  · rw [hk] at hhold
    cases hhold
  · rwa [hrng, List.append_nil] at hstarved

/-- Settles O8: a supply turn is `supplyRng`; a draw turn takes one value of a starved work, and the work reads the values drawn and
those waiting as one stream. -/
theorem stepSuppliesTheStream : Obligations.StepSuppliesTheStream := by
  refine ⟨fun s v ts hturn => ⟨fun hfin hlow hhigh => ?good, fun hbad => ?bad⟩, fun s i ts hturn hwork hholds => ?draw⟩
  case good =>
    have hgood : rngGood v = true := by rw [rngGood, hfin, hlow, hhigh]; rfl
    rw [step_supply hturn, supplyRng, if_pos hgood]
  case bad =>
    have hgood : ¬ rngGood v = true := by
      rw [rngGood]
      rcases hbad with h | h | h <;> simp [h]
    rw [step_supply hturn, supplyRng, if_neg hgood]
  case draw =>
    obtain ⟨α, f, k, hk, hdraw, hexec⟩ := exists_work hwork
    have hstarved : f s.drawn = .starved := by
      have hempty := hexec s.drawn s.holding []
      rw [hempty] at hholds
      exact starved_of_holding (s := { s with rng := [] }) hk rfl hholds
    rw [step_draw hturn, hdraw, drawOne]
    dsimp only
    rw [hstarved]
    refine ⟨fun hrng => by rw [hrng], fun v rest hrng hgood => ⟨by rw [hrng]; exact if_pos hgood, ?_⟩⟩
    have hlater := hexec (s.drawn ++ [v]) false rest
    have hnow := hexec s.drawn s.holding s.rng
    rw [hlater]
    refine Eq.trans ?_ hnow.symm
    simp [runDraws, hrng]

/-! ### Hardware reset (10_state.md R50; 70_reset_and_hazards.md R230, R231) -/

theorem readWord_nil (a : Nat) : readWord [] a = none := by
  have h8 : List.range 8 = [0, 1, 2, 3, 4, 5, 6, 7] := rfl
  simp [readWord, h8, readByte]

/-- The values of R50 stand in the registers and SAMPLE_BUF, whatever the ports hold. -/
theorem resetValues_of_reset {t : State} (hseq : t.seq = .idle) (hregs : State.reset.sameRegisters t) (hmem : t.mem = []) :
    resetValues t := by
  obtain ⟨hstatus, hnp, hnc, hsnr, hsig, hnoise, hcount, hpaths⟩ := hregs
  refine ⟨hseq, by rw [hstatus]; decide, hnp, hnc, hsnr, hsig, hnoise, hcount, fun p hp => ?_, fun i => ?_⟩
  · have hreplicate : t.pathRegs = List.replicate 32 ⟨fZero, fZero, fZero⟩ := hpaths
    rw [State.pathReg, hreplicate, List.getD_eq_getElem _ _ (by simpa using hp), List.getElem_replicate]
  · rw [hmem, sampleValid, readWord_nil]
    rfl

/-- Settles O9: both reset states have the registers of `State.reset`, and the ports are carried over. -/
theorem resetValues : Obligations.ResetValues := by
  refine ⟨resetValues_of_reset rfl ⟨rfl, rfl, rfl, rfl, rfl, rfl, rfl, rfl⟩ rfl, fun s ts hturn => ?_⟩
  have hstep : step s = .next (hardwareReset { s with turns := ts }) := by simp [step, fetch, hturn]
  exact ⟨_, hstep, resetValues_of_reset rfl ⟨rfl, rfl, rfl, rfl, rfl, rfl, rfl, rfl⟩ rfl, rfl, rfl, rfl, rfl⟩

end Sys2Proof.Proofs.Stepping

namespace Sys2Proof.Proofs.Frames
open Sys2Proof Sys2Proof.Machine Sys2Proof.Claims Sys2Proof.Laws

/-! ### What the DSP operations write (10_state.md R46; 20_memory.md R69) -/

/-- The units, the values drawn and the result may differ, nothing else. -/
def DspUpdate (s t : State) : Prop :=
  t = { s with
    hil := t.hil, dl := t.dl, paths := t.paths, nz := t.nz, sigAvg := t.sigAvg, drawn := t.drawn, holding := t.holding
    finished := t.finished, result := t.result, rng := t.rng }

/-- The host-visible registers, SAMPLE_BUF, the control state and the host's port are as before. -/
def HostSideKept (s t : State) : Prop := s.sameRegisters t ∧ t.mem = s.mem ∧ s.sameControl t ∧ s.samePorts t

theorem DspUpdate.hostSideKept {s t : State} (h : DspUpdate s t) : HostSideKept s t := by
  refine ⟨⟨?_, ?_, ?_, ?_, ?_, ?_, ?_, ?_⟩, ?_, ⟨?_, ?_⟩, ?_, ?_, ?_, ?_⟩ <;> rw [h]

theorem dspUpdate_runDraws {α : Type} {s t : State} {f : List F64 → RngResult α} {k : α → State → State}
    (h : runDraws s f k = .next t)
    (hk : ∀ a rest, DspUpdate s (k a { s with drawn := [], holding := false, rng := rest })) : DspUpdate s t := by
  rcases runDraws_next h with ⟨a, rest, -, rfl⟩ | ⟨-, rfl⟩
  · exact hk a rest
  · rfl

theorem dspUpdate_onPath {s t : State} {p : Nat} {f : Path → Outcome} (h : onPath s p f = .next t)
    (hf : ∀ q, f q = .next t → DspUpdate s t) : DspUpdate s t := by
  obtain ⟨-, q, -, hq⟩ := onPath_next h
  exact hf q hq

theorem dspUpdate_onStage {s t : State} {p k : Nat} {m : String} {f : Path → Ups → Outcome}
    (h : onStage s p k m f = .next t) (hf : ∀ q u, f q u = .next t → DspUpdate s t) : DspUpdate s t := by
  obtain ⟨-, q, u, -, -, hq⟩ := onStage_next h
  exact hf q u hq

/-- An operation that answers a state answers that one. -/
theorem dspUpdate_of_next {s t u : State} (h : (.next u : Outcome) = .next t) (hu : DspUpdate s u) : DspUpdate s t := by
  cases h
  exact hu

/-- Each operation writes the units it names, through the shared forms above. -/
theorem dspUpdate_exec {i : Instr} {s t : State} (hi : isDspOperation i = true) (h : exec i s = .next t) : DspUpdate s t := by
  cases i with
  | nop | init | processBlock | illegal | busRead | busWrite | issue | complete => cases hi
  | firApply x =>
    cases x with
    | gauss p z => exact dspUpdate_onPath h fun _ hq => dspUpdate_of_next hq rfl
    | noise v => exact dspUpdate_of_next h rfl
  | hilbertFilterBlock | delayAdd | delayBlock | blockRmsUpdate | pathAccumulate =>
    exact dspUpdate_of_next (guarded_next h).2 rfl
  | hilbertInit | delayInit | noiseInit | agcGains | initValidate => exact dspUpdate_of_next h rfl
  | gaussInit => exact dspUpdate_onPath (guarded_next h).2 fun _ hq => dspUpdate_of_next hq rfl
  | gaussApply | ncoStep => exact dspUpdate_onPath h fun _ hq => dspUpdate_of_next hq rfl
  | cnormal =>
    rw [exec, execCnormal] at h
    exact dspUpdate_runDraws h fun _ _ => rfl
  | chanInit =>
    rw [exec, execChanInit] at h
    exact dspUpdate_runDraws h fun _ _ => rfl
  | chanProcess =>
    rw [exec, execChanProcess] at h
    exact dspUpdate_runDraws h fun _ _ => rfl
  | noiseAdd => exact dspUpdate_runDraws (guarded_next h).2 fun _ _ => rfl
  | rayleighInit | pathCalc =>
    exact dspUpdate_onPath (guarded_next h).2 fun _ hq => dspUpdate_runDraws hq fun _ _ => rfl
  | rayleighSample | pathInit => exact dspUpdate_onPath h fun _ hq => dspUpdate_runDraws hq fun _ _ => rfl
  | upsInit => exact dspUpdate_onStage (guarded_next h).2 fun _ _ hq => dspUpdate_of_next hq rfl
  | upsInsertAt | upsInsert | upsUpsample => exact dspUpdate_onStage h fun _ _ hq => dspUpdate_of_next hq rfl

/-- Settles O14: what an operation may write (`dspUpdate_exec`) holds nothing of the host's side. -/
theorem dspOperationsLeaveTheHostSide : Obligations.DspOperationsLeaveTheHostSide :=
  fun _ _ _ hi h => (dspUpdate_exec hi h).hostSideKept

/-! ### Other values in the configuration registers (10_state.md R37; 20_memory.md R72) -/

/-- An operation that draws, on a state with other configuration registers: its stream and what it leaves are the same. -/
theorem runDraws_withConfig {α : Type} {s : State} {np nc : Word} {snr : F64} {regs : List PathRegs}
    {f : List F64 → RngResult α} {k : α → State → State}
    (hk : ∀ a t, k a (withConfig t np nc snr regs) = withConfig (k a t) np nc snr regs) :
    runDraws (withConfig s np nc snr regs) f k = mapNext (fun t => withConfig t np nc snr regs) (runDraws s f k) := by
  have hstream : f ((withConfig s np nc snr regs).drawn ++ (withConfig s np nc snr regs).rng) = f (s.drawn ++ s.rng) := rfl
  rw [runDraws, runDraws, hstream]
  cases f (s.drawn ++ s.rng) with
  | ok a rest => exact congrArg Host.Outcome.next (hk a { s with drawn := [], holding := false, rng := rest })
  | starved => rfl
  | bad => rfl

theorem exec_processBlock_withConfig (s : State) (np nc : Word) (snr : F64) (regs : List PathRegs) :
    exec .processBlock (withConfig s np nc snr regs) = mapNext (fun t => withConfig t np nc snr regs) (exec .processBlock s) := by
  rw [exec, exec, execProcessBlock, execProcessBlock]
  by_cases hidle : s.seq = .idle
  · rw [takeCommand_idle _ hidle, takeCommand_idle (s := withConfig s np nc snr regs) _ hidle]
    by_cases hconf : s.status.configured = true
    · by_cases hvalid : allValid s.mem = true
      · simp [withConfig, hconf, hvalid, mapNext, startCommand]
      · simp [withConfig, hconf, hvalid, mapNext]
    · simp [withConfig, hconf, mapNext, rejectCommand, State.setErr]
  · rw [takeCommand_busy _ hidle, takeCommand_busy (s := withConfig s np nc snr regs) _ hidle]
    rfl

theorem exec_complete_withConfig (s : State) (np nc : Word) (snr : F64) (regs : List PathRegs) :
    exec .complete (withConfig s np nc snr regs) = mapNext (fun t => withConfig t np nc snr regs) (exec .complete s) := by
  obtain ⟨seq, hseq⟩ : ∃ seq, s.seq = seq := ⟨_, rfl⟩
  obtain ⟨fin, hfin⟩ : ∃ fin, s.finished = fin := ⟨_, rfl⟩
  have hseq' : (withConfig s np nc snr regs).seq = seq := hseq
  have hfin' : (withConfig s np nc snr regs).finished = fin := hfin
  rw [exec, exec, execComplete, execComplete, hseq, hfin, hseq', hfin']
  cases seq with
  | idle => rfl
  | run c =>
    cases fin with
    | none => cases c <;> rfl
    | some f => cases c <;> cases f <;> rfl

/-- Settles O15: no work, no completion and no check of PROCESS_BLOCK reads a configuration register. -/
theorem configurationNotSeenAfterInit : Obligations.ConfigurationNotSeenAfterInit := by
  intro s np nc snr regs i hi
  rcases hi with rfl | rfl | rfl | rfl
  · exact exec_processBlock_withConfig s np nc snr regs
  · rw [exec, exec, execChanInit, execChanInit]
    exact runDraws_withConfig fun _ _ => rfl
  · rw [exec, exec, execChanProcess, execChanProcess]
    exact runDraws_withConfig fun _ _ => rfl
  · exact exec_complete_withConfig s np nc snr regs

/-! ### What each step leaves of the sequencer and of CONFIGURED (10_state.md R35, R36; 70_reset_and_hazards.md R231, R232) -/

/-- One step seen from the sequencer: it was reset, or COMPLETE ended the finished work, or a command was issued, or a running
command and CONFIGURED are as before. -/
theorem step_control {s t : State} (h : step s = .next t) :
    ((∃ ts, s.turns = .reset :: ts) ∧ t.status.configured = false) ∨
    (s.seq = .run .init ∧ s.finished = some .init ∧ t.seq = .idle) ∨
    (s.seq = .run .processBlock ∧ s.finished ≠ none ∧ t.seq = .idle ∧ t.status.configured = s.status.configured) ∨
    (s.seq = .idle ∧ (t.status.configured = true → s.status.configured = true)) ∨
    (t.seq = s.seq ∧ t.status.configured = s.status.configured) := by
  obtain ⟨hwait, hsupply, hdraw, hreset⟩ := fetch_other (s := s)
  rcases step_next h with ⟨i, u, hf, hx⟩ | ⟨v, u, hf, -, rfl⟩ | ⟨u, hf, rfl⟩ | hf | ⟨u, hf, hd⟩
  case inl =>
    obtain ⟨b, ts, rfl⟩ := fetch_run_state hf
    have hkept : isDspOperation i = true → t.seq = s.seq ∧ t.status.configured = s.status.configured := by
      intro hi
      obtain ⟨⟨hstatus, -⟩, -, ⟨hseq, -⟩, -⟩ := (dspUpdate_exec hi hx).hostSideKept
      exact ⟨hseq, by rw [hstatus]⟩
    rcases fetch_run hf with rfl | rfl | rfl | ⟨off, w, rfl⟩ | ⟨off, w, v, rfl⟩
    · exact .inr (.inr (.inr (.inr (hkept rfl))))
    · exact .inr (.inr (.inr (.inr (hkept rfl))))
    · rcases complete_cases _ _ hx with ⟨hseq, hfin, rfl⟩ | ⟨y, n, hseq, hfin, rfl⟩ | rfl
      · exact .inr (.inl ⟨hseq, hfin, rfl⟩)
      · refine .inr (.inr (.inl ⟨hseq, ?_, rfl, rfl⟩))
        intro hnone
        exact absurd (hfin.symm.trans hnone) (by simp)
      · exact .inr (.inr (.inr (.inr ⟨rfl, rfl⟩)))
    · rcases read_cases _ _ _ _ hx with ⟨r, rfl⟩ | rfl <;> exact .inr (.inr (.inr (.inr ⟨rfl, rfl⟩)))
    · rcases write_cases _ _ _ _ _ hx with
        ⟨r, hi⟩ | ⟨r, rfl⟩ | rfl | rfl | rfl | rfl | ⟨p, f, rfl⟩ | ⟨k, -, rfl⟩
      case inl =>
        rcases issue_cases _ _ _ hi with ⟨-, rfl⟩ | ⟨hidle, rfl | rfl | ⟨rfl, -⟩ | rfl | ⟨-, rfl⟩ | ⟨-, rfl⟩⟩
        · exact .inr (.inr (.inr (.inr ⟨rfl, rfl⟩)))
        · exact .inr (.inr (.inr (.inl ⟨hidle, id⟩)))
        · exact .inr (.inr (.inr (.inl ⟨hidle, id⟩)))
        · exact .inr (.inr (.inr (.inl ⟨hidle, id⟩)))
        · exact .inr (.inr (.inr (.inl ⟨hidle, fun hc => absurd hc Bool.false_ne_true⟩)))
        · exact .inr (.inr (.inr (.inl ⟨hidle, id⟩)))
        · exact .inr (.inr (.inr (.inl ⟨hidle, id⟩)))
      all_goals exact .inr (.inr (.inr (.inr ⟨rfl, rfl⟩)))
  case inr.inl =>
    obtain ⟨ts, rfl⟩ := hsupply _ _ hf
    exact .inr (.inr (.inr (.inr ⟨rfl, rfl⟩)))
  case inr.inr.inl =>
    obtain ⟨ts, hturns, rfl⟩ := hreset _ hf
    exact .inl ⟨⟨ts, hturns⟩, rfl⟩
  case inr.inr.inr.inl =>
    obtain ⟨ts, rfl⟩ := hwait _ hf
    exact .inr (.inr (.inr (.inr ⟨rfl, rfl⟩)))
  case inr.inr.inr.inr =>
    obtain ⟨ts, rfl⟩ := hdraw _ hf
    rcases drawTurn_next hd with rfl | ⟨-, -, ⟨-, rfl⟩ | ⟨v, rest, -, -, rfl⟩⟩ <;>
      exact .inr (.inr (.inr (.inr ⟨rfl, rfl⟩)))

/-- Settles O12: by `step_control` CONFIGURED rises only where COMPLETE ends an INIT. -/
theorem onlyInitConfigures : Obligations.OnlyInitConfigures := by
  intro s t h hbefore hafter
  rcases step_control h with ⟨-, hc⟩ | hinit | ⟨-, -, -, hc⟩ | ⟨-, hc⟩ | ⟨-, hc⟩
  · exact absurd (hc.symm.trans hafter) Bool.false_ne_true
  · exact hinit
  · exact absurd (hbefore.symm.trans (hc.symm.trans hafter)) Bool.false_ne_true
  · exact absurd (hbefore.symm.trans (hc hafter)) Bool.false_ne_true
  · exact absurd (hbefore.symm.trans (hc.symm.trans hafter)) Bool.false_ne_true

/-- Settles O13: by `step_control` a sequencer that ran is still running, or its work had finished, or it was reset. -/
theorem onlyCompletionEndsACommand : Obligations.OnlyCompletionEndsACommand := by
  intro s t c h hrun
  rcases step_control h with ⟨hreset, -⟩ | ⟨-, hfin, hidle⟩ | ⟨-, hfin, hidle, -⟩ | ⟨hidle, -⟩ | ⟨hseq, -⟩
  · exact .inr (.inr hreset)
  · exact .inr (.inl ⟨hidle, by simp [hfin]⟩)
  · exact .inr (.inl ⟨hidle, hfin⟩)
  · exact absurd (hrun.symm.trans hidle) nofun
  · exact .inl (hseq.trans hrun)

end Sys2Proof.Proofs.Frames

namespace Sys2Proof.Proofs.ChannelCommands
open Sys2Proof Sys2Proof.Machine Sys2Proof.Claims Sys2Proof.Laws Sys2Proof.Proofs.SampleBuffer

/-! ### PROCESS_BLOCK taken while configured (R195; 10_state.md R40) -/

theorem exec_issue_processBlock (s : State) : exec (.issue 0x2#64) s = exec .processBlock s := exec_issue 0x2#64 s

theorem exec_issue_init (s : State) : exec (.issue 0x1#64) s = exec .init s := exec_issue 0x1#64 s

theorem exec_processBlock_of_unwritten {s : State} (hidle : s.seq = .idle) (hconf : s.status.configured = true)
    (hmissing : ∃ i, i < 2048 ∧ sampleValid s.mem i = false) : exec .processBlock s = .fault .unwrittenSample := by
  obtain ⟨i, hi, hinvalid⟩ := hmissing
  have hall : ¬ allValid s.mem = true := fun h =>
    Bool.false_ne_true (hinvalid.symm.trans (List.all_eq_true.mp h i (List.mem_range.mpr hi)))
  rw [exec, execProcessBlock, takeCommand_idle _ hidle]
  dsimp only
  rw [if_pos hconf, if_neg hall]

/-- Settles O20: every sample written is what the check of R40 asks for, and word 2 issues the command. -/
theorem processBlockStarts : Obligations.ProcessBlockStarts := by
  intro s hidle hconf
  refine ⟨fun hvalid => ⟨?_, exec_issue_processBlock s⟩, exec_processBlock_of_unwritten hidle hconf⟩
  rw [exec_processBlock_of_ready hidle hconf hvalid, startCommand]

/-! ### INIT (R194) -/

theorem exec_init_of_idle {s : State} (hidle : s.seq = .idle) :
    exec .init s =
      if initValidate s = .ok then
        .next (startCommand .init { s with status := { s.status with cmdDropped := false }, lat := latchConfig s })
      else .next (rejectCommand (some .init) (initValidate s) { s with status := { s.status with cmdDropped := false } }) := by
  rw [exec, execInit, takeCommand_idle _ hidle]
  rfl

/-- Settles O22: a code other than 0x00 selects the rejection, which also clears CONFIGURED. -/
theorem initRejected : Obligations.InitRejected := by
  intro s hidle hcode
  refine ⟨?_, exec_issue_init s⟩
  rw [exec_init_of_idle hidle, if_neg hcode, rejectCommand]

theorem numPaths_le_of_initValidate {s : State} (h : initValidate s = .ok) : s.numPaths.toNat ≤ maxPaths := by
  by_contra hc
  rw [initValidate_of_tooManyPaths (not_le.mp hc)] at h
  cases h

/-- The registers of a path below the count, as the latch lists them. -/
theorem getElem?_map_take_pathRegs {α : Type} {s : State} {P p : Nat} (hP : P ≤ s.pathRegs.length) (hp : p < P)
    (f : PathRegs → α) : ((s.pathRegs.take P).map f)[p]? = some (f (s.pathReg p)) := by
  have hlen : p < s.pathRegs.length := by omega
  simp [State.pathReg, hp, hlen]

/-- The latch of R181 (a), when the registers of every path exist. -/
theorem latched_latchConfig {s : State} (hP : s.numPaths.toNat ≤ s.pathRegs.length) : latched s (latchConfig s) := by
  have hlen : (s.pathRegs.take s.numPaths.toNat).length = s.numPaths.toNat := List.length_take_of_le hP
  have hreg := fun p hp => getElem?_map_take_pathRegs (α := F64) (s := s) (p := p) hP hp
  refine ⟨rfl, by simp [latchConfig], rfl, rfl, rfl, ?_, ?_, ?_, fun p hp => ⟨hreg p hp _, hreg p hp _, hreg p hp _⟩⟩ <;>
    simpa [latchConfig] using hlen

/-- Settles O23: the code 0x00 selects the latch and the start; MAX_PATHS is at most 32, so every latched path has its registers. -/
theorem initStarts : Obligations.InitStarts := by
  intro s hidle hlen hok
  have hmax : maxPaths ≤ 32 := Config.maxPathsPred.isLt
  have hP := numPaths_le_of_initValidate hok
  refine ⟨⟨startCommand .init { s with status := { s.status with cmdDropped := false }, lat := latchConfig s }, ?_,
    latched_latchConfig (s := s) (by omega), rfl⟩, exec_issue_init s⟩
  rw [exec_init_of_idle hidle, if_pos hok]

/-! ### COMPLETE (R196) -/

theorem exec_complete_init {s : State} (hseq : s.seq = .run .init) (hfin : s.finished = some .init) :
    exec .complete s = .next (completeInit s) := by
  rw [exec, execComplete, hseq, hfin]

/-- The block written covers SAMPLE_BUF exactly. -/
theorem writeBlock_readBack {m : Memory} {y : List F64} (hy : y.length = 2048) :
    (∀ i, i < 2048 → readWord (writeBlock m y) (0x10000 + 8 * i) = y[i]? ∧ sampleValid (writeBlock m y) i = true) ∧
      ∀ a, a < 0x10000 ∨ 0x14000 ≤ a → readByte (writeBlock m y) a = readByte m a := by
  constructor
  · intro i hi
    have hread := readWord_writeBlock m y i (by omega)
    rw [sampleValid, hread]
    refine ⟨?_, rfl⟩
    rw [List.getElem?_eq_getElem (by omega)]
    exact hread
  · intro a ha
    refine readByte_writeBlockFrom_other y m 0 a ?_
    rw [hy, sampleOff, sampleOff]
    omega

/-- Settles O24: each finished work selects its completion; a block's words read back by `writeBlock_readBack`. -/
theorem completion : Obligations.Completion := by
  intro s
  refine ⟨fun hseq hfin => ?init, fun y nrd hseq hfin hy => ?block⟩
  case init => rw [exec_complete_init hseq hfin, completeInit]
  case block => exact ⟨_, exec_complete_block hseq hfin, rfl, writeBlock_readBack hy⟩

/-! ### The works in direct mode (R171, R177, R181, R182) -/

theorem chanInitWork_direct {s : State} (hP : s.lat.P = 0) (rng : List F64) :
    chanInitWork s rng = .ok (s.hil, s.dl, s.paths) rng := by
  rw [chanInitWork, if_pos hP]

/-- Settles O25: with no path CHAN_INIT has no path to initialise, and in direct mode without noise CHAN_PROCESS draws nothing. -/
theorem directModeWorks : Obligations.DirectModeWorks := by
  refine ⟨fun s hP => ?_, fun s hdirect hoff => exec_chanProcess_direct hdirect hoff⟩
  rw [exec, execChanInit, runDraws_ok (chanInitWork_direct hP _)]
  rfl

end Sys2Proof.Proofs.ChannelCommands

namespace Sys2Proof.Proofs.Bus
open Sys2Proof Sys2Proof.Machine Sys2Proof.Claims Sys2Proof.Laws

/-! ### The mapped rows of the address map (20_memory.md R62) -/

theorem toNat_at17 {o : Nat} (h : o < 0x20000) : (at17 o).toNat = o := by
  rw [at17, BitVec.toNat_ofNat]
  exact Nat.mod_eq_of_lt h

/-- The register at place k of path p's slot of 0x20 bytes. -/
theorem admitted_pathSlot {p k : Nat} (hp : p < maxPaths) (hk : k % 8 = 0) (hk2 : k < 0x18) :
    admitted (at17 (0x100 + k + 0x20 * p)) 8 =
      some (if k = 0 then .pathDelay p else if k = 8 then .pathSpread p else .pathOffset p) := by
  have hmax : maxPaths ≤ 32 := Config.maxPathsPred.isLt
  have hoff : (at17 (0x100 + k + 0x20 * p)).toNat = 0x100 + k + 0x20 * p := toNat_at17 (by omega)
  rw [admitted, if_pos ⟨rfl, by omega⟩, decodeOffset_of_le (by omega), hoff, if_pos (by omega), decodePathOffset]
  have hslot : (0x100 + k + 0x20 * p - 0x100) / 0x20 = p := by omega
  rw [hslot]
  obtain rfl | rfl | rfl : k = 0 ∨ k = 8 ∨ k = 16 := by omega
  · rw [if_pos (by omega), if_pos rfl]
  · rw [if_neg (by omega), if_pos (by omega), if_neg (by decide), if_pos rfl]
  · rw [if_neg (by omega), if_neg (by omega), if_pos (by omega), if_neg (by decide), if_neg (by decide)]

theorem admitted_pathDelay {p : Nat} (hp : p < maxPaths) : admitted (at17 (0x100 + 0x20 * p)) 8 = some (.pathDelay p) :=
  admitted_pathSlot (k := 0) hp rfl (by decide)

theorem admitted_pathSpread {p : Nat} (hp : p < maxPaths) : admitted (at17 (0x108 + 0x20 * p)) 8 = some (.pathSpread p) :=
  admitted_pathSlot (k := 8) hp rfl (by decide)

theorem admitted_pathOffset {p : Nat} (hp : p < maxPaths) : admitted (at17 (0x110 + 0x20 * p)) 8 = some (.pathOffset p) :=
  admitted_pathSlot (k := 16) hp rfl (by decide)

theorem admitted_sample {i : Nat} (hi : i < 2048) : admitted (at17 (0x10000 + 8 * i)) 8 = some (.sample i) := by
  have hmax : maxPaths ≤ 32 := Config.maxPathsPred.isLt
  have hoff : (at17 (0x10000 + 8 * i)).toNat = 0x10000 + 8 * i := toNat_at17 (by omega)
  have hindex : (0x10000 + 8 * i - 0x10000) / 8 = i := by omega
  rw [admitted, if_pos ⟨rfl, by omega⟩, decodeOffset_of_le (by omega), hoff, if_neg (by omega), if_pos (by omega), hindex]

/-! ### Accesses to registers and to SAMPLE_BUF (46_channel_commands.md R190, R191) -/

/-- A read of a register is answered with the register's word. -/
theorem exec_busRead_reg {off : Offset} {w : Nat} {r : Reg} (h : admitted off w = some r) (hr : ∀ i, r ≠ .sample i) (s : State) :
    exec (.busRead off w) s = .next (s.respond (.read false (readReg s r))) := by
  rw [exec, execBusRead, h]
  cases r with
  | sample i => exact absurd rfl (hr i)
  | _ => rfl

theorem exec_busRead_sample {off : Offset} {w i : Nat} (h : admitted off w = some (.sample i)) (s : State) :
    exec (.busRead off w) s =
      if s.status.busy then .next (s.hold (.read off w)) else .next (s.respond (.read false (sampleRead s i))) := by
  rw [exec, execBusRead, h]

theorem exec_busRead_sample_written {s : State} {i : Nat} {v : Word} (hi : i < 2048) (hbusy : s.status.busy = false)
    (hv : readWord s.mem (0x10000 + 8 * i) = some v) :
    exec (.busRead (at17 (0x10000 + 8 * i)) 8) s = .next (s.respond (.read false v)) := by
  have hread : sampleRead s i = v := by rw [sampleRead, sampleOff, hv, Option.getD_some]
  rw [exec_busRead_sample (admitted_sample hi), hbusy, if_neg Bool.false_ne_true, hread]

/-- Settles O54: the eight single registers stand at closed offsets, the others by `admitted_pathSlot` and `admitted_sample`. -/
theorem busReads : Obligations.BusReads := by
  intro s
  refine ⟨exec_busRead_reg (r := .cmd) rfl nofun s, exec_busRead_reg (r := .status) rfl nofun s,
    exec_busRead_reg (r := .numPaths) rfl nofun s, exec_busRead_reg (r := .noiseCtrl) rfl nofun s,
    exec_busRead_reg (r := .snr) rfl nofun s, exec_busRead_reg (r := .signalRms) rfl nofun s,
    exec_busRead_reg (r := .noiseRms) rfl nofun s, exec_busRead_reg (r := .blockCount) rfl nofun s,
    fun p hp => ⟨?delay, ?spread, ?offset⟩, fun i v hi hbusy hv => exec_busRead_sample_written hi hbusy hv,
    fun i hi hbusy => ?held⟩
  case delay => exact exec_busRead_reg (admitted_pathDelay hp) nofun s
  case spread => exact exec_busRead_reg (admitted_pathSpread hp) nofun s
  case offset => exact exec_busRead_reg (admitted_pathOffset hp) nofun s
  case held => rw [exec_busRead_sample (admitted_sample hi), if_pos hbusy, State.hold]

/-- What writing one path's registers leaves of each slot. -/
theorem setPathReg_slots {s : State} {p : Nat} (hp : p < s.pathRegs.length) (f : PathRegs → PathRegs) :
    (s.pathRegs.set p (f (s.pathReg p)))[p]? = some (f (s.pathReg p)) ∧
      ∀ k, k ≠ p → (s.pathRegs.set p (f (s.pathReg p)))[k]? = s.pathRegs[k]? :=
  ⟨List.getElem?_set_self hp, fun _ hk => List.getElem?_set_ne hk.symm⟩

/-- Settles O55: each offset selects its branch of BUS_WRITE; a path register's write changes its own slot. -/
theorem busWrites : Obligations.BusWrites := by
  intro s v hlen
  have hmax : maxPaths ≤ 32 := Config.maxPathsPred.isLt
  refine ⟨rfl, rfl, rfl, rfl, rfl, rfl, rfl, rfl, fun p hp => ⟨⟨(s.setPathReg p fun r => { r with delayMs := v }).pathRegs, ?delay, ?delaySlots⟩,
    ⟨(s.setPathReg p fun r => { r with spreadHz := v }).pathRegs, ?spread, ?spreadSlots⟩,
    ⟨(s.setPathReg p fun r => { r with offsetHz := v }).pathRegs, ?offset, ?offsetSlots⟩⟩⟩
  case delay => rw [exec, execBusWrite, admitted_pathDelay hp]; rfl
  case delaySlots => exact setPathReg_slots (by omega) fun r => { r with delayMs := v }
  case spread => rw [exec, execBusWrite, admitted_pathSpread hp]; rfl
  case spreadSlots => exact setPathReg_slots (by omega) fun r => { r with spreadHz := v }
  case offset => rw [exec, execBusWrite, admitted_pathOffset hp]; rfl
  case offsetSlots => exact setPathReg_slots (by omega) fun r => { r with offsetHz := v }

theorem exec_busWrite_sample {off : Offset} {w i : Nat} (h : admitted off w = some (.sample i)) (v : Word) (s : State) :
    exec (.busWrite off w v) s =
      if s.status.busy then .next (s.hold (.write off w v))
      else .next ({ s with mem := writeWord s.mem (sampleOff i) v }.respond (.write false)) := by
  rw [exec, execBusWrite, h]

/-- Settles O56: a word write gives its eight bytes and no other (`readByte_writeWord`), and the word then reads back. -/
theorem sampleWrites : Obligations.SampleWrites := by
  intro s i v hi
  have hword : readWord (writeWord s.mem (sampleOff i) v) (0x10000 + 8 * i) = some v := readWord_writeWord_same _ _ _
  refine ⟨fun hbusy => ⟨{ s with mem := writeWord s.mem (sampleOff i) v }.respond (.write false), ?written, rfl, ?valid, fun k hk => ?bytes, fun a ha => ?frame, ?readBack⟩, fun hbusy => ?held⟩
  case written => rw [exec_busWrite_sample (admitted_sample hi), hbusy, if_neg Bool.false_ne_true]
  case valid => exact congrArg Option.isSome hword
  case bytes =>
    refine (readByte_writeWord _ _ _ _).trans ?_
    rw [if_pos (by rw [sampleOff]; omega), sampleOff, Nat.add_sub_cancel_left, byteOfWord]
  case frame =>
    refine (readByte_writeWord _ _ _ _).trans ?_
    rw [if_neg (by rw [sampleOff]; omega)]
  case readBack => exact exec_busRead_sample_written hi hbusy hword
  case held => rw [exec_busWrite_sample (admitted_sample hi), if_pos hbusy, State.hold]

/-! ### STATUS (10_state.md R21, R22) -/

theorem toNat_append {m n : Nat} (x : BitVec m) (y : BitVec n) : (x ++ y).toNat = x.toNat * 2 ^ n + y.toNat := by
  rw [BitVec.toNat_append, ← Nat.shiftLeft_add_eq_or_of_lt y.isLt, Nat.shiftLeft_eq]

/-- STATUS as a number: each field at the weight of its lowest bit. -/
theorem toNat_statusWord (t : Status) :
    (statusWord t).toNat =
      t.activePaths.toNat * 2 ^ 16 + (errBits t.errCode).toNat * 2 ^ 8 + t.cmdDropped.toNat * 2 ^ 4 +
        t.noiseOn.toNat * 2 ^ 3 + t.directMode.toNat * 2 ^ 2 + t.configured.toNat * 2 + t.busy.toNat := by
  change (0#40 ++ t.activePaths ++ errBits t.errCode ++ 0#3 ++ BitVec.ofBool t.cmdDropped ++ BitVec.ofBool t.noiseOn ++
    BitVec.ofBool t.directMode ++ BitVec.ofBool t.configured ++ BitVec.ofBool t.busy).toNat = _
  simp only [toNat_append, BitVec.toNat_ofBool, BitVec.toNat_ofNat]
  ring

theorem errBits_le (e : ErrCode) : (errBits e).toNat ≤ 6 := by
  cases e <;> decide

theorem getLsbD_of_toNat {w : Word} {k : Nat} {b : Bool} (h : w.toNat / 2 ^ k % 2 = b.toNat) : w.getLsbD k = b := by
  rw [BitVec.getLsbD, Nat.testBit_eq_decide_div_mod_eq, h]
  cases b <;> rfl

theorem extractLsb'_of_toNat {w : Word} {k n : Nat} {x : BitVec n} (h : w.toNat / 2 ^ k % 2 ^ n = x.toNat) :
    w.extractLsb' k n = x := by
  apply BitVec.eq_of_toNat_eq
  rw [BitVec.extractLsb'_toNat, Nat.shiftRight_eq_div_pow, h]

/-- Settles O58: by `toNat_statusWord` every field of STATUS is a digit of its number. -/
theorem statusLayout : Obligations.StatusLayout := by
  intro t
  have hword := toNat_statusWord t
  have herr := errBits_le t.errCode
  have hpaths := t.activePaths.isLt
  have hbusy := Bool.toNat_lt t.busy
  have hconf := Bool.toNat_lt t.configured
  have hdirect := Bool.toNat_lt t.directMode
  have hnoise := Bool.toNat_lt t.noiseOn
  have hdrop := Bool.toNat_lt t.cmdDropped
  have hreserved : (0#3).toNat = 0 ∧ (0#40).toNat = 0 := by decide
  refine ⟨getLsbD_of_toNat ?_, getLsbD_of_toNat ?_, getLsbD_of_toNat ?_, getLsbD_of_toNat ?_, getLsbD_of_toNat ?_,
    extractLsb'_of_toNat ?_, extractLsb'_of_toNat ?_, extractLsb'_of_toNat ?_, extractLsb'_of_toNat ?_, herr,
    rfl, rfl, rfl, rfl, rfl, rfl, rfl⟩
  all_goals
    rw [hword]
    omega

end Sys2Proof.Proofs.Bus

namespace Sys2Proof.Proofs.Blocks
open Sys2Proof Sys2Proof.Machine Sys2Proof.Laws

/-! ### A block run sample by sample (41_fir_hilbert.md R103, 42_delay_line.md R112) -/

/-- When `g i` is the state before sample i, a scan ends in the last of them and its output i is that of a step from `g i`. -/
theorem scanBlock_eq {σ α β : Type} {f : σ → α → β × σ} {xs : List α} {g : Nat → σ}
    (hstep : ∀ i (h : i < xs.length), g (i + 1) = (f (g i) xs[i]).2) :
    (scanBlock f (g 0) xs).2 = g xs.length ∧
      ∀ i (h : i < xs.length), (scanBlock f (g 0) xs).1[i]? = some (f (g i) xs[i]).1 := by
  induction xs generalizing g with
  | nil => exact ⟨rfl, nofun⟩
  | cons x xs ih =>
    have hfirst : (f (g 0) x).2 = g 1 := (hstep 0 (Nat.zero_lt_succ _)).symm
    obtain ⟨hend, hout⟩ := ih (g := fun i => g (i + 1)) fun i h => hstep (i + 1) (Nat.succ_lt_succ h)
    rw [scanBlock]
    dsimp only
    rw [hfirst]
    refine ⟨hend, fun i h => ?_⟩
    cases i with
    | zero => rfl
    | succ i => exact hout i (Nat.lt_of_succ_lt_succ h)

end Sys2Proof.Proofs.Blocks

namespace Sys2Proof.Proofs.DelayLine
open Sys2Proof Sys2Proof.Machine Sys2Proof.Claims Sys2Proof.Laws Sys2Proof.Proofs.Blocks Sys2Proof.Proofs.ChannelCommands

/-! ### DELAY_BLOCK (42_delay_line.md R112, R113) -/

/-- The buffer when i samples of the block have been written. -/
def bufAt (dl : Delay) (a : List Cplx) : Nat → List Cplx
  | 0 => dl.buf
  | i + 1 => (bufAt dl a i).set ((dl.w + i) % 2448) (a.getD i czero)

/-- The delay line when i samples of the block have been processed. -/
def lineAt (dl : Delay) (a : List Cplx) (i : Nat) : Delay :=
  ⟨bufAt dl a i, (dl.w + i) % 2448, dl.r.map fun r => (r + i) % 2448⟩

theorem lineAt_w (dl : Delay) (a : List Cplx) (i : Nat) : (lineAt dl a i).w = (dl.w + i) % 2448 := rfl

theorem lineAt_buf (dl : Delay) (a : List Cplx) (i : Nat) : (lineAt dl a i).buf = bufAt dl a i := rfl

theorem lineAt_r (dl : Delay) (a : List Cplx) (i : Nat) : (lineAt dl a i).r = dl.r.map fun r => (r + i) % 2448 := rfl

theorem incWrap_delayLen {p : Nat} (h : p < 2448) : incWrap delayLen p = (p + 1) % 2448 := by
  rw [incWrap, delayLen]
  split <;> omega

theorem lineAt_zero {dl : Delay} (hw : dl.w < 2448) (hr : ∀ r, r ∈ dl.r → r < 2448) (a : List Cplx) : lineAt dl a 0 = dl := by
  have hpointers : (dl.r.map fun r => (r + 0) % 2448) = dl.r :=
    (List.map_congr_left fun r hmem => Nat.mod_eq_of_lt (hr r hmem)).trans (List.map_id _)
  rw [lineAt, bufAt, hpointers, Nat.add_zero, Nat.mod_eq_of_lt hw]

theorem lineAt_succ {dl : Delay} {a : List Cplx} {i : Nat} (h : i < a.length) :
    lineAt dl a (i + 1) = (delaySample (lineAt dl a i) a[i]).2 := by
  have hpointer : ∀ p : Nat, incWrap delayLen ((p + i) % 2448) = (p + (i + 1)) % 2448 := fun p => by
    rw [incWrap_delayLen (Nat.mod_lt _ (by decide))]
    omega
  rw [delaySample, lineAt, lineAt, bufAt, hpointer, List.getD_eq_getElem _ _ h]
  congr 1
  change _ = (dl.r.map fun r => (r + i) % 2448).map (incWrap delayLen)
  rw [List.map_map]
  exact List.map_congr_left fun r _ => (hpointer r).symm

theorem bufAt_length (dl : Delay) (a : List Cplx) (i : Nat) : (bufAt dl a i).length = dl.buf.length := by
  induction i with
  | zero => rfl
  | succ i ih => rw [bufAt, List.length_set, ih]

/-- The samples written are those whose place lies less than i past the write pointer. -/
theorem bufAt_getElem? {dl : Delay} {a : List Cplx} (hbuf : dl.buf.length = 2448) (hw : dl.w < 2448) (ha : a.length = 2048)
    {i : Nat} (hi : i ≤ 2048) {x : Nat} (hx : x < 2448) :
    (bufAt dl a i)[x]? = if (x + 2448 - dl.w) % 2448 < i then a[(x + 2448 - dl.w) % 2448]? else dl.buf[x]? := by
  induction i with
  | zero => rw [if_neg (Nat.not_lt_zero _), bufAt]
  | succ i ih =>
    have hlen := bufAt_length dl a i
    rw [bufAt, List.getElem?_set, ih (by omega)]
    by_cases hplace : (dl.w + i) % 2448 = x
    · have hoffset : (x + 2448 - dl.w) % 2448 = i := by omega
      rw [if_pos hplace, if_pos (by omega), hoffset, if_pos (Nat.lt_succ_self i), List.getElem?_eq_getElem (by omega),
        List.getD_eq_getElem _ _ (by omega)]
    · rw [if_neg hplace]
      split
      · rw [if_pos (by omega)]
      · rw [if_neg (by omega)]

/-- The row of tap outputs of sample i: the taps read the buffer that holds it. -/
theorem delayBlock_eq {dl : Delay} {a : List Cplx} (hw : dl.w < 2448) (hr : ∀ r, r ∈ dl.r → r < 2448) :
    (Machine.delayBlock dl a).2 = lineAt dl a a.length ∧
      ∀ i, i < a.length → (scanBlock delaySample dl a).1[i]? =
        some ((lineAt dl a i).r.map fun r => (bufAt dl a (i + 1)).getD r czero) := by
  obtain ⟨hend, hout⟩ := scanBlock_eq (f := delaySample) (xs := a) (g := lineAt dl a) fun i h => lineAt_succ h
  rw [lineAt_zero hw hr] at hend hout
  refine ⟨hend, fun i h => ?_⟩
  rw [hout i h, delaySample, bufAt, List.getD_eq_getElem _ _ h]
  rfl

/-- Output i of tap k, which stood at r before the block. -/
theorem delayBlock_output {dl : Delay} {a : List Cplx} (hbuf : dl.buf.length = 2448) (hw : dl.w < 2448)
    (hr : ∀ r, r ∈ dl.r → r < 2448) {k r : Nat} (hk : dl.r[k]? = some r) :
    ∃ b, (Machine.delayBlock dl a).1[k]? = some b ∧ b.length = a.length ∧
      ∀ i, i < a.length → b[i]? = (bufAt dl a (i + 1))[(r + i) % 2448]? := by
  obtain ⟨-, hrows⟩ := delayBlock_eq (a := a) hw hr
  obtain ⟨hlen, -⟩ := List.getElem?_eq_some_iff.mp hk
  refine ⟨(scanBlock delaySample dl a).1.map fun row => row.getD k czero, ?_, ?_, fun i hi => ?_⟩
  · simp [Machine.delayBlock, tapBlocks, hlen]
  · rw [List.length_map, scanBlock_length]
  · have htap : ((lineAt dl a i).r.map fun r => (bufAt dl a (i + 1)).getD r czero)[k]? =
        some ((bufAt dl a (i + 1)).getD ((r + i) % 2448) czero) := by
      simp [lineAt, hk]
    have hplace : (r + i) % 2448 < (bufAt dl a (i + 1)).length := by
      rw [bufAt_length, hbuf]
      exact Nat.mod_lt _ (by decide)
    rw [List.getElem?_map, hrows i hi, Option.map_some, List.getD_eq_getElem?_getD, htap, Option.getD_some,
      List.getD_eq_getElem _ _ hplace, List.getElem?_eq_getElem hplace]

/-- A tap that trails by D ≤ 400 reads sample i − D of this block, or before it what the buffer held: the block has not come round
to that place, for the buffer is 400 samples longer than the block. -/
theorem delayBlock_trailing {dl : Delay} {a : List Cplx} (ha : a.length = 2048) (hbuf : dl.buf.length = 2448) (hw : dl.w < 2448)
    (hr : ∀ r, r ∈ dl.r → r < 2448) {k r D : Nat} (hk : dl.r[k]? = some r) (htrail : trails dl r D) (hD : D ≤ 400) :
    ∃ b, (Machine.delayBlock dl a).1[k]? = some b ∧ b.length = 2048 ∧
      (∀ i, i < D → b[i]? = dl.buf[(dl.w + 2448 + i - D) % 2448]?) ∧ ∀ i, D ≤ i → i < 2048 → b[i]? = a[i - D]? := by
  obtain ⟨b, hb, hlen, hout⟩ := delayBlock_output (a := a) hbuf hw hr hk
  have hrlt := hr r (List.mem_of_getElem? hk)
  rw [trails, delayLen] at htrail
  refine ⟨b, hb, hlen.trans ha, fun i hi => ?_, fun i hDi hi => ?_⟩
  · have hplace : (r + i) % 2448 = (dl.w + 2448 + i - D) % 2448 := by omega
    rw [hout i (by omega), bufAt_getElem? hbuf hw ha (by omega) (Nat.mod_lt _ (by decide)), if_neg (by omega), hplace]
  · have hplace : ((r + i) % 2448 + 2448 - dl.w) % 2448 = i - D := by omega
    rw [hout i (by omega), bufAt_getElem? hbuf hw ha (by omega) (Nat.mod_lt _ (by decide)), hplace, if_pos (by omega)]

theorem exec_delayBlock {a : List Cplx} (ha : a.length = 2048) (s : State) :
    exec (.delayBlock a) s = .next { s with
      dl := (Machine.delayBlock s.dl a).2, result := .blocks (Machine.delayBlock s.dl a).1 } := by
  rw [exec, execDelayBlock, guarded, if_pos (isBlock_iff.mpr ha)]
  rfl

/-- Settles O39: the line after the block is `lineAt`, whose buffer `bufAt_getElem?` gives, and `delayBlock_trailing` is what a tap
puts out. -/
theorem delayBlock : Obligations.DelayBlock := by
  intro s a ha hbuf hw hr
  obtain ⟨hend, -⟩ := delayBlock_eq (a := a) hw hr
  obtain ⟨hcount, -⟩ := delayBlock_blocks s.dl a
  refine ⟨_, exec_delayBlock ha s, (Machine.delayBlock s.dl a).1, rfl, ?_⟩
  dsimp only
  rw [hend, ha, lineAt_w, lineAt_buf, lineAt_r, bufAt_length]
  refine ⟨rfl, hbuf, List.length_map _, hcount, fun i hi => ?block, fun j hj1 hj => ?kept,
    fun k r D hk htrail hD => ⟨⟨(r + 2048) % 2448, ?pointer, ?trail⟩, delayBlock_trailing ha hbuf hw hr hk htrail hD⟩⟩
  case block =>
    have hplace : ((s.dl.w + i) % 2448 + 2448 - s.dl.w) % 2448 = i := by omega
    rw [bufAt_getElem? hbuf hw ha (le_refl _) (Nat.mod_lt _ (by decide)), hplace, if_pos hi]
  case kept =>
    rw [bufAt_getElem? hbuf hw ha (le_refl _) (Nat.mod_lt _ (by decide)), if_neg (by omega)]
  case pointer => simp [hk]
  case trail =>
    have hrlt := hr r (List.mem_of_getElem? hk)
    rw [trails, delayLen] at htrail ⊢
    rw [lineAt_w]
    omega

end Sys2Proof.Proofs.DelayLine

namespace Sys2Proof.Proofs.FirHilbert
open Sys2Proof Sys2Proof.Machine Sys2Proof.Claims Sys2Proof.Laws Sys2Proof.Proofs.Blocks Sys2Proof.Proofs.ChannelCommands
open Sys2Proof.Proofs.Arithmetic Sys2Proof.Proofs.DelayLine

/-! ### The dot products of FIR_APPLY by index (41_fir_hilbert.md R100, R101) -/

/-- The history met by its window, index by index. -/
theorem zip_firWindow {α : Type} {n wp : Nat} {c2 : List F64} {hist : List α} (hhist : hist.length = n) (hc2 : c2.length = 2 * n)
    (d : α) :
    hist.zip (firWindow n wp c2) = (List.range n).map fun k => (hist.getD k d, c2.getD (n - wp + k) fZero) := by
  apply List.ext_getElem
  · simp [firWindow, hhist, hc2]
    omega
  · intro k h1 h2
    have hk : k < n := by simpa using h2
    rw [List.getElem_zip, List.getElem_map, List.getElem_range, List.getD_eq_getElem _ _ (by omega),
      List.getD_eq_getElem _ _ (by omega)]
    simp [firWindow]

theorem dotCplx_eq {n wp : Nat} {c2 : List F64} {hist : List Cplx} (hhist : hist.length = n) (hc2 : c2.length = 2 * n) :
    dotCplx hist (firWindow n wp c2) = dotC n wp c2 hist := by
  rw [dotCplx, zip_firWindow hhist hc2 czero, List.foldl_map, dotC]

theorem dotReal_eq {n wp : Nat} {c2 hist : List F64} (hhist : hist.length = n) (hc2 : c2.length = 2 * n) :
    dotReal hist (firWindow n wp c2) = dotR n wp c2 hist := by
  rw [dotReal, zip_firWindow hhist hc2 fZero, List.foldl_map, dotR]

theorem hre2_length : hre2.length = 2 * 59 := by simp [hre2, dupTable]

theorem him2_length : him2.length = 2 * 59 := by simp [him2, dupTable]

/-- GAUSS_APPLY on a well-formed filter is the rule's dot product and the filter one sample on. -/
theorem gaussApply_eq {gf : Gauss} (hwf : gf.wf) (z : Cplx) :
    gaussApply gf z = (dotC gf.len gf.wp gf.c2 (gaussNext gf z).hist, gaussNext gf z) := by
  obtain ⟨-, hc2, hhist, -⟩ := hwf
  have hlen : (gf.hist.set gf.wp z).length = gf.len := by rw [List.length_set, hhist]
  rw [gaussApply, firCplx]
  dsimp only
  rw [dotCplx_eq hlen hc2]
  rfl

theorem exec_gaussApply {s : State} {p : Nat} {q : Path} (hp : p < s.lat.P) (hq : s.paths[p]? = some q) (z : Cplx) :
    exec (.gaussApply p z) s = .next { s with
      paths := s.paths.set p { q with gf := (gaussApply q.gf z).2 }, result := .cplx (gaussApply q.gf z).1 } := by
  rw [exec, execGaussApply, onPath_some hp hq]
  rfl

/-- On a path's filter FIR_APPLY is GAUSS_APPLY. -/
theorem exec_firApply_gauss (s : State) (p : Nat) (z : Cplx) : exec (.firApply (.gauss p z)) s = exec (.gaussApply p z) s := rfl

theorem exec_firApply_noise {s : State} (hwf : s.nz.wf) (v : F64) :
    exec (.firApply (.noise v)) s = .next { s with
      nz := { s.nz with hist := s.nz.hist.set s.nz.wp v, wp := if s.nz.wp = 0 then 58 else s.nz.wp - 1 }
      result := .f64 (dotR 59 s.nz.wp hre2 (s.nz.hist.set s.nz.wp v)) } := by
  have hlen : (s.nz.hist.set s.nz.wp v).length = 59 := by rw [List.length_set, hwf.1]
  rw [← dotReal_eq hlen hre2_length]
  rfl

/-- Settles O35: both filters give the dot product by index (`dotCplx_eq`, `dotReal_eq`) and move their pointer down. -/
theorem firApply : Obligations.FirApply := by
  refine ⟨fun s p q z hp hq hwf => ⟨?_, rfl⟩, fun s v hwf => exec_firApply_noise hwf v, fun n wp k hwp hk => by omega⟩
  rw [exec_firApply_gauss, exec_gaussApply hp hq, gaussApply_eq hwf]

/-! ### HILBERT_FILTER_BLOCK (R103) -/

theorem hilAt_wf {h : Hilbert} (hwf : h.wf) (x : List F64) (i : Nat) : (hilAt h x i).wf := by
  induction i with
  | zero => exact hwf
  | succ i ih =>
    obtain ⟨hhist, hwp⟩ := ih
    refine ⟨(List.length_set ..).trans hhist, ?_⟩
    rw [hilAt]
    dsimp only
    split <;> omega

/-- The pointer falls by one a sample, modulo 59. -/
theorem hilAt_wp {h : Hilbert} (hwp : h.wp < 59) (x : List F64) (i : Nat) : (hilAt h x i).wp = (h.wp + 58 * i) % 59 := by
  induction i with
  | zero => exact (Nat.mod_eq_of_lt hwp).symm
  | succ i ih =>
    rw [hilAt, ih]
    dsimp only
    split <;> omega

theorem hilbertSample_eq {h : Hilbert} (hwf : h.wf) {x : List F64} {i : Nat} (hi : i < x.length) :
    hilbertSample hre2 him2 (hilAt h x i) x[i] = (hilOut h x i, hilAt h x (i + 1)) := by
  have hlen : ∀ f : Cplx → F64, ((hilAt h x (i + 1)).hist.map f).length = 59 := fun f => by
    rw [List.length_map]
    exact (hilAt_wf hwf x (i + 1)).1
  rw [hilOut, ← dotReal_eq (hlen _) hre2_length, ← dotReal_eq (hlen _) him2_length, hilAt, List.getD_eq_getElem _ _ hi]
  rfl

theorem hilbertBlock_eq {h : Hilbert} (hwf : h.wf) (x : List F64) :
    hilbertBlock hre2 him2 h x = ((List.range x.length).map (hilOut h x), hilAt h x x.length) := by
  obtain ⟨hend, hout⟩ := scanBlock_eq (f := hilbertSample hre2 him2) (xs := x) (g := hilAt h x) fun i hi => by
    rw [hilbertSample_eq hwf hi]
  refine Prod.ext (List.ext_getElem? fun i => ?_) hend
  by_cases hi : i < x.length
  · rw [hilbertBlock]
    refine (hout i hi).trans ?_
    rw [hilbertSample_eq hwf hi]
    simp [hi]
  · rw [List.getElem?_eq_none (by rw [hilbertBlock_length]; omega), List.getElem?_eq_none (by simpa using hi)]

theorem exec_hilbertFilterBlock_eq {x : List F64} (hx : x.length = 2048) (s : State) :
    exec (.hilbertFilterBlock x) s = .next { s with
      hil := (hilbertBlock hre2 him2 s.hil x).2, result := .block (hilbertBlock hre2 him2 s.hil x).1 } := by
  rw [exec, execHilbertFilterBlock, guarded, if_pos (isBlock_iff.mpr hx)]
  rfl

theorem exec_hilbertFilterBlock {x : List F64} (hx : x.length = 2048) {s : State} (hwf : s.hil.wf) :
    exec (.hilbertFilterBlock x) s = .next { s with
      hil := hilAt s.hil x 2048, result := .block ((List.range 2048).map (hilOut s.hil x)) } := by
  rw [exec_hilbertFilterBlock_eq hx, hilbertBlock_eq hwf, hx]

/-- Settles O36: the scan's states are `hilAt` and its outputs `hilOut`; 2048 steps down modulo 59 are 17 up. -/
theorem hilbertFilterBlock : Obligations.HilbertFilterBlock := by
  intro s x hx hwf
  refine ⟨exec_hilbertFilterBlock hx hwf, ?_⟩
  have hwp := hwf.2
  rw [hilAt_wp hwp]
  omega

/-! ### The impulse response (95_test_vectors.md V-H1) -/

/-- The block 1.0, 0.0, 0.0, ... -/
def impulse : List F64 := fOne :: List.replicate 2047 fZero

theorem impulse_length : impulse.length = 2048 := by
  rw [impulse, List.length_cons, List.length_replicate]

theorem impulse_getD_succ (i : Nat) : impulse.getD (i + 1) fZero = fZero := by
  rw [impulse, List.getD_cons_succ, List.getD_eq_getElem?_getD, List.getElem?_replicate]
  split <;> rfl

/-- The history with the impulse in its last place. -/
def pulseHist : List Cplx := (List.replicate 59 czero).set 58 ⟨fOne, fOne⟩

theorem set_replicate_self {α : Type} (n k : Nat) (a : α) : (List.replicate n a).set k a = List.replicate n a := by
  apply List.ext_getElem
  · rw [List.length_set]
  · intro i _ _
    rw [List.getElem_set, List.getElem_replicate, ite_self]

/-- The impulse stands in the history for 59 samples, until the pointer has come round to it. -/
theorem hilAt_impulse (i : Nat) :
    (hilAt hilbertZero impulse (i + 1)).hist = if i < 59 then pulseHist else List.replicate 59 czero := by
  induction i with
  | zero => rfl
  | succ i ih =>
    have hwp := hilAt_wp (h := hilbertZero) (by decide) impulse (i + 1)
    have hstart : hilbertZero.wp = 58 := rfl
    rw [hstart] at hwp
    have hzero : (⟨fZero, fZero⟩ : Cplx) = czero := rfl
    rw [hilAt]
    dsimp only
    rw [ih, impulse_getD_succ, hwp, hzero]
    by_cases hin : i + 1 < 59
    · have hplace : (58 + 58 * (i + 1)) % 59 = 57 - i := by omega
      rw [if_pos (by omega), if_pos hin, pulseHist, hplace, List.set_comm _ _ (by omega), set_replicate_self]
    · rw [if_neg hin]
      split
      · have hplace : (58 + 58 * (i + 1)) % 59 = 58 := by omega
        rw [pulseHist, hplace, List.set_set, set_replicate_self]
      · exact set_replicate_self _ _ _

/-- +0.0 plus a finite number shows it with −0.0 as +0.0. -/
theorem fadd_fZero_eq_shown {c : F64} (hc : isFinite c = true) : fadd fZero c = shown c := by
  have hzero : fmag fZero = 0 ∧ fsign fZero = false := by decide
  have hneg : fmag 0x8000000000000000#64 = 0 := by decide
  rw [fadd_zero_left hzero.1 hc, hzero.2, Bool.false_and, shown]
  split
  case isTrue hmag =>
    have hc' := ofSignMag_fsign_fmag c
    rw [hmag] at hc'
    cases hs : fsign c with
    | false =>
      rw [hs] at hc'
      rw [← hc']
      decide
    | true =>
      rw [hs] at hc'
      rw [← hc']
      decide
  case isFalse hmag =>
    rw [if_neg]
    rintro rfl
    exact hmag hneg

/-- A zero product adds nothing to +0.0. -/
theorem fadd_fZero_fmul_fZero {c : F64} (hc : isFinite c = true) : fadd fZero (fmul fZero c) = fZero := by
  have hzero : fmag fZero = 0 ∧ fsign fZero = false := by decide
  have hprod : fmag (fmul fZero c) = 0 := fmag_fmul_of_zero hzero.1 hc
  rw [fadd_zero_left hzero.1 (isFinite_of_fmag_zero hprod), if_pos hprod, hzero.2, Bool.false_and]
  decide

/-- The sum over places that hold +0.0 is +0.0. -/
theorem foldl_zero_products {f g : Nat → F64} {ks : List Nat} (hf : ∀ k ∈ ks, f k = fZero)
    (hg : ∀ k ∈ ks, isFinite (g k) = true) : ks.foldl (fun acc k => fadd acc (fmul (f k) (g k))) fZero = fZero := by
  induction ks with
  | nil => rfl
  | cons k ks ih =>
    obtain ⟨hfk, hfks⟩ := List.forall_mem_cons.mp hf
    obtain ⟨hgk, hgks⟩ := List.forall_mem_cons.mp hg
    rw [List.foldl_cons, hfk, fadd_fZero_fmul_fZero hgk, ih hfks hgks]

/-- A duplicated table of 59 finite numbers. -/
def IsTable (c2 : List F64) : Prop := ∃ T : List F64, c2 = dupTable T ∧ T.length = 59 ∧ ∀ v, v ∈ T → isFinite v = true

theorem isFinite_finiteParam (x : Config.Signed) : isFinite (finiteParam x) = true := isFinite_ofSignMag x.2.isLt x.1

theorem isTable_hre2 : IsTable hre2 :=
  ⟨_, rfl, by simp, fun v hv => by obtain ⟨i, rfl⟩ := List.mem_ofFn.mp hv; exact isFinite_finiteParam _⟩

theorem isTable_him2 : IsTable him2 :=
  ⟨_, rfl, by simp, fun v hv => by obtain ⟨i, rfl⟩ := List.mem_ofFn.mp hv; exact isFinite_finiteParam _⟩

theorem IsTable.isFinite_getD {c2 : List F64} (h : IsTable c2) (k : Nat) : isFinite (c2.getD k fZero) = true := by
  obtain ⟨T, rfl, -, hfin⟩ := h
  rw [List.getD_eq_getElem?_getD]
  cases hk : (dupTable T)[k]? with
  | none => decide
  | some v =>
    have hmem := List.mem_of_getElem? hk
    rw [dupTable, List.mem_append, or_self] at hmem
    exact hfin v hmem

theorem IsTable.getD_add {c2 : List F64} (h : IsTable c2) {k : Nat} (hk : k < 59) :
    c2.getD (59 + k) fZero = c2.getD k fZero := by
  obtain ⟨T, rfl, hlen, -⟩ := h
  rw [dupTable, List.getD_append_right _ _ _ _ (by omega), List.getD_append _ _ _ _ (by omega), hlen, Nat.add_sub_cancel_left]

/-- With the impulse in place 58 the sum has one term that is not a zero: the coefficient that place meets. -/
theorem dotR_pulse {c2 : List F64} (h : IsTable c2) {n : Nat} (hn : n < 59) {f : Cplx → F64} (hf : ∀ v, f ⟨v, v⟩ = v) :
    dotR 59 (58 - n) c2 (pulseHist.map f) = shown (c2.getD n fZero) := by
  have hlast : (pulseHist.map f).getD 58 fZero = fOne := by
    rw [pulseHist, List.map_set, List.getD_eq_getElem?_getD, List.getElem?_set_self (by simp), hf]
    rfl
  have hrest : ∀ k ∈ List.range 58, (pulseHist.map f).getD k fZero = fZero := by
    intro k hk
    have hk' := List.mem_range.mp hk
    rw [pulseHist, List.map_set, List.getD_eq_getElem?_getD, List.getElem?_set_ne (by omega), List.map_replicate,
      List.getElem?_replicate_of_lt (by omega)]
    exact hf fZero
  have hplace : 59 - (58 - n) + 58 = 59 + n := by omega
  rw [dotR, List.range_succ, List.foldl_append, foldl_zero_products hrest fun k _ => h.isFinite_getD _, List.foldl_cons,
    List.foldl_nil, hlast, fmul_one_left (h.isFinite_getD _), fadd_fZero_eq_shown (h.isFinite_getD _), hplace, h.getD_add hn]

theorem dotR_zeros {c2 : List F64} (h : IsTable c2) (wp : Nat) {f : Cplx → F64} (hf : ∀ v, f ⟨v, v⟩ = v) :
    dotR 59 wp c2 ((List.replicate 59 czero).map f) = fZero := by
  rw [dotR]
  refine foldl_zero_products (fun k hk => ?_) fun k _ => h.isFinite_getD _
  rw [List.map_replicate, List.getD_eq_getElem?_getD, List.getElem?_replicate_of_lt (List.mem_range.mp hk)]
  exact hf fZero

/-- While the impulse is in the history the outputs are the coefficients, afterwards +0.0. -/
theorem hilOut_impulse (n : Nat) :
    hilOut hilbertZero impulse n =
      if n < 59 then ⟨shown (hre2.getD n fZero), shown (him2.getD n fZero)⟩ else czero := by
  have hwp := hilAt_wp (h := hilbertZero) (by decide) impulse n
  have hstart : hilbertZero.wp = 58 := rfl
  rw [hstart] at hwp
  rw [hilOut, hilAt_impulse]
  by_cases hn : n < 59
  · have hplace : (58 + 58 * n) % 59 = 58 - n := by omega
    rw [if_pos hn, if_pos hn, hwp, hplace, dotR_pulse isTable_hre2 hn fun _ => rfl, dotR_pulse isTable_him2 hn fun _ => rfl]
  · rw [if_neg hn, if_neg hn, dotR_zeros isTable_hre2 _ fun _ => rfl, dotR_zeros isTable_him2 _ fun _ => rfl]
    rfl

/-- Settles O37: the block's outputs are `hilOut`, which `hilOut_impulse` gives for the impulse. -/
theorem hilbertImpulse : Obligations.HilbertImpulse := by
  intro s hs
  have hzero : s.hil = hilbertZero := hs
  have hwf : s.hil.wf := hzero ▸ hilbertZero_wf
  refine ⟨_, exec_hilbertFilterBlock impulse_length hwf, _, rfl, by simp, ?pointer, fun n hn => ?taps, fun n hn hlt => ?after⟩
  case pointer =>
    dsimp only
    rw [hzero, hilAt_wp (by decide)]
    rfl
  case taps =>
    rw [hzero, List.getElem?_map, List.getElem?_range (by omega), Option.map_some]
    exact congrArg some ((hilOut_impulse n).trans (if_pos hn))
  case after =>
    rw [hzero, List.getElem?_map, List.getElem?_range hlt, Option.map_some]
    exact congrArg some ((hilOut_impulse n).trans (if_neg (by omega)))

end Sys2Proof.Proofs.FirHilbert

namespace Sys2Proof.Proofs.Streams
open Sys2Proof Sys2Proof.Machine Sys2Proof.Claims Sys2Proof.Laws

/-! ### Pairs that CNORMAL accepts and rejects (43_gauss_rayleigh.md R124) -/

theorem flat_cons (p : F64 × F64) (ps : List (F64 × F64)) : flat (p :: ps) = p.1 :: p.2 :: flat ps := rfl

theorem flat_append (ps qs : List (F64 × F64)) : flat (ps ++ qs) = flat ps ++ flat qs := List.flatMap_append

theorem not_accepted_of_rejected {p : F64 × F64} (h : rejected p = true) : accepted p = false := by
  rw [rejected, Bool.and_eq_true, Bool.or_eq_true] at h
  obtain ⟨-, h1 | h2⟩ := h
  · simp [accepted, h1]
  · simp [accepted, h2]

theorem cnormal_of_rejected {p : F64 × F64} (h : rejected p = true) (g : F64) (rest : List F64) :
    Machine.cnormal g (p.1 :: p.2 :: rest) = Machine.cnormal g rest := by
  rw [rejected, goodPair, Bool.and_eq_true, Bool.and_eq_true] at h
  obtain ⟨⟨h1, h2⟩, hout⟩ := h
  have hpair : cnormalPair g p.1 p.2 = none := if_pos hout
  rw [cnormal_pair, if_pos h1, if_pos h2, hpair]

theorem cnormal_of_accepted {p : F64 × F64} (h : accepted p = true) (g : F64) (rest : List F64) :
    Machine.cnormal g (p.1 :: p.2 :: rest) = .ok (normal g p) rest := by
  rw [accepted, goodPair, Bool.and_eq_true, Bool.and_eq_true, Bool.and_eq_true, Bool.not_eq_true', Bool.not_eq_true'] at h
  obtain ⟨⟨⟨h1, h2⟩, hge⟩, hzero⟩ := h
  have hin : ¬ (fge (radius2 p) fOne || feq (radius2 p) fZero) = true := by simp [hge, hzero]
  have hpair : cnormalPair g p.1 p.2 = some (normal g p) := if_neg hin
  rw [cnormal_pair, if_pos h1, if_pos h2, hpair]

/-- Rejected pairs are drawn and passed over. -/
theorem cnormal_flat_rejected {bad : List (F64 × F64)} (h : ∀ q, q ∈ bad → rejected q = true) (g : F64) (rest : List F64) :
    Machine.cnormal g (flat bad ++ rest) = Machine.cnormal g rest := by
  induction bad with
  | nil => rfl
  | cons q bad ih =>
    obtain ⟨hq, hbad⟩ := List.forall_mem_cons.mp h
    rw [flat_cons, List.cons_append, List.cons_append, cnormal_of_rejected hq, ih hbad]

/-- Settles O43: rejected pairs are passed over; then an accepted one ends the draw, and less than a pair holds. -/
theorem cnormal : Obligations.Cnormal := by
  intro s g bad hbad
  refine ⟨fun p rest hp hstream => ?accepted, fun last hlen hgood hstream => ?starved⟩
  case accepted =>
    have hrun : Machine.cnormal g (s.drawn ++ s.rng) = .ok (normal g p) rest := by
      rw [hstream, cnormal_flat_rejected hbad, cnormal_of_accepted hp]
    rw [exec, execCnormal, runDraws_ok hrun]
    rfl
  case starved =>
    have hrun : Machine.cnormal g (s.drawn ++ s.rng) = .starved := by
      rw [hstream, cnormal_flat_rejected hbad]
      match last with
      | [] => exact cnormal_nil g
      | [v] => rw [cnormal_single, if_pos (hgood v (List.mem_singleton_self v))]
      | v :: w :: rest => simp at hlen
    rw [exec, execCnormal, runDraws_starved hrun]

/-- The first accepted pair of a stream, and what is left of the stream after it. -/
theorem accepts_cons {ps us : List (F64 × F64)} {u : F64 × F64} (h : accepts ps (u :: us)) :
    ∃ bad ps', ps = bad ++ u :: ps' ∧ (∀ q, q ∈ bad → rejected q = true) ∧ accepted u = true ∧ accepts ps' us := by
  obtain ⟨hall, hfilter, hlast⟩ := h
  induction ps with
  | nil => cases hfilter
  | cons p ps ih =>
    obtain ⟨hp, hps⟩ := List.forall_mem_cons.mp hall
    rcases hp with hp | hp
    · rw [List.filter_cons_of_pos hp] at hfilter
      obtain ⟨rfl, hus⟩ := List.cons.inj hfilter
      refine ⟨[], ps, rfl, nofun, hp, hps, hus, fun q hq => hlast q ?_⟩
      rw [List.getLast?_cons, hq, Option.getD_some]
    · have hskip : accepted p = false := not_accepted_of_rejected hp
      rw [List.filter_cons_of_neg (by simp [hskip])] at hfilter
      obtain ⟨bad, ps', rfl, hbad, hu, hacc⟩ := ih hps hfilter fun q hq => hlast q (by
        rw [List.getLast?_cons, hq, Option.getD_some])
      exact ⟨p :: bad, ps', rfl, List.forall_mem_cons.mpr ⟨hp, hbad⟩, hu, hacc⟩

/-- With no accepted pair there is no pair: the last one would be accepted. -/
theorem accepts_nil {ps : List (F64 × F64)} (h : accepts ps []) : ps = [] := by
  obtain ⟨-, hfilter, hlast⟩ := h
  cases hps : ps.getLast? with
  | none => exact List.getLast?_eq_none_iff.mp hps
  | some p =>
    have hmem : p ∈ ps.filter accepted := List.mem_filter.mpr ⟨List.mem_of_getLast? hps, hlast p hps⟩
    rw [hfilter] at hmem
    cases hmem

/-- CNORMAL on a stream that accepts: it ends on the first accepted pair. -/
theorem cnormal_accepts {ps us : List (F64 × F64)} {u : F64 × F64} (h : accepts ps (u :: us)) :
    ∃ ps', accepts ps' us ∧ ∀ g rest, Machine.cnormal g (flat ps ++ rest) = .ok (normal g u) (flat ps' ++ rest) := by
  obtain ⟨bad, ps', rfl, hbad, hu, hacc⟩ := accepts_cons h
  refine ⟨ps', hacc, fun g rest => ?_⟩
  rw [flat_append, List.append_assoc, cnormal_flat_rejected hbad, flat_cons, List.cons_append, List.cons_append,
    cnormal_of_accepted hu]

/-- A stream with one accepted pair is drawn whole. -/
theorem cnormal_accepts_one {ps : List (F64 × F64)} {u : F64 × F64} (h : accepts ps [u]) (g : F64) (rest : List F64) :
    Machine.cnormal g (flat ps ++ rest) = .ok (normal g u) rest := by
  obtain ⟨ps', hnone, hrun⟩ := cnormal_accepts h
  rw [hrun, accepts_nil hnone]
  rfl

end Sys2Proof.Proofs.Streams

namespace Sys2Proof.Proofs.Fading
open Sys2Proof Sys2Proof.Machine Sys2Proof.Claims Sys2Proof.Laws Sys2Proof.Proofs.Streams Sys2Proof.Proofs.Arithmetic
open Sys2Proof.Proofs.Gaussian Sys2Proof.Proofs.FirHilbert

/-! ### RAYLEIGH_SAMPLE (43_gauss_rayleigh.md R127) -/

theorem rayleighSample_nospread {q : Path} (h : q.nospread = true) (rng : List F64) :
    Machine.rayleighSample q rng = .ok (⟨q.g, fZero⟩, q) rng := if_pos h

theorem rayleighSample_spread {q : Path} (h : q.nospread = false) (rng : List F64) :
    Machine.rayleighSample q rng = (Machine.cnormal q.g rng).bind fun v rest =>
      .ok ((gaussApply q.gf v).1, { q with gf := gaussNext q.gf v }) rest := by
  rw [Machine.rayleighSample, h, if_neg Bool.false_ne_true]
  rfl

theorem exec_rayleighSample {s : State} {p : Nat} {q q' : Path} {z : Cplx} {rest : List F64} (hp : p < s.lat.P)
    (hq : s.paths[p]? = some q) (hrun : Machine.rayleighSample q (s.drawn ++ s.rng) = .ok (z, q') rest) :
    exec (.rayleighSample p) s = .next { s with
      paths := s.paths.set p q', result := .cplx z, drawn := [], holding := false, rng := rest } := by
  rw [exec, execRayleighSample, onPath_some hp hq, runDraws_ok hrun]
  rfl

/-- Settles O46: the constant gain draws nothing; else the accepted pair's value goes through the filter. -/
theorem rayleighSample : Obligations.RayleighSample := by
  intro s p q hp hq
  refine ⟨fun hns => exec_rayleighSample hp hq (rayleighSample_nospread hns _), fun ps u rest hns hwf hacc hstream => ?_⟩
  refine exec_rayleighSample hp hq ?_
  rw [rayleighSample_spread hns, hstream, cnormal_accepts_one hacc, bind_ok, gaussApply_eq hwf]

/-! ### RAYLEIGH_INIT (R125) -/

theorem exec_rayleighInit {s : State} {p : Nat} {q q' : Path} {spread gc : F64} {rest : List F64}
    (hfin : isFinite spread = true) (hp : p < s.lat.P) (hq : s.paths[p]? = some q)
    (hrun : rayleighInit q spread gc (s.drawn ++ s.rng) = .ok q' rest) :
    exec (.rayleighInit p spread gc) s = .next { s with
      paths := s.paths.set p q', drawn := [], holding := false, rng := rest } := by
  rw [exec, execRayleighInit, guarded, if_pos hfin, onPath_some hp hq, runDraws_ok hrun]
  rfl

/-- A spread below 0.1 stays below it when a negative one is raised to +0.0. -/
theorem flt_clampSpread_of_flt {spread : F64} (h : flt spread f0p1 = true) : flt (clampSpread spread) f0p1 = true := by
  have hlit : isNaN f0p1 = false ∧ isNaN f30 = false ∧ fkey f0p1 ≤ fkey f30 ∧ flt fZero f0p1 = true ∧ fgt fZero f30 = false := by
    decide
  obtain ⟨h01, h30, hkey, hzero, hzero30⟩ := hlit
  have hnan : isNaN spread = false := by
    rw [flt, Bool.and_eq_true, Bool.and_eq_true, Bool.not_eq_true'] at h
    exact h.1.1
  rw [clampSpread]
  by_cases hneg : flt spread fZero = true
  · rw [if_pos hneg, if_neg (by simp [hzero30]), hzero]
  · have hsmall : ¬ fgt spread f30 = true := by
      rw [fgt, flt_iff h30 hnan]
      rw [flt_iff hnan h01] at h
      omega
    rw [if_neg hneg, if_neg hsmall, h]

theorem rayleighInit_nospread {spread : F64} (h : flt spread f0p1 = true) (q : Path) (gc : F64) (rng : List F64) :
    rayleighInit q spread gc rng = .ok { q with nospread := true, g := gc } rng := by
  rw [rayleighInit, rayleighConfigure, if_pos (flt_clampSpread_of_flt h)]
  rfl

/-- Settles O44: below 0.1 the path is configured and not pre-rolled. -/
theorem rayleighInitWithoutSpread : Obligations.RayleighInitWithoutSpread :=
  fun _ _ q _ gc hfin hlow hp hq => exec_rayleighInit hfin hp hq (rayleighInit_nospread hlow q gc _)

/-- A spread from 0.1 on is cut at 30.0 and no more. -/
theorem clampSpread_of_fle {spread : F64} (h : fle f0p1 spread = true) :
    clampSpread spread = (if fgt spread f30 then f30 else spread) ∧ flt (clampSpread spread) f0p1 = false := by
  have hlit : isNaN f0p1 = false ∧ isNaN fZero = false ∧ 0 < fkey f0p1 ∧ fkey fZero = 0 ∧ flt f30 f0p1 = false := by decide
  obtain ⟨h01, hzero, hkey, hkey0, h30⟩ := hlit
  have hnan := (not_nan_of_fle h).2
  have hkeys := (fle_iff h01 hnan).mp h
  have hneg : ¬ flt spread fZero = true := by
    rw [flt_iff hnan hzero]
    omega
  have hclamp : clampSpread spread = if fgt spread f30 then f30 else spread := by
    rw [clampSpread, if_neg hneg]
  refine ⟨hclamp, ?_⟩
  rw [hclamp]
  split
  · exact h30
  · rw [← Bool.not_eq_true, flt_iff hnan h01]
    omega

/-- The gain of R125 for a rate fs and a clamped spread c. -/
def spreadGain (gc fs c : F64) : F64 := fmul gc (fsqrt (fdiv fs (fmul (fmul fFour c) fKEnb)))

/-- A path in spread mode, as RAYLEIGH_INIT configures it, with the filter after the pre-roll values zs. -/
def spreadPath (q : Path) (c gc : F64) (zs : List Cplx) : Path :=
  { q with
    nospread := false, fsG := (rateOf c).1, s0 := (rateOf c).2, g := spreadGain gc (rateOf c).1 c
    gf := zs.foldl gaussNext (gaussInit (rateOf c).1 c) }

theorem rayleighConfigure_spread {spread : F64} (h : flt (clampSpread spread) f0p1 = false) (q : Path) (gc : F64) :
    rayleighConfigure q spread gc = spreadPath q (clampSpread spread) gc [] := by
  rw [rayleighConfigure, h, if_neg Bool.false_ne_true]
  rfl

/-- The pre-roll moves the filter by the values of the accepted pairs. -/
theorem discardSamples_accepts {us ps : List (F64 × F64)} (hacc : accepts ps us) {q : Path} (hq : q.nospread = false)
    (rest : List F64) :
    discardSamples us.length q (flat ps ++ rest) =
      .ok { q with gf := (us.map (normal q.g)).foldl gaussNext q.gf } rest := by
  induction us generalizing ps q with
  | nil =>
    rw [accepts_nil hacc]
    rfl
  | cons u us ih =>
    obtain ⟨ps', hacc', hrun⟩ := cnormal_accepts hacc
    rw [List.length_cons, discardSamples, rayleighSample_spread hq, hrun, bind_ok, bind_ok]
    exact ih hacc' hq

theorem rayleighInit_spread {spread : F64} (h : flt (clampSpread spread) f0p1 = false) {ps us : List (F64 × F64)}
    (hacc : accepts ps us) (hlen : us.length = 250) (q : Path) (gc : F64) (rest : List F64) :
    rayleighInit q spread gc (flat ps ++ rest) =
      .ok (spreadPath q (clampSpread spread) gc
        (us.map (normal (spreadGain gc (rateOf (clampSpread spread)).1 (clampSpread spread))))) rest := by
  have hroll := discardSamples_accepts hacc (q := spreadPath q (clampSpread spread) gc []) rfl rest
  rw [hlen] at hroll
  rw [rayleighInit, rayleighConfigure_spread h]
  exact hroll

theorem exists_rayleighInit_spread {spread : F64} (h : flt (clampSpread spread) f0p1 = false) {ps us : List (F64 × F64)}
    (hacc : accepts ps us) (hlen : us.length = 250) (q : Path) (gc : F64) (rest : List F64) :
    ∃ q', rayleighInit q spread gc (flat ps ++ rest) = .ok q' rest ∧ q'.nospread = false ∧ q'.ups = q.ups :=
  ⟨_, rayleighInit_spread h hacc hlen q gc rest, rfl, rfl⟩

/-- Samples leave a filter's length and its history's, and move the pointer down, modulo the length. -/
theorem foldl_gaussNext {zs : List Cplx} {f : Gauss} (hwp : f.wp < f.len) :
    (zs.foldl gaussNext f).len = f.len ∧ (zs.foldl gaussNext f).hist.length = f.hist.length ∧
      (zs.foldl gaussNext f).wp < f.len ∧ ((zs.foldl gaussNext f).wp + zs.length) % f.len = f.wp := by
  induction zs generalizing f with
  | nil => exact ⟨rfl, rfl, hwp, Nat.mod_eq_of_lt hwp⟩
  | cons z zs ih =>
    have hnext : (gaussNext f z).wp < f.len ∧ ((gaussNext f z).wp + 1) % f.len = f.wp := by
      rw [gaussNext]
      dsimp only
      split
      case isTrue h0 =>
        rw [h0, Nat.sub_add_cancel (by omega)]
        exact ⟨by omega, Nat.mod_self _⟩
      case isFalse h0 =>
        rw [Nat.sub_add_cancel (by omega)]
        exact ⟨by omega, Nat.mod_eq_of_lt hwp⟩
    obtain ⟨hlen, hhist, hlt, hmod⟩ := ih (f := gaussNext f z) hnext.1
    refine ⟨hlen, hhist.trans List.length_set, hlt, ?_⟩
    have hstep : ((zs.foldl gaussNext (gaussNext f z)).wp + zs.length) % f.len = (gaussNext f z).wp := hmod
    rw [List.foldl_cons, List.length_cons, ← Nat.add_assoc, Nat.add_mod, hstep, ← Nat.mod_eq_of_lt hnext.1, ← Nat.add_mod,
      hnext.2]

/-- Settles O45: `rayleighInit_spread` gives the path; its rate is the table's row and its filter GAUSS_INIT's, 250 samples on. -/
theorem rayleighInitWithSpread : Obligations.RayleighInitWithSpread := by
  intro s p q spread c gc ps us rest hfin hge hc hp hq hacc hlen hstream
  obtain ⟨hclamp, hhigh⟩ := clampSpread_of_fle hge
  have hcut : clampSpread spread = c := hclamp.trans hc.symm
  have hrun := rayleighInit_spread hhigh hacc hlen q gc rest
  have hdom := gaussDomain_clamp hfin hhigh
  rw [← hstream] at hrun
  rw [hcut] at hrun hdom
  have hnan : isNaN c = false := by
    rw [gaussDomain, Bool.and_eq_true, Bool.and_eq_true] at hdom
    exact (not_nan_of_fle hdom.1.2).1
  obtain ⟨-, -, hhist, hwp⟩ := gaussInit_wf hdom
  obtain ⟨hflen, hfhist, -, hfwp⟩ := foldl_gaussNext (zs := us.map (normal (spreadGain gc (rateOf c).1 c))) hwp
  rw [List.length_map, hlen] at hfwp
  refine ⟨_, exec_rayleighInit hfin hp hq hrun, rfl, fun h => ?slow, fun h1 h2 => ?middle, fun h => ?fast, rfl, hdom, rfl,
    hflen, ?hist, ?pointer⟩
  case slow => exact ⟨congrArg Prod.fst (rateOf_slow h), congrArg Prod.snd (rateOf_slow h)⟩
  case middle => exact ⟨congrArg Prod.fst (rateOf_middle h1 h2), congrArg Prod.snd (rateOf_middle h1 h2)⟩
  case fast => exact ⟨congrArg Prod.fst (rateOf_fast h hnan), congrArg Prod.snd (rateOf_fast h hnan)⟩
  case hist => exact hfhist.trans (hhist.trans hflen.symm)
  case pointer =>
    change ((List.foldl gaussNext _ _).wp + 250) % (List.foldl gaussNext _ _).len = (List.foldl gaussNext _ _).len - 1
    rw [hflen, hfwp]
    rfl

/-! ### PATH_INIT (44_upsampler_path.md R150) -/

theorem exec_pathInit {s : State} {p : Nat} {q q' : Path} {rest : List F64} (hp : p < s.lat.P) (hq : s.paths[p]? = some q)
    (hrun : pathInit s.lat.P (s.lat.spreadOf p) (s.lat.offsetOf p) q (s.drawn ++ s.rng) = .ok q' rest) :
    exec (.pathInit p) s = .next { s with paths := s.paths.set p q', drawn := [], holding := false, rng := rest } := by
  rw [exec, execPathInit, onPath_some hp hq, runDraws_ok hrun]
  rfl

theorem pathInit_nospread {spread : F64} (h : flt spread f0p1 = true) (P : Nat) (offset : F64) (q : Path) (rng : List F64) :
    pathInit P spread offset q rng = .ok (freshPath P offset q) rng := by
  rw [Machine.pathInit, rayleighInit_nospread h]
  rfl

/-- PATH_INIT is RAYLEIGH_INIT on the path with four fresh stages, then the phase and the counter. -/
theorem pathInit_of_rayleighInit {P : Nat} {spread offset : F64} {q q' : Path} {rng rest : List F64}
    (h : rayleighInit { q with ups := freshStages } spread (equalPower P) rng = .ok q' rest) :
    pathInit P spread offset q rng = .ok { q' with
      theta := fZero, dtheta := fdiv (fmul (fmul fTwo fPi) offset) f8000, mIndex := 0 } rest := by
  have hstages : stageRates.map upsInit = freshStages := rfl
  have hgain : gainCoeff P = equalPower P := rfl
  rw [Machine.pathInit, hstages, hgain, h]
  rfl

/-- Settles O48: below 0.1 nothing is drawn; from 0.1 on RAYLEIGH_INIT completes by `rayleighInit_spread`, on the same draws. -/
theorem pathInit : Obligations.PathInit := by
  intro s p q hp hq
  refine ⟨fun hlow => exec_pathInit hp hq (pathInit_nospread hlow _ _ _ _), ?_⟩
  intro spread ps us rest hspread hfin hge hacc hlen hstream
  obtain ⟨q', hrun, hmode, hstages⟩ := exists_rayleighInit_spread (clampSpread_of_fle hge).2 hacc hlen
    { q with ups := freshStages } (equalPower s.lat.P) rest
  rw [← hstream] at hrun
  obtain ⟨hin, -⟩ := List.getElem?_eq_some_iff.mp hq
  subst hspread
  refine ⟨q', ?_, hmode, hstages, exec_pathInit hp hq (pathInit_of_rayleighInit hrun)⟩
  rw [exec_rayleighInit (s := { s with paths := s.paths.set p { q with ups := freshStages } }) hfin hp
    (List.getElem?_set_self hin) hrun, List.set_set]

end Sys2Proof.Proofs.Fading

namespace Sys2Proof.Proofs.Invariant
open Sys2Proof Sys2Proof.Machine Sys2Proof.Laws Sys2Proof.Proofs.ChannelCommands Sys2Proof.Proofs.Frames

/-! ### Whole words of SAMPLE_BUF (20_memory.md R62, R64) -/

theorem wholeWords_nil : Memory.wholeWords [] := nofun

theorem sampleValid_writeWord_same (m : Memory) (i : Nat) (v : Word) : sampleValid (writeWord m (sampleOff i) v) i = true := by
  rw [sampleValid, readWord_writeWord_same]
  rfl

theorem sampleValid_writeWord {m : Memory} {j : Nat} (h : sampleValid m j = true) (i : Nat) (v : Word) :
    sampleValid (writeWord m (sampleOff i) v) j = true := by
  by_cases hij : j = i
  · subst hij
    exact sampleValid_writeWord_same m j v
  · rw [sampleValid, readWord_writeWord_other _ _ _ _ (by simp only [sampleOff]; omega)]
    exact h

/-- A word written at a sample is whole, and the others stay so. -/
theorem wholeWords_writeWord {m : Memory} (h : Memory.wholeWords m) {i : Nat} (hi : i < blockLen) (v : Word) :
    Memory.wholeWords (writeWord m (sampleOff i) v) := by
  intro a b hread
  rw [readByte_writeWord] at hread
  by_cases hin : sampleOff i ≤ a ∧ a < sampleOff i + 8
  · exact ⟨i, hi, hin.1, hin.2, sampleValid_writeWord_same m i v⟩
  · rw [if_neg hin] at hread
    obtain ⟨j, hj, hlow, hhigh, hvalid⟩ := h a b hread
    exact ⟨j, hj, hlow, hhigh, sampleValid_writeWord hvalid i v⟩

theorem wholeWords_writeBlockFrom {y : List F64} {m : Memory} (h : Memory.wholeWords m) {i : Nat}
    (hi : i + y.length ≤ blockLen) : Memory.wholeWords (writeBlockFrom m i y) := by
  induction y generalizing m i with
  | nil => exact h
  | cons v y ih =>
    rw [List.length_cons] at hi
    exact ih (wholeWords_writeWord h (by omega) v) (by omega)

theorem sample_of_decodeOffset {off : Offset} {i : Nat} (h : decodeOffset off = some (.sample i)) : i < blockLen := by
  have hpath : ∀ o, decodePathOffset o ≠ some (.sample i) := by
    intro o
    simp only [decodePathOffset]
    split_ifs <;> nofun
  simp only [decodeOffset] at h
  split_ifs at h
  iterate 8 cases h
  · exact absurd h (hpath _)
  · cases h
    rw [blockLen]
    omega

/-! ### The latch (46_channel_commands.md R180, R181) -/

/-- Validation passes only registers whose latched values are valid. -/
theorem valid_latchConfig {s : State} (h : initValidate s = .ok) : (latchConfig s).valid := by
  simp only [initValidate] at h
  split_ifs at h with _ hfin hdelay
  have hreg : ∀ r ∈ s.pathRegs.take s.numPaths.toNat,
      isFinite r.delayMs = true ∧ isFinite r.spreadHz = true ∧ isFinite r.offsetHz = true ∧
        flt r.delayMs fZero = false ∧ fgt r.delayMs f50 = false := by
    intro r hr
    simp only [Bool.or_eq_true, List.any_eq_true, not_or, not_exists, not_and] at hfin hdelay
    have h1 := hfin.1 r hr
    have h2 := hdelay r hr
    simp_all
  refine ⟨fun d hd => ?_, fun v hv => ?_, fun v hv => ?_⟩
  · obtain ⟨r, hr, rfl⟩ := List.mem_map.mp hd
    obtain ⟨h1, -, -, h2, h3⟩ := hreg r hr
    simp [delayInRange, h1, h2, h3]
  · obtain ⟨r, hr, rfl⟩ := List.mem_map.mp hv
    exact (hreg r hr).2.1
  · obtain ⟨r, hr, rfl⟩ := List.mem_map.mp hv
    exact (hreg r hr).2.2.1

theorem wf_latchConfig {s : State} (hlen : s.pathRegs.length = 32) (h : initValidate s = .ok) : (latchConfig s).wf := by
  have hP := numPaths_le_of_initValidate h
  have hmax : maxPaths ≤ 32 := Config.maxPathsPred.isLt
  have htake : (s.pathRegs.take s.numPaths.toNat).length = s.numPaths.toNat := by
    rw [List.length_take]
    omega
  exact ⟨hP, rfl, rfl, (List.length_map _).trans htake, (List.length_map _).trans htake, (List.length_map _).trans htake⟩

/-! ### Reset (10_state.md R50) -/

theorem maxPaths_pos : 0 < maxPaths := Nat.succ_pos _

theorem reset_wf : Path.reset.wf := by
  have hstage : ∀ rate, Ups.wf rate ⟨rate, List.replicate 10 czero, 0⟩ := fun _ => ⟨rfl, rfl, show 0 < 50 by decide⟩
  exact ⟨⟨by decide, rfl, rfl, by decide⟩, by decide, by decide,
    .cons (hstage 625) (.cons (hstage 125) (.cons (hstage 25) (.cons (hstage 5) .nil)))⟩

/-- The reset state with other ports and with good values waiting. -/
theorem inv_reset_with (bus : List BusAccess) (resp : List Response) {rng : List F64} (turns : List Turn) (epoch : Nat)
    (hrng : ∀ v ∈ rng, rngGood v = true) :
    State.Inv { State.reset with bus := bus, resp := resp, rng := rng, turns := turns, epoch := epoch } where
  units := by
    refine ⟨⟨List.length_replicate, show 0 < 59 by decide⟩,
      ⟨List.length_replicate, show 0 < delayLen by decide, nofun, maxPaths_pos⟩, List.length_replicate, fun q hq => ?_,
      ⟨List.length_replicate, show 0 < 59 by decide⟩, Nat.zero_le _, rfl, rfl, rfl, rfl, rfl⟩
    rw [List.eq_of_mem_replicate hq]
    exact reset_wf
  valid := ⟨nofun, nofun, nofun⟩
  regs := ⟨show 0#64 &&& 0x1#64 = 0#64 by decide, List.length_replicate, rfl, wholeWords_nil⟩
  busy := ⟨nofun, fun h => absurd rfl h⟩
  run := rfl
  shown := nofun
  hold := nofun
  rng := hrng

/-- Settles O10: it is the reset state with empty ports. -/
theorem resetIsWellFormed : Obligations.ResetIsWellFormed := inv_reset_with [] [] [] 0 nofun

/-! ### The links between STATUS, the sequencer and the work (R35, R36) -/

theorem runWf_of_idle {s : State} (h : s.seq = .idle) (hfin : s.finished = none) : s.runWf := by rwa [State.runWf, h]

theorem finished_of_idle {s : State} (h : s.runWf) (hidle : s.seq = .idle) : s.finished = none := by
  rwa [State.runWf, hidle] at h

theorem rngWf_of_suffix {s : State} (h : s.rngWf) {rest : List F64} (hsuf : rest <:+ s.drawn ++ s.rng) :
    ∀ v ∈ [] ++ rest, rngGood v = true := fun v hv => h v (hsuf.mem hv)

/-- Changes to the ports and to the returned value break nothing. -/
theorem inv_ports {s : State} (h : s.Inv) (bus : List BusAccess) (resp : List Response) (turns : List Turn) :
    State.Inv { s with bus := bus, resp := resp, turns := turns } :=
  ⟨h.units, h.valid, h.regs, h.busy, h.run, h.shown, h.hold, h.rng⟩

/-- Writes to the register file keep it if its own bounds are kept. -/
theorem inv_registers {s : State} (h : s.Inv) (np nc : Word) (snr : F64) (regs : List PathRegs) (mem : Memory)
    (hregs : State.regsWf { s with numPaths := np, noiseCtrl := nc, snr := snr, pathRegs := regs, mem := mem }) :
    State.Inv { s with numPaths := np, noiseCtrl := nc, snr := snr, pathRegs := regs, mem := mem } :=
  ⟨h.units, h.valid, hregs, h.busy, h.run, h.shown, h.hold, h.rng⟩

/-- A command dropped sets CMD_DROPPED alone. -/
theorem inv_dropped {s : State} (h : s.Inv) (d : Bool) : State.Inv { s with status := { s.status with cmdDropped := d } } :=
  ⟨h.units, h.valid, h.regs, h.busy, h.run, h.shown, h.hold, h.rng⟩

/-- A command taken that starts nothing writes ERR_CODE, and may clear CONFIGURED. -/
theorem inv_ended {s : State} (h : s.Inv) (hidle : s.seq = .idle) (e : ErrCode) {c : Bool} (d : Bool)
    (hc : c = true → s.status.configured = true) :
    State.Inv { s with status := { s.status with errCode := e, configured := c, cmdDropped := d } } where
  units := h.units
  valid := h.valid
  regs := h.regs
  busy := h.busy
  run := runWf_of_idle hidle (finished_of_idle (s := s) h.run hidle)
  shown := fun hconf hseq => h.shown (hc hconf) hseq
  hold := h.hold
  rng := h.rng

theorem inv_startsInit {s : State} (h : s.Inv) (hval : initValidate s = .ok) :
    State.Inv { s with
      status := { s.status with errCode := .ok, busy := true, cmdDropped := false }
      seq := .run .init, lat := latchConfig s, drawn := [], holding := false, finished := none } where
  units := by
    obtain ⟨hhil, hdl, hlen, hpaths, hnz, -⟩ := h.units
    exact ⟨hhil, hdl, hlen, hpaths, hnz, wf_latchConfig h.regs.2.1 hval⟩
  valid := valid_latchConfig hval
  regs := h.regs
  busy := ⟨nofun, fun _ => rfl⟩
  run := .inl rfl
  shown := fun _ hseq => absurd rfl hseq
  hold := nofun
  rng := rngWf_of_suffix h.rng (List.suffix_append _ _)

theorem inv_startsProcessBlock {s : State} (h : s.Inv) (hidle : s.seq = .idle) (hconf : s.status.configured = true) :
    State.Inv { s with
      status := { s.status with errCode := .ok, busy := true, cmdDropped := false }
      seq := .run .processBlock, drawn := [], holding := false, finished := none } where
  units := h.units
  valid := h.valid
  regs := h.regs
  busy := ⟨nofun, fun _ => rfl⟩
  run := hconf
  shown := fun _ _ => h.shown hconf (by rw [hidle]; nofun)
  hold := nofun
  rng := rngWf_of_suffix h.rng (List.suffix_append _ _)

/-- ISSUE, whatever the word. -/
theorem inv_issue {s t : State} {w : Word} (h : s.Inv) (ht : execIssue w s = .next t) : t.Inv := by
  rcases issue_cases _ _ _ ht with
    ⟨-, rfl⟩ | ⟨hidle, rfl | rfl | ⟨rfl, -⟩ | rfl | ⟨hval, rfl⟩ | ⟨hconf, rfl⟩⟩
  · exact inv_dropped h true
  · exact inv_ended h hidle .ok false id
  · exact inv_ended h hidle .illegalCmd false id
  · exact inv_ended h hidle .notConfigured false id
  · exact inv_ended h hidle _ false nofun
  · exact inv_startsInit h hval
  · exact inv_startsProcessBlock h hidle hconf

/-! ### The bus (46_channel_commands.md R190, R191) -/

theorem inv_busRead {s t : State} {off : Offset} {w : Nat} (h : s.Inv) (ht : execBusRead off w s = .next t) : t.Inv := by
  rcases read_cases _ _ _ _ ht with ⟨r, rfl⟩ | rfl
  · exact inv_ports h _ _ _
  · exact inv_ports h _ _ _

theorem inv_busWrite {s t : State} {off : Offset} {w : Nat} {v : Word} (h : s.Inv) (ht : execBusWrite off w v s = .next t) :
    t.Inv := by
  obtain ⟨hctrl, hlen, hmem, hwhole⟩ := h.regs
  rcases write_cases _ _ _ _ _ ht with ⟨r, hi⟩ | ⟨r, rfl⟩ | rfl | rfl | rfl | rfl | ⟨p, f, rfl⟩ | ⟨i, hi, rfl⟩
  · exact inv_issue (inv_ports h s.bus _ s.turns) hi
  · exact inv_ports h _ _ _
  · exact inv_ports h _ _ _
  · have hbit : (v &&& 0x1#64) &&& 0x1#64 = v &&& 0x1#64 := by rw [BitVec.and_assoc, BitVec.and_self]
    exact inv_ports (inv_registers h s.numPaths (v &&& 0x1#64) s.snr s.pathRegs s.mem ⟨hbit, hlen, hmem, hwhole⟩) s.bus _ s.turns
  · exact inv_ports (inv_registers h v s.noiseCtrl s.snr s.pathRegs s.mem h.regs) s.bus _ s.turns
  · exact inv_ports (inv_registers h s.numPaths s.noiseCtrl v s.pathRegs s.mem h.regs) s.bus _ s.turns
  · exact inv_ports (inv_registers h s.numPaths s.noiseCtrl s.snr (s.setPathReg p f).pathRegs s.mem ⟨hctrl, List.length_set.trans hlen, hmem, hwhole⟩) s.bus _ s.turns
  · exact inv_ports (inv_registers h s.numPaths s.noiseCtrl s.snr s.pathRegs (writeWord s.mem (sampleOff i) v)
      ⟨hctrl, hlen, writeWord_wf _ _ _ hmem, wholeWords_writeWord hwhole (sample_of_decodeOffset hi) v⟩) s.bus _ s.turns

/-! ### The works and their completion (R181, R182, R196) -/

/-- A work that waits at RngDraw has drawn every value that was waiting. -/
theorem inv_held {s : State} (h : s.Inv) (hrun : s.seq ≠ .idle) (hfin : s.finished = none) :
    State.Inv { s with drawn := s.drawn ++ s.rng, holding := true, rng := [] } where
  units := h.units
  valid := h.valid
  regs := h.regs
  busy := h.busy
  run := h.run
  shown := h.shown
  hold := fun _ => ⟨rfl, hrun, hfin⟩
  rng := fun v hv => h.rng v (by rwa [List.append_nil] at hv)

theorem inv_chanInit {s t : State} (h : s.Inv) (hseq : s.seq = .run .init) (hfin : s.finished = none)
    (ht : execChanInit s = .next t) : t.Inv := by
  rw [execChanInit] at ht
  rcases runDraws_next ht with ⟨⟨hil, dl, qs⟩, rest, hok, rfl⟩ | ⟨-, rfl⟩
  case inl =>
    obtain ⟨hsuf, hhil, hdl, hlen, hpaths⟩ := chanInitWork_spec hok h.units h.valid
    exact {
      units := ⟨hhil, hdl, hlen, hpaths, noiseInit_wf true, h.units.2.2.2.2.2⟩
      valid := h.valid, regs := h.regs, busy := h.busy
      run := by rw [State.runWf, hseq]; exact .inr rfl
      shown := h.shown, hold := nofun, rng := rngWf_of_suffix h.rng hsuf }
  case inr => exact inv_held h (by rw [hseq]; nofun) hfin

theorem configured_of_processing {s : State} (h : s.runWf) (hseq : s.seq = .run .processBlock) (hfin : s.finished = none) :
    s.status.configured = true := by
  rwa [State.runWf, hseq, hfin] at h

theorem inv_chanProcess {s t : State} (h : s.Inv) (hseq : s.seq = .run .processBlock) (hfin : s.finished = none)
    (ht : execChanProcess s = .next t) : t.Inv := by
  have hconf := configured_of_processing h.run hseq hfin
  rw [execChanProcess] at ht
  rcases runDraws_next ht with ⟨o, rest, hok, rfl⟩ | ⟨-, rfl⟩
  case inl =>
    obtain ⟨hsuf, hhil, hdl, hlen, hpaths, hnz, hy⟩ := chanProcessWork_spec hok h.units
    exact {
      units := ⟨hhil, hdl, hlen, hpaths, hnz, h.units.2.2.2.2.2⟩
      valid := h.valid, regs := h.regs, busy := h.busy
      run := by rw [State.runWf, hseq]; exact ⟨hconf, hy⟩
      shown := h.shown, hold := nofun, rng := rngWf_of_suffix h.rng hsuf }
  case inr => exact inv_held h (by rw [hseq]; nofun) hfin

theorem inv_complete {s t : State} (h : s.Inv) (ht : execComplete s = .next t) : t.Inv := by
  rcases complete_cases _ _ ht with ⟨hseq, hfin, rfl⟩ | ⟨y, n, hseq, hfin, rfl⟩ | rfl
  case inl =>
    have hhold : s.holding ≠ true := fun hh => by simpa [hfin] using (h.hold hh).2.2
    exact {
      units := h.units, valid := h.valid, regs := h.regs
      busy := ⟨nofun, fun hne => absurd rfl hne⟩
      run := rfl, shown := fun _ _ => ⟨rfl, rfl, rfl⟩
      hold := fun hh => absurd hh hhold, rng := h.rng }
  case inr.inl =>
    have hhold : s.holding ≠ true := fun hh => by simpa [hfin] using (h.hold hh).2.2
    obtain ⟨hctrl, hlen, hmem, hwhole⟩ := h.regs
    obtain ⟨hconf, hy⟩ : s.status.configured = true ∧ y.length = blockLen := by
      have hrun := h.run
      rwa [State.runWf, hseq, hfin] at hrun
    exact {
      units := h.units, valid := h.valid
      regs := ⟨hctrl, hlen, writeBlock_wf _ _ hmem, wholeWords_writeBlockFrom hwhole (by omega)⟩
      busy := ⟨nofun, fun hne => absurd rfl hne⟩
      run := rfl, shown := fun _ _ => h.shown hconf (by rw [hseq]; nofun)
      hold := fun hh => absurd hh hhold, rng := h.rng }
  case inr.inr => exact h

/-! ### One step -/

theorem inv_supplied {s : State} (h : s.Inv) {v : F64} (hv : rngGood v = true) :
    State.Inv { s with rng := s.rng ++ [v], holding := false } where
  units := h.units
  valid := h.valid
  regs := h.regs
  busy := h.busy
  run := h.run
  shown := h.shown
  hold := nofun
  rng := by
    intro x hx
    rw [← List.append_assoc] at hx
    rcases List.mem_append.mp hx with hx | hx
    · exact h.rng x hx
    · rw [List.mem_singleton.mp hx]
      exact hv

theorem inv_drew {s t : State} (h : s.Inv) (ht : drawTurn s = .next t) : t.Inv := by
  rcases drawTurn_next ht with rfl | ⟨hrun, hfin, ⟨hnone, rfl⟩ | ⟨v, rest, hrng, -, rfl⟩⟩
  · exact h
  · exact ⟨h.units, h.valid, h.regs, h.busy, h.run, h.shown, fun _ => ⟨hnone, hrun, hfin⟩, h.rng⟩
  · refine ⟨h.units, h.valid, h.regs, h.busy, h.run, h.shown, nofun, fun x hx => h.rng x ?_⟩
    rwa [hrng, List.append_cons]

/-- Settles O11: by `step_next` a step is an instruction the sequencer or the host runs, a draw, a supply, a reset or a wait. -/
theorem stepKeepsWellFormed : Obligations.StepKeepsWellFormed := by
  intro s t h ht
  obtain ⟨hwait, hsupply, hdraw, hreset⟩ := fetch_other (s := s)
  rcases step_next ht with ⟨i, u, hf, hx⟩ | ⟨v, u, hf, hv, rfl⟩ | ⟨u, hf, rfl⟩ | hf | ⟨u, hf, hd⟩
  case inl =>
    obtain ⟨b, ts, rfl⟩ := fetch_run_state hf
    have hu := inv_ports h b s.resp ts
    rcases fetch_run hf with rfl | rfl | rfl | ⟨off, w, rfl⟩ | ⟨off, w, v, rfl⟩
    · obtain ⟨hseq, hfin⟩ := fetch_chanInit hf
      exact inv_chanInit hu hseq hfin hx
    · obtain ⟨hseq, hfin⟩ := fetch_chanProcess hf
      exact inv_chanProcess hu hseq hfin hx
    · exact inv_complete hu hx
    · exact inv_busRead hu hx
    · exact inv_busWrite hu hx
  case inr.inl =>
    obtain ⟨ts, rfl⟩ := hsupply _ _ hf
    exact inv_supplied (inv_ports h s.bus s.resp ts) hv
  case inr.inr.inl =>
    obtain ⟨ts, -, rfl⟩ := hreset _ hf
    exact inv_reset_with _ _ _ _ fun v hv => h.rng v (List.mem_append_right _ hv)
  case inr.inr.inr.inl =>
    obtain ⟨ts, rfl⟩ := hwait _ hf
    exact inv_ports h s.bus s.resp ts
  case inr.inr.inr.inr =>
    obtain ⟨ts, rfl⟩ := hdraw _ hf
    exact inv_drew (inv_ports h s.bus s.resp ts) hd

end Sys2Proof.Proofs.Invariant

namespace Sys2Proof.Proofs.PathUnit
open Sys2Proof Sys2Proof.Machine Sys2Proof.Claims Sys2Proof.Laws

/-! ### The up-sampler stages (44_upsampler_path.md R140–R143) -/

theorem guarded_true {ok : Bool} (h : ok = true) (m : String) (o : Outcome) : guarded ok m o = o := if_pos h

theorem exec_upsInit {s : State} {p t rate : Nat} {q : Path} {u : Ups} (hp : p < s.lat.P) (hq : s.paths[p]? = some q)
    (hu : q.ups[t]? = some u) (hrate : stageRates[t]? = some rate) :
    exec (.upsInit p t rate) s = .next (s.setPath p (q.setStage t (upsInit rate))) := by
  have hdom : isStageRate t rate = true := beq_iff_eq.mpr hrate
  rw [exec, execUpsInit, guarded_true hdom, onStage_some hp hq hu]

theorem exec_upsInsertAt {s : State} {p t : Nat} {q : Path} {u : Ups} (hp : p < s.lat.P) (hq : s.paths[p]? = some q)
    (hu : q.ups[t]? = some u) (m : Nat) :
    exec (.upsInsertAt p t m) s = .next (s.returning (.bool (upsInsertAt u m))) := by
  rw [exec, execUpsInsertAt, onStage_some hp hq hu]

theorem exec_upsInsert {s : State} {p t : Nat} {q : Path} {u : Ups} (hp : p < s.lat.P) (hq : s.paths[p]? = some q)
    (hu : q.ups[t]? = some u) (v : Cplx) :
    exec (.upsInsert p t v) s = .next (s.setPath p (q.setStage t (upsInsert u v))) := by
  rw [exec, execUpsInsert, onStage_some hp hq hu]

theorem exec_upsUpsample {s : State} {p t : Nat} {q : Path} {u : Ups} (hp : p < s.lat.P) (hq : s.paths[p]? = some q)
    (hu : q.ups[t]? = some u) :
    exec (.upsUpsample p t) s =
      .next ((s.setPath p (q.setStage t (upsUpsample interp2 u).2)).returning (.cplx (upsUpsample interp2 u).1)) := by
  rw [exec, execUpsUpsample, onStage_some hp hq hu]

/-- Settles O47: the four operations on a stage of a path, and the range of the polyphase index. -/
theorem upSampler : Obligations.UpSampler := by
  intro s p t q u hp hq hu
  refine ⟨fun rate hrate => exec_upsInit hp hq hu hrate, fun m => exec_upsInsertAt hp hq hu m,
    fun v => exec_upsInsert hp hq hu v, exec_upsUpsample hp hq hu, fun hptr => ⟨by omega, fun j hj => ⟨?_, ?_⟩⟩⟩ <;> omega

/-! ### PATH_CALC without spread (R152) -/

theorem phaseAt_succ (theta dtheta : F64) (n : Nat) :
    phaseAt theta dtheta (n + 1) = phaseAt (nextPhase theta dtheta) dtheta n := by
  induction n with
  | zero => rfl
  | succ n ih => rw [phaseAt, ih, ← phaseAt]

theorem nextMIndex_eq {m : Nat} (h : m < 1280000) : nextMIndex m = (m + 1) % 1280000 := by
  rw [nextMIndex, mPeriod]
  split <;> omega

/-- The path without spread n samples on: the phase and the counter. -/
def advanced (q : Path) (n : Nat) : Path :=
  { q with theta := phaseAt q.theta q.dtheta n, mIndex := (q.mIndex + n) % 1280000 }

theorem advanced_zero {q : Path} (h : q.mIndex < 1280000) : advanced q 0 = q := by
  rw [advanced, Nat.add_zero, Nat.mod_eq_of_lt h, phaseAt]

theorem advanced_advanced_one (q : Path) (n : Nat) : advanced (advanced q 1) n = advanced q (n + 1) := by
  have hm : ((q.mIndex + 1) % 1280000 + n) % 1280000 = (q.mIndex + (n + 1)) % 1280000 := by omega
  simp only [advanced, hm, phaseAt_succ]
  rfl

/-- Sample i of the block that PATH_CALC returns without spread. -/
def steadySample (q : Path) (x : List Cplx) (i : Nat) : Cplx :=
  cmul (cmul ⟨q.g, fZero⟩ (x.getD i czero)) ⟨fcos (phaseAt q.theta q.dtheta i), fsin (phaseAt q.theta q.dtheta i)⟩

theorem pathSample_nospread {q : Path} (h : q.nospread = true) (hm : q.mIndex < 1280000) (table : List F64) (x : Cplx)
    (rng : List F64) :
    pathSample table q x rng = .ok (cmul (cmul ⟨q.g, fZero⟩ x) ⟨fcos q.theta, fsin q.theta⟩, advanced q 1) rng := by
  rw [pathSample, fadingFactor, if_pos h, bind_ok, advanced, ← nextMIndex_eq hm]
  rfl

theorem pathCalc_nospread {x : List Cplx} {q : Path} (h : q.nospread = true) (hm : q.mIndex < 1280000) (table : List F64)
    (rng : List F64) :
    pathCalc table q x rng = .ok ((List.range x.length).map (steadySample q x), advanced q x.length) rng := by
  induction x generalizing q with
  | nil =>
    rw [List.length_nil, advanced_zero hm]
    rfl
  | cons a x ih =>
    have hshift : steadySample (advanced q 1) x = steadySample q (a :: x) ∘ Nat.succ := by
      funext i
      simp only [steadySample, advanced, Function.comp, Nat.succ_eq_add_one, phaseAt_succ, List.getD_cons_succ]
      rfl
    rw [pathCalc, pathSample_nospread h hm, bind_ok, ih (q := advanced q 1) h (Nat.mod_lt _ (by decide)), bind_ok,
      advanced_advanced_one, hshift, List.length_cons, List.range_succ_eq_map, List.map_cons, List.map_map]
    rfl

theorem exec_pathCalc {s : State} {p : Nat} {q q' : Path} {x y : List Cplx} {rest : List F64} (hx : x.length = 2048)
    (hp : p < s.lat.P) (hq : s.paths[p]? = some q) (hrun : pathCalc interp2 q x (s.drawn ++ s.rng) = .ok (y, q') rest) :
    exec (.pathCalc p x) s = .next { s with
      paths := s.paths.set p q', result := .block y, drawn := [], holding := false, rng := rest } := by
  rw [exec, execPathCalc, guarded_true (ChannelCommands.isBlock_iff.mpr hx), onPath_some hp hq, runDraws_ok hrun]
  rfl

/-- Settles O51: without spread every sample is the constant gain's, and nothing is drawn. -/
theorem pathCalcWithoutSpread : Obligations.PathCalcWithoutSpread := by
  intro s p q x hp hq hx hns hm
  have hrun := pathCalc_nospread (x := x) hns hm interp2 (s.drawn ++ s.rng)
  rw [hx] at hrun
  exact exec_pathCalc hx hp hq hrun

end Sys2Proof.Proofs.PathUnit

namespace Sys2Proof.Proofs.Exceptions
open Sys2Proof Sys2Proof.Machine Sys2Proof.Claims Sys2Proof.Laws Sys2Proof.Proofs.PathUnit

/-! ### Operands outside the rules (log 12) -/

theorem guarded_false {ok : Bool} (h : ¬ ok = true) (m : String) (o : Outcome) :
    guarded ok m o = .refused (.operandOutsideRule m) := if_neg h

theorem onPath_refused {s : State} {p : Nat} (h : s.lat.P ≤ p) (f : Path → Outcome) :
    onPath s p f = .refused (.noSuchPath p) := if_neg h.not_gt

theorem onStage_refused {s : State} {p t : Nat} {q : Path} (hp : p < s.lat.P) (hq : s.paths[p]? = some q)
    (ht : q.ups[t]? = none) (m : String) (f : Path → Ups → Outcome) :
    onStage s p t m f = .refused (.operandOutsideRule m) := by
  rw [onStage, onPath_some hp hq, ht]

/-- Every operation on a path asks first whether there is that path. -/
theorem exec_noSuchPath {s : State} {p : Nat} {i : Instr} (hp : s.lat.P ≤ p) (hi : onPathNumber p i) :
    exec i s = .refused (.noSuchPath p) := by
  rcases hi with ⟨z, rfl⟩ | ⟨z, rfl⟩ | rfl | rfl | rfl | ⟨fs, bw, rfl, hdom⟩ | ⟨spread, gc, rfl, hfin⟩ |
    ⟨t, rate, rfl, hrate⟩ | ⟨t, m, rfl⟩ | ⟨t, v, rfl⟩ | ⟨t, rfl⟩ | ⟨x, rfl, hx⟩
  case inr.inr.inr.inr.inr.inl => exact (guarded_true hdom _ _).trans (onPath_refused hp _)
  case inr.inr.inr.inr.inr.inr.inl => exact (guarded_true hfin _ _).trans (onPath_refused hp _)
  case inr.inr.inr.inr.inr.inr.inr.inl => exact (guarded_true (beq_iff_eq.mpr hrate) _ _).trans (onPath_refused hp _)
  case inr.inr.inr.inr.inr.inr.inr.inr.inr.inr.inr =>
    exact (guarded_true (ChannelCommands.isBlock_iff.mpr hx) _ _).trans (onPath_refused hp _)
  all_goals exact onPath_refused hp _

/-- An operation on a block refuses a list of another length. -/
theorem guarded_isBlock {α : Type} {x : List α} (h : x.length ≠ 2048) (m : String) (o : Outcome) :
    guarded (isBlock x) m o = .refused (.operandOutsideRule m) :=
  guarded_false (fun hb => h (ChannelCommands.isBlock_iff.mp hb)) m o

theorem not_blocks {y : List (List Cplx)} (h : y = [] ∨ ∃ b, b ∈ y ∧ b.length ≠ 2048) :
    ¬ (!y.isEmpty && y.all isBlock) = true := by
  rintro hall
  rw [Bool.and_eq_true, List.all_eq_true] at hall
  rcases h with rfl | ⟨b, hb, hlen⟩
  · exact absurd hall.1 Bool.false_ne_true
  · exact hlen (ChannelCommands.isBlock_iff.mp (hall.2 b hb))

theorem not_delayInRange {d : F64} (h : isFinite d = false ∨ flt d fZero = true ∨ fgt d f50 = true) :
    ¬ delayInRange d = true := by
  rcases h with h | h | h <;> simp [delayInRange, h]

/-- Settles O59: an operand outside its domain fails the guard, a path not below lat.P the path check, a stage that is none the
stage check. -/
theorem operandsOutsideTheRules : Obligations.OperandsOutsideTheRules := by
  intro s
  refine ⟨fun _ _ hp hi => exec_noSuchPath hp hi, fun _ hx => guarded_isBlock hx _ _, fun _ ha => guarded_isBlock ha _ _,
    fun _ _ hx => guarded_isBlock hx _ _, fun _ _ _ hx => guarded_isBlock hx _ _, fun _ hx => guarded_isBlock hx _ _,
    fun _ hy => guarded_false (not_blocks hy) _ _, fun _ hd => guarded_false (not_delayInRange hd) _ _,
    fun _ _ _ h => guarded_false (by simp [h]) _ _, fun _ _ _ h => guarded_false (by simp [h]) _ _,
    fun _ _ _ h => guarded_false (by simpa [isStageRate] using h) _ _, fun p t q m v hp hq ht => ⟨?_, ?_, ?_⟩⟩
  · rw [exec, execUpsInsertAt, onStage_refused hp hq ht]
  · rw [exec, execUpsInsert, onStage_refused hp hq ht]
  · rw [exec, execUpsUpsample, onStage_refused hp hq ht]

end Sys2Proof.Proofs.Exceptions

namespace Sys2Proof.Proofs.NoiseInjector
open Sys2Proof Sys2Proof.Machine Sys2Proof.Claims Sys2Proof.Laws Sys2Proof.Proofs.Streams Sys2Proof.Proofs.FirHilbert

/-! ### NOISE_ADD (45_noise.md R161–R163) -/

/-- Pair k of the noise stream is one accepted pair: its real part is component 2k, its imaginary part component 2k + 1. -/
theorem component_cons (sigma : F64) (u : F64 × F64) (us : List (F64 × F64)) :
    component sigma (u :: us) 0 = (normal sigma u).re ∧ component sigma (u :: us) 1 = (normal sigma u).im ∧
      ∀ n, component sigma (u :: us) (n + 2) = component sigma us n := by
  refine ⟨if_pos rfl, if_neg (by decide), fun n => ?_⟩
  have hhalf : (n + 2) / 2 = n / 2 + 1 := by omega
  have hpar : (n + 2) % 2 = n % 2 := by omega
  rw [component, hhalf, hpar, List.getD_cons_succ, ← component]

/-- NOISE_ADD over a stream of accepted pairs, for a shaping that goes through the states nzs and gives out. -/
theorem noisePairs_accepts {re2 : List F64} {sg sigma : F64} {us ps : List (F64 × F64)} (hacc : accepts ps us)
    {buf : List F64} (hbuf : buf.length = 2 * us.length) {nzs : Nat → Noise} {out : Nat → F64}
    (hshape : ∀ n, noiseShape re2 (nzs n) (component sigma us n) = (out n, nzs (n + 1))) (rest : List F64) :
    noisePairs re2 sg sigma (nzs 0) buf (flat ps ++ rest) =
      .ok ((List.range buf.length).map fun n => fadd (fmul sg (buf.getD n fZero)) (out n), nzs buf.length) rest := by
  induction us generalizing ps buf nzs out with
  | nil =>
    rw [accepts_nil hacc, List.length_eq_zero_iff.mp hbuf, noisePairs]
    · rfl
    · nofun
  | cons u us ih =>
    match buf, hbuf with
    | b0 :: b1 :: bs, hbuf =>
      obtain ⟨ps', hacc', hrun⟩ := cnormal_accepts hacc
      obtain ⟨hre, him, hnext⟩ := component_cons sigma u us
      have hfirst : noiseShape re2 (nzs 0) (normal sigma u).re = (out 0, nzs 1) := by rw [← hre, hshape]
      have hsecond : noiseShape re2 (nzs 1) (normal sigma u).im = (out 1, nzs 2) := by rw [← him, hshape]
      have htail := ih hacc' (buf := bs) (by simp only [List.length_cons] at hbuf; omega) (nzs := fun n => nzs (n + 2))
        (out := fun n => out (n + 2)) fun n => by rw [← hnext]; exact hshape (n + 2)
      rw [noisePairs, hrun, bind_ok, hfirst]
      dsimp only
      rw [hsecond]
      dsimp only
      rw [htail]
      simp only [bind_ok, List.length_cons, List.range_succ_eq_map, List.map_cons, List.map_map]
      rfl

theorem noiseAt_wf {nz : Noise} (h : nz.wf) (v : Nat → F64) (n : Nat) :
    (noiseAt nz v n).wf ∧ (noiseAt nz v n).bl = nz.bl := by
  induction n with
  | zero => exact ⟨h, rfl⟩
  | succ n ih =>
    obtain ⟨⟨hlen, hwp⟩, hbl⟩ := ih
    refine ⟨⟨List.length_set.trans hlen, ?_⟩, hbl⟩
    rw [noiseAt]
    dsimp only
    split <;> omega

/-- With BL = 1 every component goes through the one history. -/
theorem noiseShape_noiseAt {nz : Noise} (h : nz.wf) (hbl : nz.bl = true) (v : Nat → F64) (n : Nat) :
    noiseShape hre2 (noiseAt nz v n) (v n) = (noiseOut nz v n, noiseAt nz v (n + 1)) := by
  obtain ⟨⟨hlen, -⟩, hbln⟩ := noiseAt_wf h v n
  have hset : ((noiseAt nz v n).hist.set (noiseAt nz v n).wp (v n)).length = 59 := List.length_set.trans hlen
  rw [noiseShape, if_pos (hbln.trans hbl), noiseFir, firReal, dotReal_eq hset hre2_length]
  rfl

theorem exec_noiseAdd {s : State} {buf y rest : List F64} {sg nr : F64} {nz : Noise} (hbuf : buf.length = 2048)
    (hrun : Machine.noiseAdd hre2 s.nz buf sg nr (s.drawn ++ s.rng) = .ok (y, nz) rest) :
    exec (.noiseAdd buf sg nr) s = .next { s with
      nz := nz, result := .samples y, drawn := [], holding := false, rng := rest } := by
  rw [exec, execNoiseAdd, PathUnit.guarded_true (ChannelCommands.isBlock_iff.mpr hbuf), runDraws_ok hrun]
  rfl

/-- Settles O53: with BL = 1 the shaping goes through `noiseAt`, with BL = 0 it is the identity. -/
theorem noiseAdd : Obligations.NoiseAdd := by
  intro s buf sg nr ps us rest hbuf hwf hacc hlen hstream
  have hpairs : buf.length = 2 * us.length := by omega
  refine ⟨fun hbl => ?shaped, fun hbl => ?unshaped⟩
  case shaped =>
    have hrun := noisePairs_accepts (sg := sg) hacc hpairs (noiseShape_noiseAt hwf hbl (component (fmul nr fNoiseComp) us)) rest
    rw [hbuf, ← hstream] at hrun
    exact exec_noiseAdd hbuf hrun
  case unshaped =>
    have hshape : ∀ n, noiseShape hre2 s.nz (component (fmul nr fNoiseComp) us n) =
        (component (fmul nr fNoiseComp) us n, s.nz) := fun n => if_neg (by simp [hbl])
    have hrun := noisePairs_accepts (sg := sg) (nzs := fun _ => s.nz) hacc hpairs hshape rest
    rw [hbuf, ← hstream] at hrun
    exact exec_noiseAdd hbuf hrun

end Sys2Proof.Proofs.NoiseInjector

namespace Sys2Proof.Proofs.Streams
open Sys2Proof Sys2Proof.Machine Sys2Proof.Claims Sys2Proof.Laws

/-! ### How many pairs a computation draws (70_reset_and_hazards.md R243) -/

/-- f draws until n pairs have been accepted, and yields a value of which P holds: on a stream with that many accepted pairs it ends
behind the n-th of them; on good values it ends only if it has drawn 2n, and else waits for more. -/
structure Draws {α : Type} (n : Nat) (f : List F64 → RngResult α) (P : α → Prop) : Prop where
  ends : ∀ {ps us us' : List (F64 × F64)}, accepts ps (us ++ us') → us.length = n →
    ∃ a ps', P a ∧ accepts ps' us' ∧ ∀ rest, f (flat ps ++ rest) = .ok a (flat ps' ++ rest)
  waits : ∀ {rng : List F64}, (∀ v ∈ rng, rngGood v = true) →
    f rng = .starved ∨ ∃ a rest, f rng = .ok a rest ∧ P a ∧ rest <:+ rng ∧ rest.length + 2 * n ≤ rng.length

theorem Draws.of_ok {α : Type} {f : List F64 → RngResult α} {P : α → Prop} {a : α} (h : ∀ rng, f rng = .ok a rng) (ha : P a) :
    Draws 0 f P where
  ends := fun {ps us us'} hacc hlen => by
    obtain rfl := List.length_eq_zero_iff.mp hlen
    exact ⟨a, ps, ha, hacc, fun rest => h _⟩
  waits := fun {rng} _ => .inr ⟨a, rng, h rng, ha, List.suffix_refl _, le_refl _⟩

/-- The draws of a sequence add up. -/
theorem Draws.bind {α β : Type} {m n : Nat} {f : List F64 → RngResult α} {g : α → List F64 → RngResult β} {P : α → Prop}
    {Q : β → Prop} (hf : Draws m f P) (hg : ∀ a, P a → Draws n (g a) Q) : Draws (m + n) (fun rng => (f rng).bind g) Q where
  ends := fun {ps us us'} hacc hlen => by
    have hsplit : us ++ us' = us.take m ++ (us.drop m ++ us') := by rw [← List.append_assoc, List.take_append_drop]
    rw [hsplit] at hacc
    obtain ⟨a, ps1, ha, hacc1, hrun1⟩ := hf.ends hacc (by rw [List.length_take]; omega)
    obtain ⟨b, ps2, hb, hacc2, hrun2⟩ := (hg a ha).ends hacc1 (by rw [List.length_drop]; omega)
    exact ⟨b, ps2, hb, hacc2, fun rest => by rw [hrun1, bind_ok, hrun2]⟩
  waits := fun {rng} hgood => by
    rcases hf.waits hgood with hst | ⟨a, mid, hok, ha, hsuf, hle⟩
    · exact .inl (by rw [hst, bind_starved])
    rcases (hg a ha).waits fun v hv => hgood v (hsuf.mem hv) with hst | ⟨b, rest, hok2, hb, hsuf2, hle2⟩
    · exact .inl (by rw [hok, bind_ok, hst])
    · exact .inr ⟨b, rest, by rw [hok, bind_ok, hok2], hb, hsuf2.trans hsuf, by omega⟩

theorem Draws.mono {α : Type} {n : Nat} {f : List F64 → RngResult α} {P Q : α → Prop} (h : Draws n f P) (hPQ : ∀ a, P a → Q a) :
    Draws n f Q where
  ends := fun hacc hlen => by
    obtain ⟨a, ps', ha, hrest⟩ := h.ends hacc hlen
    exact ⟨a, ps', hPQ a ha, hrest⟩
  waits := fun hgood => (h.waits hgood).imp_right fun ⟨a, rest, hok, ha, hrest⟩ => ⟨a, rest, hok, hPQ a ha, hrest⟩

/-- What holds of every value the computation can yield holds of the value it draws. -/
theorem Draws.of_spec {α : Type} {n : Nat} {f : List F64 → RngResult α} {Q : α → Prop} (h : Draws n f fun _ => True)
    (hQ : ∀ rng a rest, f rng = .ok a rest → Q a) : Draws n f Q where
  ends := fun hacc hlen => by
    obtain ⟨a, ps', -, hacc', hrun⟩ := h.ends hacc hlen
    exact ⟨a, ps', hQ _ a _ (hrun []), hacc', hrun⟩
  waits := fun hgood => (h.waits hgood).imp_right fun ⟨a, rest, hok, _, hrest⟩ => ⟨a, rest, hok, hQ _ a _ hok, hrest⟩

/-- A whole stream of n accepted pairs is drawn whole. -/
theorem Draws.ends_all {α : Type} {n : Nat} {f : List F64 → RngResult α} {P : α → Prop} (h : Draws n f P)
    {ps us : List (F64 × F64)} (hacc : accepts ps us) (hlen : us.length = n) (rest : List F64) :
    ∃ a, P a ∧ f (flat ps ++ rest) = .ok a rest := by
  obtain ⟨a, ps', ha, hnone, hrun⟩ := h.ends (us' := []) (by rwa [List.append_nil]) hlen
  refine ⟨a, ha, ?_⟩
  rw [hrun, accepts_nil hnone]
  rfl

/-- With fewer values than two for each pair it waits. -/
theorem Draws.starved_of_lt {α : Type} {n : Nat} {f : List F64 → RngResult α} {P : α → Prop} (h : Draws n f P) {rng : List F64}
    (hgood : ∀ v ∈ rng, rngGood v = true) (hlt : rng.length < 2 * n) : f rng = .starved := by
  rcases h.waits hgood with hst | ⟨a, rest, -, -, -, hle⟩
  · exact hst
  · omega

/-- On good values CNORMAL waits, or has drawn at least one pair. -/
theorem cnormal_waits (g : F64) (k : Nat) {rng : List F64} (hk : rng.length ≤ k) (hgood : ∀ v ∈ rng, rngGood v = true) :
    Machine.cnormal g rng = .starved ∨
      ∃ z rest, Machine.cnormal g rng = .ok z rest ∧ rest.length + 2 ≤ rng.length := by
  induction k using Nat.strong_induction_on generalizing rng with
  | _ k ih =>
  match rng with
  | [] => exact .inl (cnormal_nil g)
  | [v] => exact .inl (by rw [cnormal_single, if_pos (hgood v (List.mem_singleton_self v))])
  | v :: w :: rng =>
    obtain ⟨hv, hgood⟩ := List.forall_mem_cons.mp hgood
    obtain ⟨hw, hgood⟩ := List.forall_mem_cons.mp hgood
    simp only [List.length_cons] at hk ⊢
    rw [cnormal_pair, if_pos hv, if_pos hw]
    split
    · exact .inr ⟨_, _, rfl, le_refl _⟩
    · refine (ih (k - 2) (by omega) (rng := rng) (by omega) hgood).imp_right ?_
      rintro ⟨z, rest, hok, hle⟩
      exact ⟨z, rest, hok, by omega⟩

theorem draws_cnormal (g : F64) : Draws 1 (Machine.cnormal g) fun _ => True where
  ends := fun {ps us us'} hacc hlen => by
    obtain ⟨u, rfl⟩ := List.length_eq_one_iff.mp hlen
    obtain ⟨ps', hacc', hrun⟩ := cnormal_accepts hacc
    exact ⟨_, ps', trivial, hacc', hrun g⟩
  waits := fun {rng} hgood => (cnormal_waits g _ (le_refl _) hgood).imp_right fun ⟨z, rest, hok, hle⟩ =>
    ⟨z, rest, hok, trivial, cnormal_suffix _ _ _ _ hok, hle⟩

end Sys2Proof.Proofs.Streams

namespace Sys2Proof.Proofs.ChanInit
open Sys2Proof Sys2Proof.Machine Sys2Proof.Claims Sys2Proof.Laws Sys2Proof.Proofs.Streams Sys2Proof.Proofs.Fading

/-! ### CHAN_INIT without spread (46_channel_commands.md R181) -/

/-- The read pointer of a delay d behind the write pointer w (42_delay_line.md R111). -/
def readPointer (w : Nat) (d : F64) : Nat := (((w : Int) - ftrunc (fmul fEight d)) % 2448).toNat

theorem delayAdd_eq (dl : Delay) (d : F64) : Machine.delayAdd dl d = { dl with r := dl.r ++ [readPointer dl.w d] } := rfl

/-- DELAY_ADD for every delay appends one read pointer each. -/
theorem foldl_delayAdd_eq (ds : List F64) (dl : Delay) :
    ds.foldl Machine.delayAdd dl = { dl with r := dl.r ++ ds.map (readPointer dl.w) } := by
  induction ds generalizing dl with
  | nil => rw [List.foldl_nil, List.map_nil, List.append_nil]
  | cons d ds ih => rw [List.foldl_cons, ih, delayAdd_eq, List.map_cons, List.append_assoc, List.singleton_append]

/-- PATH_INIT of the first n paths, each without spread. -/
theorem initPaths_nospread {l : Latched} {n p : Nat} (h : ∀ k, k < n → flt (l.spreadOf (p + k)) f0p1 = true) (qs : List Path)
    (rng : List F64) :
    ∃ qs', initPaths l p n qs rng = .ok qs' rng ∧
      ∀ (k : Nat) (q : Path), qs[k]? = some q → qs'[k]? = some (if k < n then freshPath l.P (l.offsetOf (p + k)) q else q) := by
  induction n generalizing p qs with
  | zero => exact ⟨qs, by rw [initPaths], fun k q hq => hq⟩
  | succ n ih =>
    match qs with
    | [] => exact ⟨[], by rw [initPaths], nofun⟩
    | q0 :: qs =>
      have hfirst : flt (l.spreadOf p) f0p1 = true := h 0 (Nat.succ_pos n)
      obtain ⟨qs', hrun, hpaths⟩ := ih (p := p + 1) (fun k hk => by
        rw [Nat.add_assoc, Nat.add_comm 1]
        exact h (k + 1) (by omega)) qs
      refine ⟨freshPath l.P (l.offsetOf p) q0 :: qs', ?_, fun k q hq => ?_⟩
      · rw [initPaths, pathInit_nospread hfirst, bind_ok, hrun, bind_ok]
      · cases k with
        | zero =>
          cases hq
          rfl
        | succ k =>
          rw [List.getElem?_cons_succ, hpaths k q hq, Nat.add_assoc, Nat.add_comm 1]
          simp only [Nat.add_lt_add_iff_right]

/-- Settles O27: no path draws, and the delay line's read pointers are DELAY_ADD's of the delays beyond the first. -/
theorem chanInitWithoutSpread : Obligations.ChanInitWithoutSpread := by
  intro s hP hP32 hdelays hpaths hspread
  obtain ⟨qs', hrun, hqs⟩ := initPaths_nospread (l := s.lat) (n := s.lat.P) (p := 0)
    (fun k hk => by rw [Nat.zero_add]; exact hspread k hk) s.paths (s.drawn ++ s.rng)
  have hwork : chanInitWork s (s.drawn ++ s.rng) =
      .ok (hilbertZero, (s.lat.delayMs.drop 1).foldl Machine.delayAdd delayZero, qs') (s.drawn ++ s.rng) := by
    rw [chanInitWork, if_neg (by omega), hrun, bind_ok]
  rw [foldl_delayAdd_eq, FirHilbert.delayZero_eq] at hwork
  refine ⟨_, by rw [exec, execChanInit, runDraws_ok hwork], ?_, ?_, fun p hp => ?_, fun p q hq => ?_⟩
  · rfl
  · have hlen : ((s.lat.delayMs.drop 1).map (readPointer 2447)).length + 1 = s.lat.P := by
      rw [List.length_map, List.length_drop]
      omega
    exact hlen
  · have hin : p + 1 < s.lat.delayMs.length := by omega
    have hread : ((s.lat.delayMs.drop 1).map (readPointer 2447))[p]? =
        some (readPointer 2447 (s.lat.delayMs.getD (p + 1) fZero)) := by
      rw [List.getElem?_map, List.getElem?_drop, Nat.add_comm, List.getElem?_eq_getElem hin, List.getD_eq_getElem _ _ hin,
        Option.map_some]
    exact hread
  · rw [hqs p q hq, Nat.zero_add]
    rfl

/-! ### The draws of CHAN_INIT (R243; 43_gauss_rayleigh.md R125) -/

theorem draws_rayleighSample {q : Path} (h : q.nospread = false) :
    Draws 1 (Machine.rayleighSample q) fun o => ∃ gf, o.2 = { q with gf := gf } := by
  have hrun : Machine.rayleighSample q = fun rng => (Machine.cnormal q.g rng).bind fun v rest =>
      .ok ((gaussApply q.gf v).1, { q with gf := gaussNext q.gf v }) rest := funext (rayleighSample_spread h)
  rw [hrun]
  exact (draws_cnormal q.g).bind (n := 0) fun v _ => Draws.of_ok (fun _ => rfl) ⟨_, rfl⟩

theorem draws_discardSamples (n : Nat) {q : Path} (h : q.nospread = false) :
    Draws n (discardSamples n q) fun _ => True := by
  induction n generalizing q with
  | zero => exact Draws.of_ok (fun _ => rfl) trivial
  | succ n ih =>
    have hrun : discardSamples (n + 1) q = fun rng =>
        (Machine.rayleighSample q rng).bind fun o rest => discardSamples n o.2 rest := rfl
    rw [hrun, Nat.add_comm]
    refine (draws_rayleighSample h).bind fun o ho => ?_
    obtain ⟨gf, hgf⟩ := ho
    rw [hgf]
    exact ih h

/-- The pairs that PATH_INIT of a path with a given spread draws: the pre-roll's, in spread mode. -/
def initDraws (spread : F64) : Nat := if flt (clampSpread spread) f0p1 then 0 else preroll

theorem draws_rayleighInit (q : Path) (spread gc : F64) :
    Draws (initDraws spread) (rayleighInit q spread gc) fun _ => True := by
  by_cases h : flt (clampSpread spread) f0p1 = true
  · rw [initDraws, if_pos h]
    exact Draws.of_ok (a := rayleighConfigure q spread gc) (fun rng => by rw [rayleighInit, rayleighConfigure, if_pos h]; rfl) trivial
  · rw [initDraws, if_neg h]
    have hmode := rayleighConfigure_spread (Bool.not_eq_true _ ▸ h) q gc
    have hrun : rayleighInit q spread gc = discardSamples preroll (rayleighConfigure q spread gc) := by
      funext rng
      rw [rayleighInit, hmode]
      rfl
    rw [hrun]
    exact draws_discardSamples preroll (by rw [hmode]; rfl)

theorem draws_pathInit (P : Nat) (spread offset : F64) (q : Path) :
    Draws (initDraws spread) (Machine.pathInit P spread offset q) fun _ => True :=
  (draws_rayleighInit _ spread _).bind (n := 0) fun _ _ => Draws.of_ok (fun _ => rfl) trivial

theorem draws_initPaths (l : Latched) {n p : Nat} {qs : List Path} (h : n ≤ qs.length) :
    Draws ((List.range' p n).map fun k => initDraws (l.spreadOf k)).sum (initPaths l p n qs) fun _ => True := by
  induction n generalizing p qs with
  | zero => exact Draws.of_ok (fun rng => by rw [initPaths]) trivial
  | succ n ih =>
    match qs, h with
    | q :: qs, h =>
      have hrun : initPaths l p (n + 1) (q :: qs) = fun rng =>
          (Machine.pathInit l.P (l.spreadOf p) (l.offsetOf p) q rng).bind fun q' rest =>
            (initPaths l (p + 1) n qs rest).bind fun qs' rest' => .ok (q' :: qs') rest' := funext fun rng => by rw [initPaths]
      rw [hrun, List.range'_succ, List.map_cons, List.sum_cons]
      refine (draws_pathInit _ _ _ q).bind fun q' _ => ?_
      exact (ih (Nat.le_of_succ_le_succ h)).bind (n := 0) fun qs' _ => Draws.of_ok (fun _ => rfl) trivial

/-- Settles O28: the path with spread draws 250 pairs, and a pair takes two values. -/
theorem chanInitHolds : Obligations.ChanInitHolds := by
  intro s hwf hpaths hgood hfew ⟨p, hp, hspread⟩
  have hmax : maxPaths ≤ 32 := Config.maxPathsPred.isLt
  have hdraws := draws_initPaths s.lat (p := 0) (n := s.lat.P) (qs := s.paths) (by have := hwf.1; omega)
  have hpath : initDraws (s.lat.spreadOf p) = 250 := by
    rw [initDraws, Latched.spreadOf, (clampSpread_of_fle hspread).2, if_neg Bool.false_ne_true, preroll]
  have hmany : 250 ≤ ((List.range' 0 s.lat.P).map fun k => initDraws (s.lat.spreadOf k)).sum := by
    rw [← hpath]
    exact List.single_le_sum (fun _ _ => Nat.zero_le _) _
      (List.mem_map_of_mem (f := fun k => initDraws (s.lat.spreadOf k)) (List.mem_range'_1.mpr ⟨Nat.zero_le _, by omega⟩))
  have hstarved : chanInitWork s (s.drawn ++ s.rng) = .starved := by
    rw [chanInitWork, if_neg (by omega), hdraws.starved_of_lt hgood (by omega), bind_starved]
  rw [exec, execChanInit, runDraws_starved hstarved]

end Sys2Proof.Proofs.ChanInit

namespace Sys2Proof.Proofs.PathDraws
open Sys2Proof Sys2Proof.Machine Sys2Proof.Claims Sys2Proof.Laws Sys2Proof.Proofs.Streams Sys2Proof.Proofs.Fading
open Sys2Proof.Proofs.PathUnit

/-! ### The draws of one sample (44_upsampler_path.md R145, R152) -/

/-- What the fading of a sample leaves of a path: its filter and its stages have moved, within their bounds. -/
def Faded (q q' : Path) : Prop := q' = { q with gf := q'.gf, ups := q'.ups } ∧ q'.wf

theorem Faded.refl {q : Path} (h : q.wf) : Faded q q := ⟨rfl, h⟩

theorem Faded.trans {q q' q'' : Path} (h : Faded q q') (h' : Faded q' q'') : Faded q q'' :=
  ⟨by rw [h'.1, h.1], h'.2⟩

/-- The multiplier of a path's stage is the table's. -/
theorem getElem?_ups {q : Path} (h : q.wf) {t rate : Nat} (ht : stageRates[t]? = some rate) :
    ∃ u, q.ups[t]? = some u ∧ u.rate = rate := by
  obtain ⟨hlen, hwf⟩ := List.forall₂_iff_get.mp h.2.2.2
  obtain ⟨hin, hrate⟩ := List.getElem?_eq_some_iff.mp ht
  have hin' : t < q.ups.length := by omega
  refine ⟨q.ups[t], List.getElem?_eq_getElem hin', ?_⟩
  exact ((hwf t hin hin').1).trans hrate

/-- One draw at an insert of the outermost stage, none elsewhere. -/
def dueDraws (m rate : Nat) : Nat := if m % rate == 0 then 1 else 0

theorem stageStep_of_insert {q : Path} {t : Nat} {u : Ups} (hu : q.ups[t]? = some u) (hdue : q.mIndex % u.rate = 0)
    (table rng : List F64) :
    stageStep table q t rng =
      (stageInput table q t rng).bind fun o rest => .ok (o.2.setStage t (upsInsert u o.1)) rest := by
  rw [stageStep, hu]
  exact if_pos (beq_iff_eq.mpr hdue)

theorem stageStep_of_not_insert {q : Path} {t : Nat} {u : Ups} (hu : q.ups[t]? = some u) (hdue : ¬ q.mIndex % u.rate = 0)
    (table : List F64) (rng : List F64) : stageStep table q t rng = .ok q rng := by
  rw [stageStep, hu]
  exact if_neg fun h => hdue (beq_iff_eq.mp h)

theorem stageInput_of_below {q : Path} {t : Nat} {w : Ups} (ht : t ≠ q.s0) (hw : q.ups[t - 1]? = some w) (table : List F64)
    (rng : List F64) :
    stageInput table q t rng = .ok ((upsUpsample table w).1, q.setStage (t - 1) (upsUpsample table w).2) rng := by
  rw [stageInput, if_neg ht, hw]

theorem stageInput_of_none {q : Path} {t : Nat} (ht : t ≠ q.s0) (hnone : q.ups[t - 1]? = none) (table : List F64)
    (rng : List F64) : stageInput table q t rng = .ok (czero, q) rng := by
  rw [stageInput, if_neg ht, hnone]

/-- The input of a stage moves the filter, or the stage below, and leaves the stage itself. -/
theorem stageInput_faded {table : List F64} {q q' : Path} {t : Nat} {z : Cplx} {rng rest : List F64} (hwf : q.wf)
    (ht : q.s0 ≤ t) (h : stageInput table q t rng = .ok (z, q') rest) : Faded q q' ∧ q'.ups[t]? = q.ups[t]? := by
  have hwf' := (stageInput_spec h hwf).2
  by_cases hout : t = q.s0
  · rw [stageInput, if_pos hout] at h
    obtain ⟨-, gf, rfl, -⟩ := rayleighSample_spec h
    exact ⟨⟨rfl, hwf'⟩, rfl⟩
  · cases hbelow : q.ups[t - 1]? with
    | none =>
      rw [stageInput_of_none hout hbelow] at h
      cases h
      exact ⟨Faded.refl hwf, rfl⟩
    | some w =>
      rw [stageInput_of_below hout hbelow] at h
      cases h
      exact ⟨⟨rfl, hwf'⟩, List.getElem?_set_ne (by omega)⟩

theorem stageStep_faded {table : List F64} {q q' : Path} {t : Nat} {rng rest : List F64} (hwf : q.wf) (ht : q.s0 ≤ t)
    (h : stageStep table q t rng = .ok q' rest) : Faded q q' := by
  have hwf' := (stageStep_spec h hwf).2
  cases hu : q.ups[t]? with
  | none =>
    rw [stageStep, hu] at h
    cases h
    exact Faded.refl hwf
  | some u =>
    by_cases hdue : q.mIndex % u.rate = 0
    · rw [stageStep_of_insert hu hdue] at h
      obtain ⟨o, mid, hin, hset⟩ := bind_eq_ok h
      cases hset
      have hq := (stageInput_faded hwf ht hin).1.1
      exact ⟨by rw [hq]; rfl, hwf'⟩
    · rw [stageStep_of_not_insert hu hdue] at h
      cases h
      exact Faded.refl hwf

/-- The outermost stage draws where it inserts. -/
theorem draws_outermostStage {q : Path} (hwf : q.wf) (hns : q.nospread = false) {rate : Nat}
    (hrate : stageRates[q.s0]? = some rate) (table : List F64) :
    Draws (dueDraws q.mIndex rate) (stageStep table q q.s0) (Faded q) := by
  refine Draws.of_spec ?_ fun _ _ _ h => stageStep_faded hwf (le_refl _) h
  obtain ⟨u, hu, rfl⟩ := getElem?_ups hwf hrate
  by_cases hdue : q.mIndex % u.rate = 0
  · have hone : dueDraws q.mIndex u.rate = 1 + 0 := if_pos (beq_iff_eq.mpr hdue)
    have hrun : stageStep table q q.s0 = fun rng =>
        (Machine.rayleighSample q rng).bind fun o rest => .ok (o.2.setStage q.s0 (upsInsert u o.1)) rest :=
      funext fun rng => by rw [stageStep_of_insert hu hdue, stageInput, if_pos rfl]
    rw [hone, hrun]
    exact (ChanInit.draws_rayleighSample hns).bind fun _ _ => Draws.of_ok (fun _ => rfl) trivial
  · have hnone : dueDraws q.mIndex u.rate = 0 := if_neg fun h => hdue (beq_iff_eq.mp h)
    rw [hnone]
    exact Draws.of_ok (stageStep_of_not_insert hu hdue table) trivial

/-- The other stages take their input from the stage below. -/
theorem draws_innerStage {q : Path} (hwf : q.wf) {t : Nat} (ht : q.s0 < t) (table : List F64) :
    Draws 0 (stageStep table q t) (Faded q) := by
  refine Draws.of_spec ?_ fun _ _ _ h => stageStep_faded hwf ht.le h
  cases hu : q.ups[t]? with
  | none => exact Draws.of_ok (fun rng => by rw [stageStep, hu]) trivial
  | some u =>
    by_cases hdue : q.mIndex % u.rate = 0
    · cases hbelow : q.ups[t - 1]? with
      | none =>
        exact Draws.of_ok (fun rng => by rw [stageStep_of_insert hu hdue, stageInput_of_none ht.ne' hbelow, bind_ok]) trivial
      | some w =>
        exact Draws.of_ok (fun rng => by rw [stageStep_of_insert hu hdue, stageInput_of_below ht.ne' hbelow, bind_ok]) trivial
    · exact Draws.of_ok (stageStep_of_not_insert hu hdue table) trivial

theorem draws_innerStages {ts : List Nat} {q : Path} (hwf : q.wf) (hts : ∀ t ∈ ts, q.s0 < t) (table : List F64) :
    Draws 0 (cascade table ts q) (Faded q) := by
  induction ts generalizing q with
  | nil => exact Draws.of_ok (fun _ => rfl) (Faded.refl hwf)
  | cons t ts ih =>
    obtain ⟨ht, hts⟩ := List.forall_mem_cons.mp hts
    have hrun : cascade table (t :: ts) q = fun rng =>
        (stageStep table q t rng).bind fun q' rest => cascade table ts q' rest := rfl
    rw [hrun]
    refine (draws_innerStage hwf ht table).bind (n := 0) fun q' hq' => ?_
    exact (ih hq'.2 (by rw [hq'.1]; exact hts)).mono fun q'' hq'' => hq'.trans hq''

theorem activeStages_eq (q : Path) : activeStages q = List.range' q.s0 (4 - q.s0) := by
  rw [activeStages, List.range_eq_range', List.drop_range', Nat.zero_add, Nat.mul_one]

theorem draws_fadingFactor {q : Path} (hwf : q.wf) (hns : q.nospread = false) {rate : Nat}
    (hrate : stageRates[q.s0]? = some rate) (table : List F64) :
    Draws (dueDraws q.mIndex rate) (fadingFactor table q) fun o => Faded q o.2 := by
  have hactive : activeStages q = q.s0 :: List.range' (q.s0 + 1) (3 - q.s0) := by
    have hs0 := hwf.2.1
    rw [activeStages_eq, show 4 - q.s0 = 3 - q.s0 + 1 by omega, List.range'_succ]
  have hrun : fadingFactor table q = fun rng =>
      ((stageStep table q q.s0 rng).bind fun q' rest => cascade table (List.range' (q.s0 + 1) (3 - q.s0)) q' rest).bind fun q' rest =>
        .ok (fadingOut table q') rest := by
    funext rng
    rw [fadingFactor, hns, if_neg Bool.false_ne_true, hactive, cascade]
  rw [hrun]
  have hstages : Draws (dueDraws q.mIndex rate + 0)
      (fun rng => (stageStep table q q.s0 rng).bind fun q' rest => cascade table (List.range' (q.s0 + 1) (3 - q.s0)) q' rest) (Faded q) :=
    (draws_outermostStage hwf hns hrate table).bind fun q' hq' =>
      (draws_innerStages hq'.2 (by rw [hq'.1]; exact fun t ht => (List.mem_range'_1.mp ht).1) table).mono fun q'' hq'' => hq'.trans hq''
  refine hstages.bind (n := 0) fun q' hq' => Draws.of_ok (fun _ => rfl) (hq'.trans ?_)
  rw [fadingOut]
  split
  case h_1 u hu => exact ⟨rfl, setStage_wf hq'.2 _ u _ hu fun _ hr => upsUpsample_wf table hr⟩
  case h_2 => exact Faded.refl hq'.2

/-- A path n samples on. -/
def Processed (n : Nat) (q q' : Path) : Prop := q' = { advanced q n with gf := q'.gf, ups := q'.ups } ∧ q'.wf

theorem Processed.path_eq {n : Nat} {q q' : Path} (h : Processed n q q') :
    q' = { q with
      gf := q'.gf, ups := q'.ups, theta := phaseAt q.theta q.dtheta n, mIndex := (q.mIndex + n) % 1280000 } := h.1

theorem draws_pathSample {q : Path} (hwf : q.wf) (hns : q.nospread = false) {rate : Nat}
    (hrate : stageRates[q.s0]? = some rate) (table : List F64) (x : Cplx) :
    Draws (dueDraws q.mIndex rate) (pathSample table q x) fun o => Processed 1 q o.2 := by
  refine Draws.bind (n := 0) (draws_fadingFactor hwf hns hrate table) fun o ho => Draws.of_ok (fun _ => rfl) ?_
  obtain ⟨hq, hgf, hs0, hm, hups⟩ := ho
  have hnext := nextMIndex_eq hm
  refine ⟨?_, hgf, hs0, nextMIndex_lt hm, hups⟩
  dsimp only [ncoStep]
  rw [hnext, hq]
  rfl

/-- The samples of a block that draw. -/
def blockDraws (m rate n : Nat) : Nat := ((List.range n).filter fun i => (m + i) % rate == 0).length

theorem blockDraws_eq (m rate n : Nat) :
    ((List.range n).filter fun i => (m + i) % rate == 0).length = blockDraws m rate n := rfl

theorem blockDraws_succ {m rate : Nat} (hdvd : rate ∣ 1280000) (n : Nat) :
    blockDraws m rate (n + 1) = dueDraws m rate + blockDraws ((m + 1) % 1280000) rate n := by
  have hshift : ∀ i, ((m + 1) % 1280000 + i) % rate = (m + (i + 1)) % rate := by
    intro i
    rw [Nat.add_mod, Nat.mod_mod_of_dvd _ hdvd, ← Nat.add_mod, Nat.add_right_comm, Nat.add_assoc]
  simp only [blockDraws, dueDraws, List.range_succ_eq_map, List.filter_cons, List.filter_map, hshift,
    Function.comp_def, Nat.add_zero, Nat.succ_eq_add_one]
  split
  · rw [List.length_cons, List.length_map, Nat.add_comm]
  · rw [List.length_map, Nat.zero_add]

theorem stageRates_dvd {t rate : Nat} (h : stageRates[t]? = some rate) : rate ∣ 1280000 := by
  have hall : ∀ r ∈ stageRates, r ∣ 1280000 := by decide
  exact hall rate (List.mem_of_getElem? h)

theorem draws_pathCalc {x : List Cplx} {q : Path} (hwf : q.wf) (hns : q.nospread = false) {rate : Nat}
    (hrate : stageRates[q.s0]? = some rate) (table : List F64) :
    Draws (blockDraws q.mIndex rate x.length) (pathCalc table q x)
      fun o => o.1.length = x.length ∧ Processed x.length q o.2 := by
  induction x generalizing q with
  | nil => exact Draws.of_ok (fun _ => rfl) ⟨rfl, by rw [List.length_nil, advanced_zero hwf.2.2.1], hwf⟩
  | cons a x ih =>
    have hrun : pathCalc table q (a :: x) = fun rng => (pathSample table q a rng).bind fun o rest =>
        (pathCalc table o.2 x rest).bind fun t rest' => .ok (o.1 :: t.1, t.2) rest' := rfl
    rw [hrun, List.length_cons, blockDraws_succ (stageRates_dvd hrate)]
    refine (draws_pathSample hwf hns hrate table a).bind fun o ho => ?_
    obtain ⟨b, q'⟩ := o
    obtain ⟨hq', hwf'⟩ : Processed 1 q q' := ho
    have hm : q'.mIndex = (q.mIndex + 1) % 1280000 := by rw [hq']; rfl
    rw [← hm]
    refine (ih hwf' (by rw [hq']; exact hns) (by rw [hq']; exact hrate)).bind (n := 0) fun t ht =>
      Draws.of_ok (fun _ => rfl) ?_
    obtain ⟨hlen, ht', htwf⟩ := ht
    refine ⟨congrArg Nat.succ hlen, ?_, htwf⟩
    rw [← advanced_advanced_one, ht', hq']
    rfl

theorem exec_pathCalc_starved {s : State} {p : Nat} {q : Path} {x : List Cplx} (hx : x.length = 2048) (hp : p < s.lat.P)
    (hq : s.paths[p]? = some q) (hrun : pathCalc interp2 q x (s.drawn ++ s.rng) = .starved) :
    exec (.pathCalc p x) s = .next { s with drawn := s.drawn ++ s.rng, holding := true, rng := [] } := by
  rw [exec, execPathCalc, guarded_true (ChannelCommands.isBlock_iff.mpr hx), onPath_some hp hq, runDraws_starved hrun]

/-- PATH_CALC in spread mode draws a pair for every sample that is due, and with fewer values than two for each it holds. -/
theorem pathCalc_draws {s : State} {p n rate : Nat} {q : Path} {x : List Cplx} (hp : p < s.lat.P) (hq : s.paths[p]? = some q)
    (hwf : q.wf) (hx : x.length = 2048) (hns : q.nospread = false) (hrate : stageRates[q.s0]? = some rate)
    (hn : n = blockDraws q.mIndex rate 2048) :
    (∀ ps us rest, accepts ps us → us.length = n → s.drawn ++ s.rng = flat ps ++ rest →
      ∃ (q' : Path) (y : List Cplx),
        exec (.pathCalc p x) s = .next { s with
          paths := s.paths.set p q', result := .block y, drawn := [], holding := false, rng := rest } ∧
        y.length = 2048 ∧ q' = { q with
          gf := q'.gf, ups := q'.ups, theta := phaseAt q.theta q.dtheta 2048, mIndex := (q.mIndex + 2048) % 1280000 }) ∧
    (s.rngWf → (s.drawn ++ s.rng).length < 2 * n →
      exec (.pathCalc p x) s = .next { s with drawn := s.drawn ++ s.rng, holding := true, rng := [] }) := by
  have hdraws := draws_pathCalc (x := x) hwf hns hrate interp2
  rw [hx, ← hn] at hdraws
  refine ⟨fun ps us rest hacc hlen hstream => ?_, fun hgood hfew => ?_⟩
  · obtain ⟨⟨y, q'⟩, ⟨hy, hq'⟩, hrun⟩ := hdraws.ends_all hacc hlen rest
    rw [← hstream] at hrun
    exact ⟨q', y, exec_pathCalc hx hp hq hrun, hy, hq'.path_eq⟩
  · exact exec_pathCalc_starved hx hp hq (hdraws.starved_of_lt hgood hfew)

end Sys2Proof.Proofs.PathDraws

namespace Sys2Proof.Proofs.InOrder
open Sys2Proof Sys2Proof.Machine Sys2Proof.Claims Sys2Proof.Laws

/-! ### A work and its operations, side by side -/

/-- The operations end exactly when the computation does, and what they end with is related to its value and to the values left. -/
def Follows {α β : Type} (R : α → List F64 → β → Prop) : RngResult α → Option β → Prop
  | .ok a rest, some b => R a rest b
  | .ok _ _, none => False
  | .starved, o => o = none
  | .bad, o => o = none

theorem Follows.ok {α β : Type} {R : α → List F64 → β → Prop} {a : α} {rest : List F64} {b : β} (h : R a rest b) :
    Follows R (.ok a rest) (some b) := h

/-- One after the other: what comes second may use how the first part ended. -/
theorem Follows.bind {α β γ δ : Type} {R : α → List F64 → β → Prop} {S : γ → List F64 → δ → Prop} {r : RngResult α}
    {o : Option β} {f : α → List F64 → RngResult γ} {g : β → Option δ} (h : Follows R r o)
    (hnext : ∀ a rest b, r = .ok a rest → R a rest b → Follows S (f a rest) (g b)) : Follows S (r.bind f) (o.bind g) := by
  match r, o, h with
  | .ok a rest, some b, h => exact hnext a rest b rfl h
  | .starved, none, _ => exact rfl
  | .bad, none, _ => exact rfl

theorem Follows.map {α β γ δ : Type} {R : α → List F64 → β → Prop} {S : γ → List F64 → δ → Prop} {r : RngResult α}
    {o : Option β} {f : α → γ} {g : β → δ} (h : Follows R r o) (hnext : ∀ a rest b, r = .ok a rest → R a rest b → S (f a) rest (g b)) :
    Follows S (r.bind fun a rest => .ok (f a) rest) (o.map g) := by
  rw [Option.map_eq_bind]
  exact h.bind hnext

/-- A step of the work alone, which draws nothing. -/
theorem Follows.map_left {α β γ : Type} {R : α → List F64 → β → Prop} {S : γ → List F64 → β → Prop} {r : RngResult α}
    {o : Option β} {f : α → γ} (h : Follows R r o) (hnext : ∀ a rest b, R a rest b → S (f a) rest b) :
    Follows S (r.bind fun a rest => .ok (f a) rest) o := by
  match r, o, h with
  | .ok a rest, some b, h => exact hnext a rest b h
  | .starved, none, _ => exact rfl
  | .bad, none, _ => exact rfl

/-- A step of the operations alone, which draws nothing. -/
theorem Follows.bind_right {α β δ : Type} {R : α → List F64 → β → Prop} {S : α → List F64 → δ → Prop} {r : RngResult α}
    {o : Option β} {g : β → Option δ} (h : Follows R r o) (hnext : ∀ a rest b, R a rest b → Follows S (.ok a rest) (g b)) :
    Follows S r (o.bind g) := by
  match r, o, h with
  | .ok a rest, some b, h => exact hnext a rest b h
  | .starved, none, _ => exact rfl
  | .bad, none, _ => exact rfl

theorem Follows.mono {α β : Type} {R S : α → List F64 → β → Prop} {r : RngResult α} {o : Option β} (h : Follows R r o)
    (hRS : ∀ a rest b, r = .ok a rest → R a rest b → S a rest b) : Follows S r o := by
  match r, o, h with
  | .ok a rest, some b, h => exact hRS a rest b rfl h
  | .starved, none, _ => exact rfl
  | .bad, none, _ => exact rfl

/-- An operation that draws, on a fresh start, ends exactly when its draws do. -/
theorem follows_runDraws {α : Type} {s : State} (hdrawn : s.drawn = []) {f : List F64 → RngResult α} {k : α → State → State}
    (hk : ∀ a u, (k a u).holding = u.holding) :
    Follows (fun a rest t => t = k a { s with drawn := [], holding := false, rng := rest }) (f s.rng) (done (runDraws s f k)) := by
  rw [runDraws, hdrawn, List.nil_append]
  cases f s.rng with
  | ok a rest =>
    have hnot : (k a { s with drawn := [], holding := false, rng := rest }).holding = false := hk a _
    rw [done, hnot]
    exact Follows.ok rfl
  | starved => exact rfl
  | bad => exact rfl

/-- A work that draws ends, on a fresh start, exactly when its operations do, and with what they end with. -/
theorem runDraws_iff_of_follows {α β : Type} {s t : State} (hdrawn : s.drawn = []) {f : List F64 → RngResult α}
    {k : α → State → State} {o : Option β} {final : β → State} {ended : State → Prop}
    (h : Follows (fun a rest b => final b = k a { s with drawn := [], holding := false, rng := rest }) (f s.rng) o)
    (hended : ∀ a rest, ended (k a { s with drawn := [], holding := false, rng := rest }))
    (hheld : ∀ drawn, ¬ ended { s with drawn := drawn, holding := true, rng := [] }) :
    (runDraws s f k = .next t ∧ ended t) ↔ ∃ b, o = some b ∧ t = final b := by
  rw [runDraws, hdrawn, List.nil_append]
  cases hf : f s.rng with
  | ok a rest =>
    rw [hf] at h
    obtain ⟨b, rfl⟩ : ∃ b, o = some b := by
      cases o with
      | none => exact absurd h id
      | some b => exact ⟨b, rfl⟩
    have hfinal : final b = k a { s with drawn := [], holding := false, rng := rest } := h
    constructor
    · rintro ⟨ht, -⟩
      cases ht
      exact ⟨b, rfl, hfinal.symm⟩
    · rintro ⟨b', hb', rfl⟩
      cases hb'
      rw [hfinal]
      exact ⟨rfl, hended a rest⟩
  | starved =>
    have hnone : o = none := by rwa [hf] at h
    refine ⟨?_, fun ⟨b, hb, _⟩ => by rw [hnone] at hb; cases hb⟩
    rintro ⟨ht, he⟩
    cases ht
    exact absurd he (hheld _)
  | bad =>
    have hnone : o = none := by rwa [hf] at h
    exact ⟨fun h => (nomatch h.1), fun ⟨b, hb, _⟩ => by rw [hnone] at hb; cases hb⟩

/-- An operation that answers a state which does not wait is done. -/
theorem done_next {t : State} (h : t.holding = false) : done (.next t) = some t := by
  rw [done, h]
  rfl

end Sys2Proof.Proofs.InOrder

namespace Sys2Proof.Proofs.PathInOrder
open Sys2Proof Sys2Proof.Machine Sys2Proof.Claims Sys2Proof.Laws Sys2Proof.Proofs.InOrder Sys2Proof.Proofs.PathDraws
open Sys2Proof.Proofs.PathUnit

/-! ### The operations of PATH_CALC, one after the other (44_upsampler_path.md R152) -/

/-- The state while the operations of path p run: the path, the values left and the value last returned have changed. -/
def onward (s : State) (p : Nat) (q : Path) (rest : List F64) (v : Value) : State :=
  { s with paths := s.paths.set p q, drawn := [], holding := false, rng := rest, result := v }

theorem onward_path {s : State} {p : Nat} (hin : p < s.paths.length) (q : Path) (rest : List F64) (v : Value) :
    (onward s p q rest v).paths[p]? = some q := List.getElem?_set_self hin

theorem onward_result (s : State) (p : Nat) (q : Path) (rest : List F64) (v : Value) : (onward s p q rest v).result = v := rfl

/-- Changing the path of such a state again. -/
theorem onward_setPath (s : State) (p : Nat) (q q' : Path) (rest : List F64) (v : Value) :
    (onward s p q rest v).setPath p q' = onward s p q' rest v := by
  simp only [onward, State.setPath, List.set_set]

theorem done_upsInsertAt {s : State} {p t : Nat} {q : Path} {u : Ups} (hp : p < s.lat.P) (hin : p < s.paths.length)
    (hu : q.ups[t]? = some u) (m : Nat) (rest : List F64) (v : Value) :
    done (exec (.upsInsertAt p t m) (onward s p q rest v)) = some (onward s p q rest (.bool (upsInsertAt u m))) := by
  rw [exec_upsInsertAt (s := onward s p q rest v) hp (onward_path hin q rest v) hu, done_next rfl]
  rfl

theorem done_upsInsert {s : State} {p t : Nat} {q : Path} {u : Ups} (hp : p < s.lat.P) (hin : p < s.paths.length)
    (hu : q.ups[t]? = some u) (z : Cplx) (rest : List F64) (v : Value) :
    done (exec (.upsInsert p t z) (onward s p q rest v)) = some (onward s p (q.setStage t (upsInsert u z)) rest v) := by
  rw [exec_upsInsert (s := onward s p q rest v) hp (onward_path hin q rest v) hu, onward_setPath, done_next rfl]

theorem done_upsUpsample {s : State} {p t : Nat} {q : Path} {u : Ups} (hp : p < s.lat.P) (hin : p < s.paths.length)
    (hu : q.ups[t]? = some u) (rest : List F64) (v : Value) :
    done (exec (.upsUpsample p t) (onward s p q rest v)) =
      some (onward s p (q.setStage t (upsUpsample interp2 u).2) rest (.cplx (upsUpsample interp2 u).1)) := by
  rw [exec_upsUpsample (s := onward s p q rest v) hp (onward_path hin q rest v) hu, onward_setPath, done_next rfl]
  rfl

theorem done_ncoStep {s : State} {p : Nat} {q : Path} (hp : p < s.lat.P) (hin : p < s.paths.length) (rest : List F64)
    (v : Value) :
    done (exec (.ncoStep p) (onward s p q rest v)) = some (onward s p (ncoStep q).2 rest (.cplx (ncoStep q).1)) := by
  rw [exec, execNcoStep, onPath_some (s := onward s p q rest v) hp (onward_path hin q rest v)]
  dsimp only
  rw [onward_setPath, done_next rfl]
  rfl

theorem follows_rayleighSample {s : State} {p : Nat} (hp : p < s.lat.P) (hin : p < s.paths.length) (q : Path)
    (rest : List F64) (v : Value) :
    Follows (fun o rest' b => b = onward s p o.2 rest' (.cplx o.1)) (Machine.rayleighSample q rest)
      (done (exec (.rayleighSample p) (onward s p q rest v))) := by
  rw [exec, execRayleighSample, onPath_some (s := onward s p q rest v) hp (onward_path hin q rest v)]
  refine (follows_runDraws (s := onward s p q rest v) (f := Machine.rayleighSample q)
    (k := fun o t => (t.setPath p o.2).returning (.cplx o.1)) rfl fun _ _ => rfl).mono fun o rest' b _ hb => ?_
  rw [hb]
  simp only [onward, State.setPath, State.returning, List.set_set]

/-- The operation that gives stage t its input. -/
theorem follows_stageInput {s : State} {p t : Nat} (hp : p < s.lat.P) (hin : p < s.paths.length) {q : Path} (hwf : q.wf)
    (ht : t < 4) (rest : List F64) (v : Value) :
    Follows (fun o rest' b => b = onward s p o.2 rest' (.cplx o.1)) (stageInput interp2 q t rest)
      (done (exec (if t = q.s0 then .rayleighSample p else .upsUpsample p (t - 1)) (onward s p q rest v))) := by
  by_cases hout : t = q.s0
  · rw [if_pos hout, stageInput, if_pos hout]
    exact follows_rayleighSample hp hin q rest v
  · obtain ⟨w, hw, -⟩ := getElem?_ups hwf (List.getElem?_eq_getElem (l := stageRates) (i := t - 1) (by simp [stageRates]; omega))
    rw [if_neg hout, stageInput_of_below hout hw, done_upsUpsample hp hin hw]
    exact Follows.ok rfl

theorem follows_stageStep {s : State} {p t : Nat} (hp : p < s.lat.P) (hin : p < s.paths.length) {q : Path} (hwf : q.wf)
    (hlow : q.s0 ≤ t) (ht : t < 4) (rest : List F64) (v : Value) :
    Follows (fun q' rest' b => ∃ v', b = onward s p q' rest' v') (stageStep interp2 q t rest)
      (stageInOrder p q.s0 q.mIndex t (onward s p q rest v)) := by
  obtain ⟨u, hu, -⟩ := getElem?_ups hwf (List.getElem?_eq_getElem (l := stageRates) (i := t) (by simpa [stageRates] using ht))
  rw [stageInOrder, done_upsInsertAt hp hin hu, Option.bind_some]
  by_cases hdue : q.mIndex % u.rate = 0
  · have hinsert : upsInsertAt u q.mIndex = true := beq_iff_eq.mpr hdue
    rw [stageStep_of_insert hu hdue, hinsert]
    refine (follows_stageInput hp hin hwf ht rest _).bind fun o rest' b ho hb => ?_
    have hkept : o.2.ups[t]? = some u := ((stageInput_faded hwf hlow ho).2).trans hu
    subst hb
    have hinsertion := done_upsInsert hp hin hkept o.1 rest' (.cplx o.1)
    exact (congrArg (Follows _ _) hinsertion).mpr (Follows.ok ⟨_, rfl⟩)
  · have hinsert : upsInsertAt u q.mIndex = false := by rw [upsInsertAt, beq_eq_false_iff_ne]; exact hdue
    rw [stageStep_of_not_insert hu hdue, hinsert]
    exact Follows.ok ⟨_, rfl⟩

/-- Stages t to 3, each after the one before. -/
theorem follows_cascade {s : State} {p : Nat} (hp : p < s.lat.P) (hin : p < s.paths.length) {n t : Nat} {q : Path}
    (hwf : q.wf) (hlow : q.s0 ≤ t) (hn : t + n ≤ 4) (rest : List F64) (v : Value) :
    Follows (fun q' rest' b => ∃ v', b = onward s p q' rest' v') (cascade interp2 (List.range' t n) q rest)
      (stagesInOrder p q.s0 q.mIndex n t (onward s p q rest v)) := by
  induction n generalizing t q rest v with
  | zero => exact Follows.ok ⟨v, rfl⟩
  | succ n ih =>
    rw [List.range'_succ, cascade, stagesInOrder]
    refine (follows_stageStep hp hin hwf hlow (by omega) rest v).bind fun q' rest' b hq' hb => ?_
    obtain ⟨v', rfl⟩ := hb
    obtain ⟨hfaded, hwf'⟩ := stageStep_faded hwf hlow hq'
    have hs0 : q'.s0 = q.s0 := by rw [hfaded]
    have hm : q'.mIndex = q.mIndex := by rw [hfaded]
    rw [← hs0, ← hm]
    exact ih hwf' (by omega) (by omega) rest' v'

theorem cascade_wf {table : List F64} {ts : List Nat} {q q' : Path} {rng rest : List F64} (hwf : q.wf)
    (h : cascade table ts q rng = .ok q' rest) : q'.wf := (cascade_spec ts h hwf).2

theorem follows_fadingFactor {s : State} {p : Nat} (hp : p < s.lat.P) (hin : p < s.paths.length) {q : Path} (hwf : q.wf)
    (rest : List F64) (v : Value) :
    Follows (fun o rest' b => b.1 = o.1 ∧ ∃ v', b.2 = onward s p o.2 rest' v') (fadingFactor interp2 q rest)
      (fadingInOrder p q (onward s p q rest v)) := by
  rw [fadingFactor, fadingInOrder]
  by_cases hns : q.nospread = true
  · rw [if_pos hns, if_pos hns]
    exact Follows.ok ⟨rfl, v, rfl⟩
  · rw [if_neg hns, if_neg hns, activeStages_eq]
    have hs0 := hwf.2.1
    refine (follows_cascade hp hin hwf (le_refl _) (by omega) rest v).bind fun q' rest' b hq' hb => ?_
    obtain ⟨v', rfl⟩ := hb
    obtain ⟨u, hu, -⟩ := getElem?_ups (cascade_wf hwf hq') (t := 3) rfl
    rw [done_upsUpsample hp hin hu, fadingOut, hu]
    exact Follows.ok ⟨rfl, _, rfl⟩

theorem follows_pathSample {s : State} {p : Nat} (hp : p < s.lat.P) (hin : p < s.paths.length) {q : Path} (hwf : q.wf)
    (x : Cplx) (rest : List F64) (v : Value) :
    Follows (fun o rest' b => b.1 = o.1 ∧ ∃ v', b.2 = onward s p o.2 rest' v') (pathSample interp2 q x rest)
      (sampleInOrder p x (onward s p q rest v)) := by
  rw [sampleInOrder, onward_path hin, Option.bind_some, pathSample]
  refine (follows_fadingFactor hp hin hwf rest v).bind fun o rest' b _ hb => ?_
  obtain ⟨f, b⟩ := b
  obtain ⟨rfl, v', rfl⟩ := hb
  rw [done_ncoStep hp hin, Option.bind_some, onward_result, cplxOf, Option.bind_some, onward_path hin, Option.map_some]
  refine Follows.ok ⟨rfl, .cplx (ncoStep o.2).1, ?_⟩
  simp only [onward, List.set_set]
  rfl

theorem follows_pathCalc {s : State} {p : Nat} (hp : p < s.lat.P) (hin : p < s.paths.length) {x : List Cplx} {q : Path}
    (hwf : q.wf) (rest : List F64) (v : Value) :
    Follows (fun o rest' b => b.1 = o.1 ∧ ∃ v', b.2 = onward s p o.2 rest' v') (pathCalc interp2 q x rest)
      (samplesInOrder p x (onward s p q rest v)) := by
  induction x generalizing q rest v with
  | nil => exact Follows.ok ⟨rfl, v, rfl⟩
  | cons a x ih =>
    rw [pathCalc, samplesInOrder]
    refine (follows_pathSample hp hin hwf a rest v).bind fun o rest' b ho hb => ?_
    obtain ⟨y, b⟩ := b
    obtain ⟨rfl, v', rfl⟩ := hb
    refine (ih (pathSample_spec (y := o.1) (q' := o.2) ho hwf).2 rest' v').map fun o' rest'' b' _ hb' => ?_
    exact ⟨congrArg (o.1 :: ·) hb'.1, hb'.2⟩

/-- Settles O52: sample by sample the block is its operations (`follows_pathCalc`); the draws are `pathCalc_draws`. -/
theorem pathCalcDraws : Obligations.PathCalcDraws := by
  refine ⟨fun s t p q x hp hq hwf hx hdrawn hhold => ?_, fun s p n rate q x hp hq hwf hx hns hrate hn => ?_⟩
  · obtain ⟨hin, hget⟩ := List.getElem?_eq_some_iff.mp hq
    have hstart : onward s p q s.rng s.result = s := by
      rw [onward, ← hget, List.set_getElem_self, ← hdrawn, ← hhold]
    have hfollows := follows_pathCalc (x := x) hp hin hwf s.rng s.result
    rw [hstart] at hfollows
    rw [exec, execPathCalc, guarded_true (ChannelCommands.isBlock_iff.mpr hx), onPath_some hp hq]
    refine (runDraws_iff_of_follows (ended := fun t => t.holding = false) (final := fun b => { b.2 with result := .block b.1 })
      hdrawn (hfollows.mono fun o rest b _ hb => ?_) (fun _ _ => rfl) (fun _ => Bool.noConfusion)).trans Prod.exists
    obtain ⟨y, u⟩ := b
    obtain ⟨rfl, v, rfl⟩ := hb
    simp only [onward, State.setPath, State.returning]
  · exact pathCalc_draws hp hq hwf hx hns hrate (hn.trans (blockDraws_eq _ _ _))

end Sys2Proof.Proofs.PathInOrder

namespace Sys2Proof.Proofs.WorksInOrder
open Sys2Proof Sys2Proof.Machine Sys2Proof.Claims Sys2Proof.Laws Sys2Proof.Proofs.InOrder Sys2Proof.Proofs.PathUnit
open Sys2Proof.Proofs.FirHilbert Sys2Proof.Proofs.ChannelCommands

/-! ### The state while the operations of a work run -/

/-- The units, the values left and the value last returned have changed. -/
def working (s : State) (hil : Hilbert) (dl : Delay) (qs : List Path) (nz : Noise) (rest : List F64) (v : Value) : State :=
  { s with
    hil := hil, dl := dl, paths := qs, nz := nz, drawn := [], holding := false, rng := rest, result := v }

theorem working_start {s : State} (hdrawn : s.drawn = []) (hhold : s.holding = false) :
    working s s.hil s.dl s.paths s.nz s.rng s.result = s := by
  rw [working, ← hdrawn, ← hhold]

section
variable (s : State) (hil : Hilbert) (dl : Delay) (nz : Noise) (rest : List F64) (v : Value)

/-! ### CHAN_INIT (46_channel_commands.md R181) -/

theorem runInOrder_append (is js : List Instr) (s : State) :
    runInOrder (is ++ js) s = (runInOrder is s).bind (runInOrder js) := by
  induction is generalizing s with
  | nil => rfl
  | cons i is ih =>
    rw [List.cons_append, runInOrder, runInOrder, Option.bind_assoc]
    exact congrArg _ (funext ih)

theorem runInOrder_resets (qs : List Path) :
    runInOrder [.hilbertInit, .delayInit] (working s hil dl qs nz rest v) =
      some (working s hilbertZero delayZero qs nz rest v) := by
  rw [runInOrder, exec_hilbertInit, done_next rfl, Option.bind_some, runInOrder, exec_delayInit, done_next rfl]
  rfl

theorem runInOrder_delayAdds {ds : List F64} (hds : ∀ d ∈ ds, delayInRange d = true) (qs : List Path) :
    runInOrder (ds.map .delayAdd) (working s hil dl qs nz rest v) =
      some (working s hil (ds.foldl delayAdd dl) qs nz rest v) := by
  induction ds generalizing dl with
  | nil => rfl
  | cons d ds ih =>
    obtain ⟨hd, hds⟩ := List.forall_mem_cons.mp hds
    rw [List.map_cons, runInOrder, exec, execDelayAdd, guarded_true hd, done_next rfl, Option.bind_some]
    exact ih (delayAdd dl d) hds

theorem getElem?_append_cons (done : List Path) (q : Path) (qs : List Path) : (done ++ q :: qs)[done.length]? = some q := by
  rw [List.getElem?_append_right (le_refl _), Nat.sub_self, List.getElem?_cons_zero]

/-- Replacing the first path not yet done. -/
theorem working_setPath (before : List Path) (q q' : Path) (qs : List Path) :
    (working s hil dl (before ++ q :: qs) nz rest v).setPath before.length q' =
      working s hil dl (before ++ q' :: qs) nz rest v := by
  simp only [working, State.setPath, List.set_append_right _ _ (le_refl _), Nat.sub_self, List.set_cons_zero]

theorem follows_pathInit {before : List Path} (hp : before.length < s.lat.P) (q : Path) (qs : List Path) :
    Follows (fun q' rest' t => t = working s hil dl (before ++ q' :: qs) nz rest' v)
      (pathInit s.lat.P (s.lat.spreadOf before.length) (s.lat.offsetOf before.length) q rest)
      (done (exec (.pathInit before.length) (working s hil dl (before ++ q :: qs) nz rest v))) := by
  rw [exec, execPathInit, onPath_some (s := working s hil dl (before ++ q :: qs) nz rest v) hp (getElem?_append_cons before q qs)]
  refine (follows_runDraws (s := working s hil dl (before ++ q :: qs) nz rest v)
    (f := pathInit s.lat.P (s.lat.spreadOf before.length) (s.lat.offsetOf before.length) q)
    (k := fun q' t => t.setPath before.length q') rfl fun _ _ => rfl).mono fun q' rest' t _ ht => ?_
  rw [ht]
  exact working_setPath s hil dl nz rest' v before q q' qs

/-- PATH_INIT of path after path. -/
theorem follows_initPaths {n : Nat} {before qs : List Path} (hn : before.length + n ≤ s.lat.P) (hqs : n ≤ qs.length) :
    Follows (fun qs' rest' t => t = working s hil dl (before ++ qs') nz rest' v)
      (initPaths s.lat before.length n qs rest)
      (runInOrder ((List.range' before.length n).map .pathInit) (working s hil dl (before ++ qs) nz rest v)) := by
  induction n generalizing before qs rest with
  | zero =>
    rw [initPaths]
    exact Follows.ok rfl
  | succ n ih =>
    match qs, hqs with
    | q :: qs, hqs =>
      rw [initPaths, List.range'_succ, List.map_cons, runInOrder]
      refine (follows_pathInit s hil dl nz rest v (by omega) q qs).bind fun q' rest' t _ ht => ?_
      have hsplit : before ++ q' :: qs = (before ++ [q']) ++ qs := by rw [List.append_assoc, List.singleton_append]
      have hlen : (before ++ [q']).length = before.length + 1 := by rw [List.length_append, List.length_singleton]
      rw [ht, hsplit, ← hlen]
      refine (ih rest' (before := before ++ [q']) (by omega) (Nat.le_of_succ_le_succ hqs)).map_left fun qs' rest'' t' ht' => ?_
      rw [ht', List.append_assoc, List.singleton_append]

end

theorem done_noiseInit (s : State) (hil : Hilbert) (dl : Delay) (qs : List Path) (nz : Noise) (rest : List F64) (v : Value) :
    runInOrder [.noiseInit true] (working s hil dl qs nz rest v) = some (working s hil dl qs (noiseInit true) rest v) := by
  rw [runInOrder, exec_noiseInit, done_next rfl]
  rfl

theorem follows_chanInitWork {s : State} (hwf : s.lat.wf) (hpaths : s.paths.length = 32)
    (hdelays : ∀ d, d ∈ s.lat.delayMs → delayInRange d = true) (rest : List F64) (v : Value) :
    Follows (fun o rest' u => u = working s o.1 o.2.1 o.2.2 (noiseInit true) rest' v) (chanInitWork s rest)
      (runInOrder (initOperations s.lat) (working s s.hil s.dl s.paths s.nz rest v)) := by
  by_cases hP : s.lat.P = 0
  · rw [chanInitWork_direct hP, initOperations, if_pos hP, List.nil_append, done_noiseInit]
    exact Follows.ok rfl
  · have hmax : maxPaths ≤ 32 := Config.maxPathsPred.isLt
    have hdrop : ∀ d ∈ s.lat.delayMs.drop 1, delayInRange d = true := fun d hd => hdelays d (List.mem_of_mem_drop hd)
    rw [chanInitWork, if_neg hP, initOperations, if_neg hP, List.range_eq_range', runInOrder_append, runInOrder_append,
      runInOrder_append, runInOrder_resets, Option.bind_some, runInOrder_delayAdds _ _ _ _ _ _ hdrop, Option.bind_some]
    refine (follows_initPaths s hilbertZero _ s.nz rest v (before := []) (n := s.lat.P) (qs := s.paths)
      (Nat.zero_add _).le (by have := hwf.1; omega)).bind fun qs rest' t _ ht => ?_
    rw [ht, done_noiseInit]
    exact Follows.ok rfl

/-- Settles O29: unit by unit the work is its operations (`follows_chanInitWork`). -/
theorem chanInitIsItsOperations : Obligations.ChanInitIsItsOperations := by
  intro s t hwf hpaths hdelays hdrawn hhold hfin
  have hfollows := follows_chanInitWork hwf hpaths hdelays s.rng s.result
  rw [working_start hdrawn hhold] at hfollows
  rw [exec, execChanInit]
  refine runDraws_iff_of_follows (ended := fun t => t.finished ≠ none)
    (final := fun u => { u with sigAvg := signalRmsReset, finished := some .init }) hdrawn
    (hfollows.mono fun o rest u _ hu => ?final) ?ended (fun _ h => h hfin)
  case final => rw [hu, working]
  case ended => exact fun _ _ => Option.some_ne_none _

/-! ### CHAN_PROCESS (R170, R182) -/

theorem pathCalc_length {table : List F64} {x : List Cplx} {q : Path} {o : List Cplx × Path} {rng rest : List F64}
    (h : pathCalc table q x rng = .ok o rest) : o.1.length = x.length := by
  induction x generalizing q o rng rest with
  | nil =>
    cases h
    rfl
  | cons a x ih =>
    obtain ⟨b, mid, -, hb⟩ := bind_eq_ok h
    obtain ⟨c, mid', hc, ho⟩ := bind_eq_ok hb
    cases ho
    exact congrArg Nat.succ (ih hc)

theorem runPaths_lengths {table : List F64} {qs : List Path} {xs : List (List Cplx)} {o : List (List Cplx) × List Path}
    {rng rest : List F64} (h : runPaths table qs xs rng = .ok o rest) (hxs : ∀ x ∈ xs, x.length = 2048) :
    ∀ y ∈ o.1, y.length = 2048 := by
  induction xs generalizing qs o rng rest with
  | nil =>
    rw [runPaths_nil] at h
    cases h
    nofun
  | cons x xs ih =>
    obtain ⟨hx, hxs⟩ := List.forall_mem_cons.mp hxs
    match qs with
    | [] =>
      rw [runPaths] at h
      · cases h
        nofun
      · nofun
    | q :: qs =>
      rw [runPaths] at h
      obtain ⟨b, mid, hb, hrest⟩ := bind_eq_ok h
      obtain ⟨c, mid', hc, ho⟩ := bind_eq_ok hrest
      cases ho
      exact List.forall_mem_cons.mpr ⟨(pathCalc_length hb).trans hx, ih hc hxs⟩

theorem follows_pathCalc {s : State} {hil : Hilbert} {dl : Delay} {nz : Noise} {before : List Path} {x : List Cplx}
    (hp : before.length < s.lat.P) (hx : x.length = 2048) (q : Path) (qs : List Path) (rest : List F64) (v : Value) :
    Follows (fun o rest' t => t = working s hil dl (before ++ o.2 :: qs) nz rest' (.block o.1)) (pathCalc interp2 q x rest)
      (done (exec (.pathCalc before.length x) (working s hil dl (before ++ q :: qs) nz rest v))) := by
  rw [exec, execPathCalc, guarded_true (isBlock_iff.mpr hx),
    onPath_some (s := working s hil dl (before ++ q :: qs) nz rest v) hp (getElem?_append_cons before q qs)]
  refine (follows_runDraws (s := working s hil dl (before ++ q :: qs) nz rest v) (f := pathCalc interp2 q x)
    (k := fun o t => (t.setPath before.length o.2).returning (.block o.1)) rfl fun _ _ => rfl).mono fun o rest' t _ ht => ?_
  rw [ht]
  exact congrArg (State.returning · _) (working_setPath s hil dl nz rest' v before q o.2 qs)

/-- PATH_CALC of path after path, each on its input. -/
theorem follows_runPaths {s : State} {hil : Hilbert} {dl : Delay} {nz : Noise} {xs : List (List Cplx)} {before qs : List Path}
    (hxs : ∀ x ∈ xs, x.length = 2048) (hp : before.length + xs.length ≤ s.lat.P) (hqs : xs.length ≤ qs.length)
    (rest : List F64) (v : Value) :
    Follows (fun o rest' b => b.1 = o.1 ∧ ∃ v', b.2 = working s hil dl (before ++ o.2) nz rest' v') (runPaths interp2 qs xs rest)
      (pathsInOrder xs before.length (working s hil dl (before ++ qs) nz rest v)) := by
  induction xs generalizing before qs rest v with
  | nil =>
    rw [runPaths_nil]
    exact Follows.ok ⟨rfl, v, rfl⟩
  | cons x xs ih =>
    obtain ⟨hx, hxs⟩ := List.forall_mem_cons.mp hxs
    rw [List.length_cons] at hp hqs
    match qs, hqs with
    | q :: qs, hqs =>
      rw [runPaths, pathsInOrder]
      refine (follows_pathCalc (by omega) hx q qs rest v).bind fun o rest' t _ ht => ?_
      have hsplit : before ++ o.2 :: qs = (before ++ [o.2]) ++ qs := by rw [List.append_assoc, List.singleton_append]
      have hlen : (before ++ [o.2]).length = before.length + 1 := by rw [List.length_append, List.length_singleton]
      rw [ht, hsplit, ← hlen]
      refine (ih (before := before ++ [o.2]) hxs (by omega) (Nat.le_of_succ_le_succ hqs) rest' _).map
        fun o' rest'' b _ ⟨hb, v', hv'⟩ => ⟨congrArg (o.1 :: ·) hb, v', ?_⟩
      rw [hv', List.append_assoc, List.singleton_append]

theorem done_hilbertFilterBlock {x : List F64} (hx : x.length = 2048) (s : State) (dl : Delay) (qs : List Path) (nz : Noise)
    (rest : List F64) (v : Value) :
    done (exec (.hilbertFilterBlock x) (working s s.hil dl qs nz rest v)) =
      some (working s (hilbertBlock hre2 him2 s.hil x).2 dl qs nz rest (.block (hilbertBlock hre2 him2 s.hil x).1)) := by
  rw [exec, execHilbertFilterBlock, guarded_true (isBlock_iff.mpr hx)]
  exact done_next rfl

theorem done_delayBlock {a : List Cplx} (ha : a.length = 2048) (s : State) (hil : Hilbert) (qs : List Path) (nz : Noise)
    (rest : List F64) (v : Value) :
    done (exec (.delayBlock a) (working s hil s.dl qs nz rest v)) =
      some (working s hil (delayBlock s.dl a).2 qs nz rest (.blocks (delayBlock s.dl a).1)) := by
  rw [exec, execDelayBlock, guarded_true (isBlock_iff.mpr ha)]
  exact done_next rfl

theorem done_pathAccumulate {ys : List (List Cplx)} (hne : ys ≠ []) (hys : ∀ y ∈ ys, y.length = 2048) (s : State)
    (hil : Hilbert) (dl : Delay) (qs : List Path) (nz : Noise) (rest : List F64) (v : Value) :
    done (exec (.pathAccumulate ys) (working s hil dl qs nz rest v)) =
      some (working s hil dl qs nz rest (.samples (pathAccumulate ys))) := by
  match ys, hne with
  | y :: ys, _ =>
    obtain ⟨hy, hys⟩ := List.forall_mem_cons.mp hys
    rw [exec_pathAccumulate hy hys]
    exact done_next rfl

/-- Step 2 of PROCESS_BLOCK. -/
theorem follows_pathBank {s : State} (hwf : s.lat.wf) (hpaths : s.paths.length = 32) {x : List F64} (hx : x.length = 2048)
    (rest : List F64) (v : Value) :
    Follows (fun b rest' c => c.1 = b.y ∧ b.y.length = 2048 ∧ ∃ v', c.2 = working s b.hil b.dl b.paths s.nz rest' v')
      (pathBank s x rest) (bankInOrder x (working s s.hil s.dl s.paths s.nz rest v)) := by
  obtain ⟨hP, hdirect, -⟩ := hwf
  have hmax : maxPaths ≤ 32 := Config.maxPathsPred.isLt
  rw [pathBank, bankInOrder]
  by_cases hd : s.lat.direct = true
  · rw [if_pos hd]
    exact (congrArg (Follows _ _) (if_pos hd)).mpr (Follows.ok ⟨rfl, hx, v, rfl⟩)
  · have hpos : s.lat.P ≠ 0 := fun h0 => hd (by rw [hdirect, h0]; rfl)
    rw [if_neg hd]
    refine (congrArg (Follows _ _) (if_neg hd)).mpr ?_
    rw [done_hilbertFilterBlock hx, Option.bind_some]
    dsimp only
    have ha : (hilbertBlock hre2 him2 s.hil x).1.length = 2048 := (hilbertBlock_length hre2 him2 s.hil x).trans hx
    generalize hilbertBlock hre2 him2 s.hil x = filtered at ha ⊢
    have hblock : ∀ w, blockOf (working s filtered.2 s.dl s.paths s.nz rest (.block w)).result = some w := fun _ => rfl
    rw [hblock, Option.bind_some, done_delayBlock ha, Option.bind_some]
    obtain ⟨-, htaps⟩ := delayBlock_blocks s.dl filtered.1
    generalize delayBlock s.dl filtered.1 = delayed at htaps ⊢
    have hblocks : ∀ w, blocksOf (working s filtered.2 delayed.2 s.paths s.nz rest (.blocks w)).result = some w := fun _ => rfl
    rw [hblocks, Option.bind_some]
    have hinputs : ∀ y ∈ (filtered.1 :: delayed.1).take s.lat.P, y.length = 2048 := by
      intro y hy
      rcases List.mem_cons.mp (List.mem_of_mem_take hy) with rfl | hy
      · exact ha
      · rw [htaps y hy, ha]
    have htake : ((filtered.1 :: delayed.1).take s.lat.P).length ≤ s.lat.P := List.length_take_le _ _
    refine (follows_runPaths (s := s) (before := []) (qs := s.paths) hinputs (by rwa [List.length_nil, Nat.zero_add]) (by omega) rest _).bind
      fun o rest' c ho hc => ?_
    obtain ⟨ys, c⟩ := c
    obtain ⟨rfl, v', rfl⟩ := hc
    have hys := runPaths_lengths ho hinputs
    have hne : o.1 ≠ [] := by
      intro hnil
      have hcount := runPaths_count (ys := o.1) (qs' := o.2) ho (by omega)
      rw [hnil, List.length_take, List.length_cons, List.length_nil] at hcount
      omega
    rw [done_pathAccumulate hne hys]
    exact Follows.ok ⟨rfl, pathAccumulate_length hne hys, _, rfl⟩

/-- Step 3 of PROCESS_BLOCK. -/
theorem follows_noiseStage {s : State} {g : F64 × F64} (hg : agcGains targetRms s.lat.noiseOn s.lat.snr s.sigAvg = g)
    {y : List F64} (hy : y.length = 2048) (hil : Hilbert) (dl : Delay) (qs : List Path) (rest : List F64) (v : Value) :
    Follows (fun n rest' c => c.1 = n.1 ∧ c.2.1 = (if s.lat.noiseOn then g.2 else fZero) ∧
        ∃ v', c.2.2 = working s hil dl qs n.2 rest' v')
      (noiseStage s g.1 g.2 y rest) (noiseInOrder y (working s hil dl qs s.nz rest v)) := by
  have hgains : exec .agcGains (working s hil dl qs s.nz rest v) = .next (working s hil dl qs s.nz rest (.gains g.1 g.2)) :=
    exec_agcGains (s := working s hil dl qs s.nz rest v) hg
  have hreturned : gainsOf (working s hil dl qs s.nz rest (.gains g.1 g.2)).result = some g := rfl
  rw [noiseInOrder, hgains, done_next rfl, Option.bind_some, hreturned, Option.bind_some, noiseStage]
  by_cases hon : s.lat.noiseOn = true
  · rw [if_pos hon, if_pos hon]
    refine (congrArg (Follows _ _) (if_pos hon)).mpr ?_
    rw [exec, execNoiseAdd, guarded_true (isBlock_iff.mpr hy)]
    refine (follows_runDraws (s := working s hil dl qs s.nz rest (.gains g.1 g.2)) (f := noiseAdd hre2 s.nz y g.1 g.2)
      (k := fun o t => { t with nz := o.2 }.returning (.samples o.1)) rfl fun _ _ => rfl).bind_right fun n rest' t ht => ?_
    rw [ht]
    exact Follows.ok ⟨rfl, rfl, _, rfl⟩
  · rw [if_neg hon, if_neg hon]
    exact (congrArg (Follows _ _) (if_neg hon)).mpr (Follows.ok ⟨rfl, rfl, _, rfl⟩)

/-- Bank and noise do not look at the level. -/
theorem pathBank_level (s : State) (r : F64) (x rng : List F64) : pathBank { s with sigAvg := r } x rng = pathBank s x rng := rfl

theorem noiseStage_level (s : State) (r sg nr : F64) (y rng : List F64) :
    noiseStage { s with sigAvg := r } sg nr y rng = noiseStage s sg nr y rng := rfl

/-- The state that CHAN_PROCESS leaves when it finishes. -/
def processed (s : State) (o : ProcessOut) (rest : List F64) : State :=
  { s with
    hil := o.bank.hil, dl := o.bank.dl, paths := o.bank.paths, nz := o.nz, sigAvg := o.sigAvg
    finished := some (.block o.y o.nrd), drawn := [], holding := false, rng := rest }

/-- The level first, then bank and noise on the state with the new level. -/
theorem follows_chanProcessWork {s : State} (hwf : s.lat.wf) (hpaths : s.paths.length = 32) (hdrawn : s.drawn = [])
    (hhold : s.holding = false) :
    Follows (fun o rest t => t = processed s o rest) (chanProcessWork s s.rng) (processInOrder s) := by
  have hx : (readBlock s).length = 2048 := readBlock_length s
  rw [processInOrder, chanProcessWork]
  dsimp only
  generalize readBlock s = x at hx ⊢
  generalize hr : rmsUpdate x s.sigAvg = r
  have hlevel : done (exec (.blockRmsUpdate x) s) =
      some (working { s with sigAvg := r } s.hil s.dl s.paths s.nz s.rng s.result) := by
    rw [exec, execBlockRmsUpdate, guarded_true (isBlock_iff.mpr hx), hr, working_start (s := { s with sigAvg := r }) hdrawn hhold]
    exact done_next hhold
  rw [hlevel, Option.bind_some, ← pathBank_level s r]
  refine (follows_pathBank (s := { s with sigAvg := r }) hwf hpaths hx s.rng s.result).bind fun b rest c _ hc => ?_
  obtain ⟨y, u⟩ := c
  obtain ⟨rfl, hy, v, rfl⟩ := hc
  rw [← noiseStage_level s r]
  refine (follows_noiseStage (s := { s with sigAvg := r }) rfl hy b.hil b.dl b.paths rest v).map fun n rest' d _ hd => ?_
  obtain ⟨y', nrd, u⟩ := d
  obtain ⟨rfl, rfl, v', rfl⟩ := hd
  rw [processed, working]

/-- Settles O30: step by step the work is its operations (`follows_chanProcessWork`). -/
theorem chanProcessIsItsOperations : Obligations.ChanProcessIsItsOperations := by
  intro s t hwf hpaths hdrawn hhold hfin
  rw [exec, execChanProcess]
  have hsame : processInOrder s = some t ↔ ∃ u, processInOrder s = some u ∧ t = id u := by simp
  rw [hsame]
  refine runDraws_iff_of_follows (ended := fun t => t.finished ≠ none) hdrawn
    ((follows_chanProcessWork hwf hpaths hdrawn hhold).mono fun o rest u _ hu => ?final) ?ended (fun _ h => h hfin)
  case final => exact hu
  case ended => exact fun _ _ => Option.some_ne_none _

end Sys2Proof.Proofs.WorksInOrder

end
